-- ==== Sys2Proof/Word.lean ====
section
/-!
DEFINITION. The bit-vector types of the machine: a register value, a byte, a register number and
an instruction word.
-/

namespace Sys2Proof

/-- The container of an `XLEN`-bit value (10_state R21, R25, R30): registers, the pc and addresses.
With `XLEN = 64` it is the value; with `XLEN = 32` the value stands in bits 31-0 and bits 63-32 are
zero (DESIGN CHOICE, safe: log 10). -/
abbrev Word := BitVec 64

/-- A byte is 8 bits (10_state R30). -/
abbrev Byte := BitVec 8

/-- A 5-bit register number: the fields `rd`, `rs1`, `rs2` (10_state R21, 30_encoding R71). -/
abbrev Reg := BitVec 5

/-- One 32-bit instruction word (30_encoding R70). -/
abbrev InstrWord := BitVec 32

end Sys2Proof
end

