-- ==== Sys2Proof/Config.lean ====
section
/-!
DEFINITION. What an implementation fixes (the parameters of 00_scope section 4) and the free values
the spec leaves open. The parameters are plain data and travel inside `State` (log 1), so a statement
about every state holds for every value of every parameter.
-/

namespace Sys2Proof

/-- The parameter `XLEN` (00_scope section 4, D1). -/
inductive Xlen where
  | rv32
  | rv64
  deriving DecidableEq, Repr

/-- The parameter `MISALIGNED_CAUSE` (20_memory R43, D7). -/
inductive MisalignedCause where
  | addressMisaligned
  | accessFault
  deriving DecidableEq, Repr

/-- The parameter `MEMORY_MODEL` (20_memory R54 to R59, D20). -/
inductive MemoryModel where
  | scInterleaving
  | rvwmo
  deriving DecidableEq, Repr

/-- The parameter `SC_FAIL_CODE` (40_lr_sc R92, D14): the default set of every nonzero `XLEN`-bit
value, or a nonempty list of codes. -/
inductive ScFailCodes where
  | everyNonzero
  | oneOf (first : Word) (rest : List Word)
  deriving DecidableEq, Repr

/-- A block of consecutive byte addresses `base .. base + size - 1`. -/
structure Region where
  base : Nat
  size : Nat
  deriving DecidableEq, Repr

/-- The parameters of 00_scope section 4. `NHARTS` is not among them: it is the number of harts the
state holds. -/
structure Config where
  /-- `XLEN`. -/
  xlen : Xlen
  /-- `ADMIT_D_FORMS` (D2): may be true only when `XLEN = 64`. -/
  admitD : Bool
  /-- `MEM` (D8): the byte addresses of main memory, as a union of blocks. -/
  regions : List Region
  /-- `MISALIGNED_CAUSE` (D7). -/
  misalignedCause : MisalignedCause
  /-- `RESERVATION_GRANULE` (D11) is 2 to this power. -/
  granuleLog2 : Nat
  /-- `SC_FAIL_CODE` (D14). -/
  scFailCodes : ScFailCodes
  /-- `MEMORY_MODEL` (D20). -/
  memoryModel : MemoryModel
  /-- `RESET_PC` (D32). -/
  resetPc : Word
  /-- `PROGRAM` (D24): pairs of a byte address and the instruction word placed there. -/
  program : List (Nat × InstrWord)
  /-- `END_PC` (D33). -/
  endPc : List Word
  deriving DecidableEq, Repr

/-- FREE VALUE (log 6): the raw draw of the code a failed store-conditional writes (40_lr_sc R92,
"draw from SC_FAIL_CODE"). Argument: the draw counter. -/
opaque Config.freeFailCode : Nat → Word

/-- FREE VALUE (log 6): whether a store-conditional of case (b) of 20_memory R52 succeeds ("the outcome
is a draw"). Argument: the draw counter. -/
opaque Config.freeScOutcome : Nat → Bool

/-- FREE VALUE (log 6): what a read returns under `MEMORY_MODEL = RVWMO` (20_memory R59, "a read is
answered by an oracle (any bytes)"). Argument: the draw counter. -/
opaque Config.freeOracle : Nat → Word

/-- FREE VALUE (log 4): which of the enabled turns comes next once the schedule has run out
(20_memory R54, "Every interleaving of the harts' steps is an execution", and R50). -/
opaque Config.freeTurn : Nat → Nat

end Sys2Proof
end

