-- ==== Sys2Proof/Syntax.lean ====
section
/-!
DEFINITION. The instructions, one constructor per row of spec/opcode_table.json, and the two
access widths.
-/

namespace Sys2Proof

/-- The access widths of the instructions in scope (20_memory R42): 4 bytes for a `.w` form, 8 bytes
for a `.d` form. -/
inductive Width where
  | word
  | doubleword
  deriving DecidableEq, Repr

/-- The instructions. The first eleven are the sourced `.w` forms (00_scope R2), the last eleven the
`.d` forms of RV64A (42_rv64a R120). `aq` and `rl` are the free ordering bits 26 and 25
(30_encoding R75); the load-reserved forms have no `rs2` (30_encoding R76). -/
inductive Instr where
  /-- `lr.w` (40_lr_sc R91). -/
  | lrW (rd rs1 : Reg) (aq rl : Bool)
  /-- `sc.w` (40_lr_sc R92). -/
  | scW (rd rs1 rs2 : Reg) (aq rl : Bool)
  /-- `amoswap.w` (41_amo_w R102). -/
  | amoswapW (rd rs1 rs2 : Reg) (aq rl : Bool)
  /-- `amoadd.w` (41_amo_w R103). -/
  | amoaddW (rd rs1 rs2 : Reg) (aq rl : Bool)
  /-- `amoxor.w` (41_amo_w R104). -/
  | amoxorW (rd rs1 rs2 : Reg) (aq rl : Bool)
  /-- `amoand.w` (41_amo_w R105). -/
  | amoandW (rd rs1 rs2 : Reg) (aq rl : Bool)
  /-- `amoor.w` (41_amo_w R106). -/
  | amoorW (rd rs1 rs2 : Reg) (aq rl : Bool)
  /-- `amomin.w` (41_amo_w R107). -/
  | amominW (rd rs1 rs2 : Reg) (aq rl : Bool)
  /-- `amomax.w` (41_amo_w R108). -/
  | amomaxW (rd rs1 rs2 : Reg) (aq rl : Bool)
  /-- `amominu.w` (41_amo_w R109). -/
  | amominuW (rd rs1 rs2 : Reg) (aq rl : Bool)
  /-- `amomaxu.w` (41_amo_w R110). -/
  | amomaxuW (rd rs1 rs2 : Reg) (aq rl : Bool)
  /-- `lr.d` (42_rv64a R122). -/
  | lrD (rd rs1 : Reg) (aq rl : Bool)
  /-- `sc.d` (42_rv64a R123). -/
  | scD (rd rs1 rs2 : Reg) (aq rl : Bool)
  /-- `amoswap.d` (42_rv64a R124). -/
  | amoswapD (rd rs1 rs2 : Reg) (aq rl : Bool)
  /-- `amoadd.d` (42_rv64a R125). -/
  | amoaddD (rd rs1 rs2 : Reg) (aq rl : Bool)
  /-- `amoxor.d` (42_rv64a R126). -/
  | amoxorD (rd rs1 rs2 : Reg) (aq rl : Bool)
  /-- `amoand.d` (42_rv64a R127). -/
  | amoandD (rd rs1 rs2 : Reg) (aq rl : Bool)
  /-- `amoor.d` (42_rv64a R128). -/
  | amoorD (rd rs1 rs2 : Reg) (aq rl : Bool)
  /-- `amomin.d` (42_rv64a R129). -/
  | amominD (rd rs1 rs2 : Reg) (aq rl : Bool)
  /-- `amomax.d` (42_rv64a R130). -/
  | amomaxD (rd rs1 rs2 : Reg) (aq rl : Bool)
  /-- `amominu.d` (42_rv64a R131). -/
  | amominuD (rd rs1 rs2 : Reg) (aq rl : Bool)
  /-- `amomaxu.d` (42_rv64a R132). -/
  | amomaxuD (rd rs1 rs2 : Reg) (aq rl : Bool)
  deriving DecidableEq, Repr

end Sys2Proof
end

