-- ==== Sys2Proof/Machine/Platform.lean ====
section
/-!
DEFINITION. What the parameters mean: the register width, the set MEM, the reservation set, and when
the doubleword forms are admitted.
-/

namespace Sys2Proof

/-- The number of bits of a register, the pc and an address (10_state R21). -/
def Xlen.bits : Xlen → Nat
  | .rv32 => 32
  | .rv64 => 64

/-- The `XLEN`-bit value of a container: computed modulo `2^XLEN` (10_state R26, log 10). -/
def Xlen.wrap : Xlen → Word → Word
  | .rv32, v => (v.setWidth 32).setWidth 64
  | .rv64, v => v

/-- `sext_XLEN(v)` (00_scope R7). -/
def Xlen.sext {n : Nat} (x : Xlen) (v : BitVec n) : Word :=
  x.wrap (v.signExtend 64)

/-- The size of an access in bytes (20_memory R42). -/
def Width.bytes : Width → Nat
  | .word => 4
  | .doubleword => 8

/-- The size of an access in bits. -/
abbrev Width.bits : Width → Nat
  | .word => 32
  | .doubleword => 64

/-- A byte address is in the block. -/
def Region.holds (r : Region) (a : Nat) : Bool :=
  decide (r.base ≤ a) && decide (a < r.base + r.size)

/-- A byte address is in MEM (20_memory R44). -/
def Config.inMem (c : Config) (a : Nat) : Bool :=
  c.regions.any (·.holds a)

/-- Every byte `a .. a + n - 1` is in MEM (20_memory R44). -/
def Config.admits (c : Config) (a n : Nat) : Bool :=
  (List.range n).all fun i => c.inMem (a + i)

/-- `RESERVATION_GRANULE` (20_memory R51): a power of two. -/
def Config.granule (c : Config) : Nat :=
  2 ^ c.granuleLog2

/-- Byte `b` lies in `RS(a)`, the aligned block of `RESERVATION_GRANULE` bytes that contains `a`
(20_memory R51). -/
def Config.inReservationSet (c : Config) (a b : Nat) : Bool :=
  b / c.granule == a / c.granule

/-- Some byte of `b .. b + n - 1` lies in `RS(a)` (20_memory R49). -/
def Config.touches (c : Config) (a b n : Nat) : Bool :=
  (List.range n).any fun i => c.inReservationSet a (b + i)

/-- Every byte of `b .. b + n - 1` lies in `RS(a)` (20_memory R52 case (b)). -/
def Config.covers (c : Config) (a b n : Nat) : Bool :=
  (List.range n).all fun i => c.inReservationSet a (b + i)

/-- The `.d` forms are admitted: `ADMIT_D_FORMS` holds, which requires `XLEN = 64`
(30_encoding R78 step (3), D2). -/
def Config.admitsD (c : Config) : Bool :=
  c.admitD && (c.xlen == .rv64)

end Sys2Proof
end

