-- ==== Sys2Proof/WellFormed.lean ====
section
/-!
DEFINITION. When an instruction and a configuration are well formed.
-/

namespace Sys2Proof

/-- The access width of an instruction: `funct3` of its encoding (30_encoding R73, 42_rv64a R120). -/
def Instr.width : Instr → Width
  | .lrW .. | .scW .. | .amoswapW .. | .amoaddW .. | .amoxorW .. | .amoandW .. | .amoorW ..
  | .amominW .. | .amomaxW .. | .amominuW .. | .amomaxuW .. => .word
  | .lrD .. | .scD .. | .amoswapD .. | .amoaddD .. | .amoxorD .. | .amoandD .. | .amoorD ..
  | .amominD .. | .amomaxD .. | .amominuD .. | .amomaxuD .. => .doubleword

/-- An instruction is well formed under a configuration. Any register number is legal in any field
(10_state R24) and the field types hold nothing else; the one check is that a `.d` form is admitted
(42_rv64a R120). -/
def Instr.wf (c : Config) (i : Instr) : Bool :=
  match i.width with
  | .word => true
  | .doubleword => c.admitsD

/-- `ADMIT_D_FORMS` may be true only when `XLEN = 64` (00_scope section 4). -/
def Config.wfAdmitD (c : Config) : Bool :=
  !c.admitD || (c.xlen == .rv64)

/-- `RESERVATION_GRANULE` is at least 4, and at least 8 with `ADMIT_D_FORMS` (00_scope section 4). -/
def Config.wfGranule (c : Config) : Bool :=
  decide ((if c.admitD then 3 else 2) ≤ c.granuleLog2)

/-- A container holds an `XLEN`-bit value (log 10). -/
def Xlen.fits (x : Xlen) (v : Word) : Bool :=
  decide (v.toNat < 2 ^ x.bits)

/-- The members of `SC_FAIL_CODE` are nonzero `XLEN`-bit values (00_scope section 4). -/
def Config.wfFailCodes (c : Config) : Bool :=
  match c.scFailCodes with
  | .everyNonzero => true
  | .oneOf first rest => (first :: rest).all fun v => v != 0 && c.xlen.fits v

/-- `RESET_PC` is an `XLEN`-bit multiple of 4 (00_scope section 4). -/
def Config.wfResetPc (c : Config) : Bool :=
  c.xlen.fits c.resetPc && (c.resetPc.toNat % 4 == 0)

/-- MEM lies inside the address space (10_state R30: an address is an `XLEN`-bit value). -/
def Config.wfRegions (c : Config) : Bool :=
  c.regions.all fun r => decide (r.base + r.size ≤ 2 ^ c.xlen.bits)

/-- One address of `PROGRAM`: a multiple of 4 inside the address space, its four bytes not in MEM
(20_memory R64, 30_encoding R84). -/
def Config.wfProgramAddress (c : Config) (a : Nat) : Bool :=
  (a % 4 == 0) && decide (a + 4 ≤ 2 ^ c.xlen.bits) && (List.range 4).all fun i => !c.inMem (a + i)

/-- `PROGRAM` is a finite map of such addresses: no address has two words (00_scope section 4). -/
def Config.wfProgram (c : Config) : Bool :=
  c.program.all (fun p => c.wfProgramAddress p.1) && decide (c.program.map Prod.fst).Nodup

/-- The legal values of the parameters (00_scope section 4). -/
def Config.wf (c : Config) : Bool :=
  c.wfAdmitD && c.wfGranule && c.wfFailCodes && c.wfResetPc && c.wfRegions && c.wfProgram

end Sys2Proof
end

