-- ==== Sys2Proof/Decode.lean ====
section
/-!
DEFINITION. Decoding an instruction word (30_encoding R71 to R78, 42_rv64a R120), total and rejecting
by name, and the encoder written from the same tables.
-/

namespace Sys2Proof

/-- Why the decoder refuses a word (30_encoding R78). -/
inductive DecodeRefusal where
  /-- Step (1): bits 6-0 are not `0101111`. -/
  | notAnAtomic
  /-- Step (2): the load-reserved pattern with bits 24-20 not `00000` (30_encoding R76). -/
  | lrWithNonzeroRs2
  /-- Step (2): bits 31-27 are none of the eleven values. -/
  | unknownFunct5
  /-- Step (3): bits 14-12 are `011` and the `.d` forms are not admitted. -/
  | doublewordFormNotAdmitted
  /-- Step (4): any other bits 14-12. -/
  | unknownWidth
  /-- The model's own, for bytes only: fewer than four bytes are no instruction word (30_encoding R70).
  `step` never meets it, since it fetches whole words (log 11). -/
  | fewerThanFourBytes
  deriving DecidableEq, Repr

/-- The nine fields of the format, the last two joined (30_encoding R71, table "Format AMO"). -/
structure Fields where
  funct5 : BitVec 5
  aq : Bool
  rl : Bool
  rs2 : Reg
  rs1 : Reg
  funct3 : BitVec 3
  rd : Reg
  opcode : BitVec 7
  deriving DecidableEq, Repr

/-- Field extraction (30_encoding R71). -/
def fieldsOf (w : InstrWord) : Fields where
  funct5 := w.extractLsb' 27 5
  aq := w.getLsbD 26
  rl := w.getLsbD 25
  rs2 := w.extractLsb' 20 5
  rs1 := w.extractLsb' 15 5
  funct3 := w.extractLsb' 12 3
  rd := w.extractLsb' 7 5
  opcode := w.extractLsb' 0 7

/-- Assembly: `funct5*2^27 + aq*2^26 + rl*2^25 + rs2*2^20 + rs1*2^15 + funct3*2^12 + rd*2^7 + opcode`,
the fields standing side by side (30_encoding R71). -/
def assemble (f : Fields) : InstrWord :=
  f.funct5 ++ BitVec.ofBool f.aq ++ BitVec.ofBool f.rl ++ f.rs2 ++ f.rs1 ++ f.funct3 ++ f.rd
    ++ f.opcode

/-- The opcode of all instructions in scope (30_encoding R72). -/
def amoOpcode : BitVec 7 := 0b0101111#7

/-- `funct3` of a width (30_encoding R73, 42_rv64a R120). -/
def Width.funct3 : Width → BitVec 3
  | .word => 0b010#3
  | .doubleword => 0b011#3

/-- The "funct5 map" of 30_encoding R74, for `funct3 = 010`. -/
def decodeWordForm (f : Fields) : Except DecodeRefusal Instr :=
  if f.funct5 = 0b00010#5 then
    if f.rs2 = 0b00000#5 then .ok (.lrW f.rd f.rs1 f.aq f.rl) else .error .lrWithNonzeroRs2
  else if f.funct5 = 0b00011#5 then .ok (.scW f.rd f.rs1 f.rs2 f.aq f.rl)
  else if f.funct5 = 0b00001#5 then .ok (.amoswapW f.rd f.rs1 f.rs2 f.aq f.rl)
  else if f.funct5 = 0b00000#5 then .ok (.amoaddW f.rd f.rs1 f.rs2 f.aq f.rl)
  else if f.funct5 = 0b00100#5 then .ok (.amoxorW f.rd f.rs1 f.rs2 f.aq f.rl)
  else if f.funct5 = 0b01100#5 then .ok (.amoandW f.rd f.rs1 f.rs2 f.aq f.rl)
  else if f.funct5 = 0b01000#5 then .ok (.amoorW f.rd f.rs1 f.rs2 f.aq f.rl)
  else if f.funct5 = 0b10000#5 then .ok (.amominW f.rd f.rs1 f.rs2 f.aq f.rl)
  else if f.funct5 = 0b10100#5 then .ok (.amomaxW f.rd f.rs1 f.rs2 f.aq f.rl)
  else if f.funct5 = 0b11000#5 then .ok (.amominuW f.rd f.rs1 f.rs2 f.aq f.rl)
  else if f.funct5 = 0b11100#5 then .ok (.amomaxuW f.rd f.rs1 f.rs2 f.aq f.rl)
  else .error .unknownFunct5

/-- The same map for `funct3 = 011` (42_rv64a R120). -/
def decodeDoublewordForm (f : Fields) : Except DecodeRefusal Instr :=
  if f.funct5 = 0b00010#5 then
    if f.rs2 = 0b00000#5 then .ok (.lrD f.rd f.rs1 f.aq f.rl) else .error .lrWithNonzeroRs2
  else if f.funct5 = 0b00011#5 then .ok (.scD f.rd f.rs1 f.rs2 f.aq f.rl)
  else if f.funct5 = 0b00001#5 then .ok (.amoswapD f.rd f.rs1 f.rs2 f.aq f.rl)
  else if f.funct5 = 0b00000#5 then .ok (.amoaddD f.rd f.rs1 f.rs2 f.aq f.rl)
  else if f.funct5 = 0b00100#5 then .ok (.amoxorD f.rd f.rs1 f.rs2 f.aq f.rl)
  else if f.funct5 = 0b01100#5 then .ok (.amoandD f.rd f.rs1 f.rs2 f.aq f.rl)
  else if f.funct5 = 0b01000#5 then .ok (.amoorD f.rd f.rs1 f.rs2 f.aq f.rl)
  else if f.funct5 = 0b10000#5 then .ok (.amominD f.rd f.rs1 f.rs2 f.aq f.rl)
  else if f.funct5 = 0b10100#5 then .ok (.amomaxD f.rd f.rs1 f.rs2 f.aq f.rl)
  else if f.funct5 = 0b11000#5 then .ok (.amominuD f.rd f.rs1 f.rs2 f.aq f.rl)
  else if f.funct5 = 0b11100#5 then .ok (.amomaxuD f.rd f.rs1 f.rs2 f.aq f.rl)
  else .error .unknownFunct5

/-- Decode of a 32-bit word, in the order of 30_encoding R78. -/
def decode (c : Config) (w : InstrWord) : Except DecodeRefusal Instr :=
  if (fieldsOf w).opcode ≠ amoOpcode then .error .notAnAtomic
  else if (fieldsOf w).funct3 = Width.funct3 .word then decodeWordForm (fieldsOf w)
  else if (fieldsOf w).funct3 = Width.funct3 .doubleword then
    if c.admitsD then decodeDoublewordForm (fieldsOf w) else .error .doublewordFormNotAdmitted
  else .error .unknownWidth

/-- Four bytes form the instruction word with the byte at the lowest address as bits 7-0
(20_memory R40). -/
def wordOfBytes (b0 b1 b2 b3 : Byte) : InstrWord :=
  b3 ++ b2 ++ b1 ++ b0

/-- The four bytes of an instruction word, the one at the lowest address first (20_memory R40). -/
def bytesOfWord (w : InstrWord) : List Byte :=
  [w.extractLsb' 0 8, w.extractLsb' 8 8, w.extractLsb' 16 8, w.extractLsb' 24 8]

/-- Decode of a program given as bytes: the first instruction and the bytes after it. Every
instruction is four bytes (30_encoding R70, R79). -/
def decodeBytes (c : Config) : List Byte → Except DecodeRefusal (Instr × List Byte)
  | b0 :: b1 :: b2 :: b3 :: rest =>
    match decode c (wordOfBytes b0 b1 b2 b3) with
    | .ok i => .ok (i, rest)
    | .error r => .error r
  | _ => .error .fewerThanFourBytes

/-- The fields of an instruction, each constructor's `funct5` from the table of 30_encoding R74. -/
def encodeFields : Instr → Fields
  | .lrW rd rs1 aq rl => ⟨0b00010#5, aq, rl, 0b00000#5, rs1, Width.funct3 .word, rd, amoOpcode⟩
  | .scW rd rs1 rs2 aq rl => ⟨0b00011#5, aq, rl, rs2, rs1, Width.funct3 .word, rd, amoOpcode⟩
  | .amoswapW rd rs1 rs2 aq rl => ⟨0b00001#5, aq, rl, rs2, rs1, Width.funct3 .word, rd, amoOpcode⟩
  | .amoaddW rd rs1 rs2 aq rl => ⟨0b00000#5, aq, rl, rs2, rs1, Width.funct3 .word, rd, amoOpcode⟩
  | .amoxorW rd rs1 rs2 aq rl => ⟨0b00100#5, aq, rl, rs2, rs1, Width.funct3 .word, rd, amoOpcode⟩
  | .amoandW rd rs1 rs2 aq rl => ⟨0b01100#5, aq, rl, rs2, rs1, Width.funct3 .word, rd, amoOpcode⟩
  | .amoorW rd rs1 rs2 aq rl => ⟨0b01000#5, aq, rl, rs2, rs1, Width.funct3 .word, rd, amoOpcode⟩
  | .amominW rd rs1 rs2 aq rl => ⟨0b10000#5, aq, rl, rs2, rs1, Width.funct3 .word, rd, amoOpcode⟩
  | .amomaxW rd rs1 rs2 aq rl => ⟨0b10100#5, aq, rl, rs2, rs1, Width.funct3 .word, rd, amoOpcode⟩
  | .amominuW rd rs1 rs2 aq rl => ⟨0b11000#5, aq, rl, rs2, rs1, Width.funct3 .word, rd, amoOpcode⟩
  | .amomaxuW rd rs1 rs2 aq rl => ⟨0b11100#5, aq, rl, rs2, rs1, Width.funct3 .word, rd, amoOpcode⟩
  | .lrD rd rs1 aq rl =>
    ⟨0b00010#5, aq, rl, 0b00000#5, rs1, Width.funct3 .doubleword, rd, amoOpcode⟩
  | .scD rd rs1 rs2 aq rl => ⟨0b00011#5, aq, rl, rs2, rs1, Width.funct3 .doubleword, rd, amoOpcode⟩
  | .amoswapD rd rs1 rs2 aq rl =>
    ⟨0b00001#5, aq, rl, rs2, rs1, Width.funct3 .doubleword, rd, amoOpcode⟩
  | .amoaddD rd rs1 rs2 aq rl =>
    ⟨0b00000#5, aq, rl, rs2, rs1, Width.funct3 .doubleword, rd, amoOpcode⟩
  | .amoxorD rd rs1 rs2 aq rl =>
    ⟨0b00100#5, aq, rl, rs2, rs1, Width.funct3 .doubleword, rd, amoOpcode⟩
  | .amoandD rd rs1 rs2 aq rl =>
    ⟨0b01100#5, aq, rl, rs2, rs1, Width.funct3 .doubleword, rd, amoOpcode⟩
  | .amoorD rd rs1 rs2 aq rl =>
    ⟨0b01000#5, aq, rl, rs2, rs1, Width.funct3 .doubleword, rd, amoOpcode⟩
  | .amominD rd rs1 rs2 aq rl =>
    ⟨0b10000#5, aq, rl, rs2, rs1, Width.funct3 .doubleword, rd, amoOpcode⟩
  | .amomaxD rd rs1 rs2 aq rl =>
    ⟨0b10100#5, aq, rl, rs2, rs1, Width.funct3 .doubleword, rd, amoOpcode⟩
  | .amominuD rd rs1 rs2 aq rl =>
    ⟨0b11000#5, aq, rl, rs2, rs1, Width.funct3 .doubleword, rd, amoOpcode⟩
  | .amomaxuD rd rs1 rs2 aq rl =>
    ⟨0b11100#5, aq, rl, rs2, rs1, Width.funct3 .doubleword, rd, amoOpcode⟩

/-- The word of an instruction (30_encoding R71). -/
def encode (i : Instr) : InstrWord :=
  assemble (encodeFields i)

/-- The mask of an instruction: the bits its encoding fixes (30_encoding R83, 42_rv64a R120). -/
def Instr.maskBits : Instr → InstrWord
  | .lrW .. | .lrD .. => 0xF9F0707F#32
  | .scW .. | .amoswapW .. | .amoaddW .. | .amoxorW .. | .amoandW .. | .amoorW ..
  | .amominW .. | .amomaxW .. | .amominuW .. | .amomaxuW ..
  | .scD .. | .amoswapD .. | .amoaddD .. | .amoxorD .. | .amoandD .. | .amoorD ..
  | .amominD .. | .amomaxD .. | .amominuD .. | .amomaxuD .. => 0xF800707F#32

/-- The match value of an instruction, as the tables of 30_encoding R74 and 42_rv64a R120 give it in
hexadecimal. -/
def Instr.matchBits : Instr → InstrWord
  | .lrW .. => 0x1000202F#32
  | .scW .. => 0x1800202F#32
  | .amoswapW .. => 0x0800202F#32
  | .amoaddW .. => 0x0000202F#32
  | .amoxorW .. => 0x2000202F#32
  | .amoandW .. => 0x6000202F#32
  | .amoorW .. => 0x4000202F#32
  | .amominW .. => 0x8000202F#32
  | .amomaxW .. => 0xA000202F#32
  | .amominuW .. => 0xC000202F#32
  | .amomaxuW .. => 0xE000202F#32
  | .lrD .. => 0x1000302F#32
  | .scD .. => 0x1800302F#32
  | .amoswapD .. => 0x0800302F#32
  | .amoaddD .. => 0x0000302F#32
  | .amoxorD .. => 0x2000302F#32
  | .amoandD .. => 0x6000302F#32
  | .amoorD .. => 0x4000302F#32
  | .amominD .. => 0x8000302F#32
  | .amomaxD .. => 0xA000302F#32
  | .amominuD .. => 0xC000302F#32
  | .amomaxuD .. => 0xE000302F#32

/-- A configuration that admits every row of the opcode table: `XLEN = 64` and `ADMIT_D_FORMS`. The
decoder reads nothing else of it. -/
def tableConfig : Config where
  xlen := .rv64
  admitD := true
  regions := []
  misalignedCause := .addressMisaligned
  granuleLog2 := 3
  scFailCodes := .everyNonzero
  memoryModel := .scInterleaving
  resetPc := 0
  program := []
  endPc := []

/-- The 32-bit word of a table row: its low `nbits` bits, every bit above them 0. -/
def tableWord (nbits w : Nat) : InstrWord :=
  BitVec.ofNat 32 (w % 2 ^ nbits)

/-- The instruction the decoder reads from the bits `w` of a table row, laid out as bytes
(20_memory R40) and decoded with the doubleword forms admitted. -/
def decodeTableWord (nbits w : Nat) : Option Instr :=
  match decodeBytes tableConfig (bytesOfWord (tableWord nbits w)) with
  | .ok (i, _) => some i
  | .error _ => none

end Sys2Proof
end

