-- ==== Sys2Proof/Machine/State.lean ====
section
/-!
DEFINITION. The state of the machine as plain data, the ways a step can stop, and the state after
reset (10_state, 60_exceptions section 1, 70_reset section 1).
-/

namespace Sys2Proof.Machine

/-- The exception names of 60_exceptions R141. -/
inductive Cause where
  /-- Code 2. Never raised by this spec: the word is refused instead (30_encoding R78). -/
  | illegalInstruction
  /-- Code 4. -/
  | loadAddressMisaligned
  /-- Code 5. -/
  | loadAccessFault
  /-- Code 6. -/
  | storeAMOAddressMisaligned
  /-- Code 7. -/
  | storeAMOAccessFault
  /-- Code 13. Never raised: there is no translation (20_memory R63). -/
  | loadPageFault
  /-- Code 15. Never raised: there is no translation (20_memory R63). -/
  | storeAMOPageFault
  deriving DecidableEq, Repr

/-- The fault outcome `fault(cause, tval, epc)` as it is recorded (60_exceptions R140). -/
structure FaultRecord where
  cause : Cause
  tval : Word
  epc : Word
  deriving DecidableEq, Repr

/-- Why an instruction, or the machine, stops with a fault. -/
inductive Fault where
  /-- The instruction raised an exception (60_exceptions R140): raised by every meaning on a misaligned
  address (20_memory R43) or an address outside MEM (20_memory R44). SAFE: it is the spec's own outcome.
  `step` records it in the hart (`settle`), so that the other harts go on, and answers it itself only where
  no turn is enabled any more (`State.stopped`). -/
  | exception (f : FaultRecord)
  /-- The run is over (70_reset R179): raised by `step` alone, where no turn is enabled, no fault is recorded
  and nothing is refused. SAFE: a final state has no step. -/
  | runOver
  deriving DecidableEq, Repr

/-- Why the spec gives the step of a hart no meaning (00_scope R14). `step` marks a refusal in the hart and in the
state (`settle`), so that the other harts go on, and answers it itself only where no turn is enabled any more
(`State.stopped`). -/
inductive Refusal where
  /-- The instruction has no meaning in the model yet: raised by an arm of `exec`. SAFE. No arm does. -/
  | notModelled (mnemonic : String)
  /-- The decoder refuses the word (30_encoding R78): raised by `step`, and by the meaning of a `.d` form
  where the `.d` forms are not admitted (42_rv64a R120). SAFE. -/
  | undecodable (r : DecodeRefusal)
  /-- `pc_outside_program` (30_encoding R84): raised by `step` when PROGRAM has no word at the pc and the
  pc is not in END_PC. SAFE. -/
  | pcOutsideProgram
  deriving DecidableEq, Repr

/-- A valid reservation `valid(addr, size)` (10_state R31). -/
structure Reservation where
  addr : Word
  size : Width
  deriving DecidableEq, Repr

/-- The state of one hart (10_state R20): registers, pc, reservation, fault record, refusal mark. -/
structure Hart where
  /-- `x[0] .. x[31]` (10_state R21). -/
  regs : Vector Word 32
  /-- The address of the instruction the hart executes next (10_state R25). -/
  pc : Word
  /-- The reservation, `none` or `valid(addr, size)` (10_state R31). -/
  res : Option Reservation
  /-- The fault record, clear or recorded (60_exceptions R140). -/
  fault : Option FaultRecord
  /-- The refusal mark of the hart, clear or set (10_state R20, 60_exceptions R158). -/
  refusal : Option Refusal
  deriving DecidableEq, Repr

/-- One memory operation of an instruction: its address, size and value (20_memory R56). The value of a
4-byte operation stands in bits 31-0. -/
structure Access where
  addr : Word
  size : Width
  value : BitVec 64
  deriving DecidableEq, Repr

/-- What kind of instruction an event is (20_memory R56). -/
inductive EventKind where
  | loadReserved
  | storeConditional
  | amo
  deriving DecidableEq, Repr

/-- One completed instruction in the event history, with the memory operations it gave rise to
(20_memory R56). Its place in its hart's program order is its place among that hart's events. The
register fields carry the syntactic dependencies of 20_memory R57. -/
structure Event where
  hart : Nat
  kind : EventKind
  rd : Reg
  rs1 : Reg
  rs2 : Option Reg
  aq : Bool
  rl : Bool
  load : Option Access
  store : Option Access
  deriving DecidableEq, Repr

/-- One turn of the schedule: an instruction of a hart, or the environment's step that ends a hart's
reservation (00_scope R16, 20_memory R50, R54). -/
inductive Turn where
  | execute (hart : Nat)
  | loseReservation (hart : Nat)
  deriving DecidableEq, Repr

/-- Memory: address and byte pairs, addresses strictly rising, no byte equal to what an unlisted
address reads as (`Memory.wf`). -/
abbrev Memory := List Host.Cell

/-- The state of the machine (10_state R20), with the configuration and the inputs of the step relation
(10_state R32, log 1). The harts `0 .. NHARTS-1` are `lower ++ hart :: upper`, in the order of their
identifiers; `hart` is the one whose instruction `exec` executes (log 1). -/
structure State where
  /-- The parameters; no step changes them. -/
  cfg : Config
  /-- The harts with a smaller identifier than `hart`. -/
  lower : List Hart
  /-- The hart whose step it is. -/
  hart : Hart
  /-- The harts with a larger identifier than `hart`. -/
  upper : List Hart
  /-- The shared memory (10_state R30); under `RVWMO` the bytes before any store of the history (log 9). -/
  mem : Memory
  /-- The event history, newest first (20_memory R56, log 9). -/
  history : List Event
  /-- The refusal mark kept for the whole state: the first refusal of any hart (60_exceptions R140, log 7). -/
  refusal : Option Refusal
  /-- The turns to come (00_scope R16, log 4). -/
  schedule : List Turn
  /-- The model's own: how many free values have been named (log 6). -/
  draws : Nat
  deriving DecidableEq, Repr

/-- A hart right after reset (10_state R34) with register values `x`: `x[0]` is 0, the others are the
`XLEN`-bit values given, the pc is RESET_PC, the reservation `none`, no fault recorded, no refusal marked. -/
def Hart.reset (c : Config) (x : List Word) : Hart where
  regs := ⟨⟨(List.range 32).map fun i => if i = 0 then 0 else c.xlen.wrap (x.getD i 0)⟩, by simp⟩
  pc := c.resetPc
  res := none
  fault := none
  refusal := none

/-- The state right after reset (10_state R34, 70_reset R170) of a machine with the parameters `c`, one
hart for each list of register values and the memory `m`. A claim about reset quantifies over `x`,
`xs` and `m`, which the spec leaves unspecified (10_state R35). -/
def State.launch (c : Config) (x : List Word) (xs : List (List Word)) (m : Memory) : State where
  cfg := c
  lower := []
  hart := Hart.reset c x
  upper := xs.map (Hart.reset c)
  mem := m
  history := []
  refusal := none
  schedule := []
  draws := 0

/-- The parameters of `State.reset` (DESIGN CHOICE, unsafe where a proof rests on them: log 3). -/
def Config.reset : Config where
  xlen := .rv64
  admitD := true
  regions := [⟨0, 0x80000000⟩]
  misalignedCause := .addressMisaligned
  granuleLog2 := 3
  scFailCodes := .everyNonzero
  memoryModel := .scInterleaving
  resetPc := 0x80000000
  program := []
  endPc := []

/-- The register values of `State.reset`, where the spec gives none (DESIGN CHOICE, unsafe: log 2):
`x[i] = 0x4000 + 8 * i`, nonzero as 10_state R35 asks. -/
def resetRegisters : List Word :=
  (List.range 32).map fun i => BitVec.ofNat 64 (0x4000 + 8 * i)

/-- The machine right after reset: one hart, nothing listed in memory. -/
def State.reset : State :=
  State.launch Config.reset resetRegisters [] []

end Sys2Proof.Machine
end

