-- ==== Sys2Proof/Machine/Ops.lean ====
section
/-!
DEFINITION. The named operations over memory, registers, reservations, the history and the schedule, and
taking an exception.
-/

namespace Sys2Proof.Machine

/-- What a meaning and a step answer. -/
abbrev Result := Host.Outcome State Fault Refusal

/-! ### Memory bytes -/

/-- What an unlisted address reads as (DESIGN CHOICE, unsafe where a proof rests on it: log 5). -/
def unlistedByte : Byte := 0

/-- The byte at an address. -/
def memByte : Memory → Nat → Byte
  | [], _ => unlistedByte
  | (b, v) :: rest, a => if a = b then v else memByte rest a

/-- Memory with one byte written, in canonical form again. -/
def memSetByte : Memory → Nat → Byte → Memory
  | [], a, v => if v = unlistedByte then [] else [(a, v)]
  | (b, w) :: rest, a, v =>
    if a < b then (if v = unlistedByte then (b, w) :: rest else (a, v) :: (b, w) :: rest)
    else if a = b then (if v = unlistedByte then rest else (a, v) :: rest)
    else (b, w) :: memSetByte rest a v

/-- The canonical form: addresses strictly rising, no byte equal to what an unlisted address reads as. -/
def Memory.wf : Memory → Bool
  | [] => true
  | (a, v) :: rest => (v != unlistedByte) && rest.all (fun p => decide (a < p.1)) && Memory.wf rest

/-- The unsigned value of the `n` bytes at `a`, the least significant byte at the lowest address
(20_memory R40, R41). -/
def memReadNat (m : Memory) (a : Nat) : Nat → Nat
  | 0 => 0
  | n + 1 => (memByte m a).toNat + 256 * memReadNat m (a + 1) n

/-- Memory with the `n` low bytes of `v` written at `a` (20_memory R41). -/
def memWriteNat (m : Memory) (a : Nat) : Nat → Nat → Memory
  | 0, _ => m
  | n + 1, v => memWriteNat (memSetByte m a (BitVec.ofNat 8 v)) (a + 1) n (v / 256)

/-- `MemRead(addr, n)` (20_memory R41). -/
def memRead (m : Memory) (a : Nat) (w : Width) : BitVec w.bits :=
  BitVec.ofNat w.bits (memReadNat m a w.bytes)

/-- `MemWrite(addr, n, v)` (20_memory R41). -/
def memWrite (m : Memory) (a : Nat) (w : Width) (v : BitVec w.bits) : Memory :=
  memWriteNat m a w.bytes v.toNat

/-! ### Registers and the pc of the hart whose step it is -/

/-- `x[i]` (00_scope R9): register 0 reads 0 (10_state R22), the others yield an `XLEN`-bit value. -/
def Hart.readX (x : Xlen) (h : Hart) (r : Reg) : Word :=
  if r = 0 then 0 else x.wrap (h.regs[r.toNat]'(r.isLt))

/-- `x[i] <- v` (00_scope R9): a write to register 0 is discarded (10_state R22). -/
def Hart.writeX (x : Xlen) (h : Hart) (r : Reg) (v : Word) : Hart :=
  if r = 0 then h else { h with regs := h.regs.set r.toNat (x.wrap v) r.isLt }

/-- `x[r]` of the hart whose step it is. -/
def State.readX (s : State) (r : Reg) : Word :=
  s.hart.readX s.cfg.xlen r

/-- `x[r] <- v` in the hart whose step it is. -/
def State.writeX (s : State) (r : Reg) (v : Word) : State :=
  { s with hart := s.hart.writeX s.cfg.xlen r v }

/-- The identifier of the hart whose step it is (10_state R33). -/
def State.hartId (s : State) : Nat := s.lower.length

/-- All harts, in the order of their identifiers (10_state R33). -/
def State.harts (s : State) : List Hart := s.lower ++ s.hart :: s.upper

/-- The hart with identifier `g`. -/
def State.hartAt (s : State) (g : Nat) : Option Hart := s.harts[g]?

/-- `pc + 4` modulo `2^XLEN` (10_state R26). -/
def nextPc (c : Config) (pc : Word) : Word := c.xlen.wrap (pc + 4)

/-- `pc <- pc + 4` (00_scope R12). -/
def State.advancePc (s : State) : State :=
  { s with hart := { s.hart with pc := nextPc s.cfg s.hart.pc } }

/-! ### Reservations -/

/-- The hart's own reservation set or cleared (20_memory R48, R52). -/
def State.setReservation (s : State) (r : Option Reservation) : State :=
  { s with hart := { s.hart with res := r } }

/-- Another hart's write of `n` bytes at `a` ends this hart's reservation when it touches the
reservation set (20_memory R49). -/
def Hart.afterForeignWrite (c : Config) (a n : Nat) (h : Hart) : Hart :=
  match h.res with
  | none => h
  | some r => if c.touches r.addr.toNat a n then { h with res := none } else h

/-- Mandatory invalidation: every other hart sees the write (20_memory R49). -/
def State.invalidateOthers (s : State) (a n : Nat) : State :=
  { s with lower := s.lower.map (Hart.afterForeignWrite s.cfg a n)
           upper := s.upper.map (Hart.afterForeignWrite s.cfg a n) }

/-- The environment's step: hart `g` loses its reservation (20_memory R50). -/
def State.loseReservation (s : State) (g : Nat) : State :=
  if g = s.hartId then s.setReservation none
  else if g < s.hartId then
    { s with lower := s.lower.modify g fun h => { h with res := none } }
  else { s with upper := s.upper.modify (g - s.hartId - 1) fun h => { h with res := none } }

/-! ### Reading and writing memory under the memory model -/

/-- The value a read returns: the bytes of memory under `SC_INTERLEAVING` (20_memory R54), any bytes under
`RVWMO` (20_memory R59: the oracle's answer, a free value). -/
def State.loadValue (s : State) (addr : Word) (w : Width) : BitVec w.bits :=
  match s.cfg.memoryModel with
  | .scInterleaving => memRead s.mem addr.toNat w
  | .rvwmo => (Config.freeOracle s.draws).setWidth w.bits

/-- A write. Under `SC_INTERLEAVING` it changes memory and ends the other harts' reservations within the
step (20_memory R41, R49, R54). Under `RVWMO` it is in the history alone, which the axioms judge afterwards
(20_memory R59; DEDUCED, log 9). -/
def State.storeValue (s : State) (addr : Word) (w : Width) (v : BitVec w.bits) : State :=
  match s.cfg.memoryModel with
  | .scInterleaving =>
    { s with mem := memWrite s.mem addr.toNat w v }.invalidateOthers addr.toNat w.bytes
  | .rvwmo => s

/-- An instruction completes: `pc <- pc + 4` (10_state R26), its event enters the history (20_memory R56),
and the draw counter moves past the free values it may have used (log 6). -/
def State.retire (s : State) (e : Event) : State :=
  { s.advancePc with history := e :: s.history, draws := s.draws + 1 }

/-! ### Exceptions -/

/-- The numeric code of a cause (60_exceptions R141). -/
def Cause.code : Cause → Nat
  | .illegalInstruction => 2
  | .loadAddressMisaligned => 4
  | .loadAccessFault => 5
  | .storeAMOAddressMisaligned => 6
  | .storeAMOAccessFault => 7
  | .loadPageFault => 13
  | .storeAMOPageFault => 15

/-- Taking an exception: `raise <Exception>(info)` ends the instruction with `fault(cause, tval, epc)`,
`epc` being the pc of the raising instruction, and no effect (00_scope R11, 60_exceptions R140, R145). -/
def raise (cause : Cause) (tval : Word) (s : State) : Result :=
  .fault (.exception ⟨cause, tval, s.hart.pc⟩)

/-- The fault is recorded in the hart that raised it, and nothing else changes (60_exceptions R140, R145). -/
def State.recordFault (s : State) (f : FaultRecord) : State :=
  { s with hart := { s.hart with fault := some f } }

/-- A refusal is marked in the hart that met it (10_state R20) and in the mark of the whole state, which keeps the
first one (60_exceptions R140, log 7); nothing else changes. -/
def State.markRefused (s : State) (r : Refusal) : State :=
  { s with hart := { s.hart with refusal := some r }, refusal := s.refusal.or (some r) }

/-- What the machine makes of the outcome of a hart's step (00_scope R14): a fault is recorded and a refusal marked,
and each ends that hart only (60_exceptions R140, R146, R158). No hart's step answers `runOver`. -/
def settle (s : State) : Result → Result
  | .next t => .next t
  | .fault (.exception f) => .next (s.recordFault f)
  | .fault .runOver => .fault .runOver
  | .refused r => .next (s.markRefused r)

/-! ### The schedule -/

/-- The same state with hart `g` as the one whose step it is; `none` if there is no hart `g`. -/
def State.focus (s : State) (g : Nat) : Option State :=
  match s.harts.drop g with
  | [] => none
  | h :: rest => some { s with lower := s.harts.take g, hart := h, upper := rest }

/-- A hart is final: its pc is in END_PC (70_reset R179). -/
def Hart.ended (c : Config) (h : Hart) : Bool :=
  c.endPc.contains h.pc

/-- A hart can step: it has neither faulted, been refused nor ended (60_exceptions R158, 70_reset R179). -/
def Hart.canStep (c : Config) (h : Hart) : Bool :=
  h.fault.isNone && h.refusal.isNone && !h.ended c

/-- A turn is enabled: the step of a hart that can step (60_exceptions R158), or the loss of a reservation that is
valid (20_memory R50). -/
def State.enabled (s : State) : Turn → Bool
  | .execute g => (s.hartAt g).any (Hart.canStep s.cfg)
  | .loseReservation g => (s.hartAt g).any fun h => h.res.isSome

/-- The turns that are enabled: what may come next (70_reset R178). -/
def State.enabledTurns (s : State) : List Turn :=
  ((List.range s.harts.length).map Turn.execute ++ (List.range s.harts.length).map Turn.loseReservation).filter
    s.enabled

/-- The turn that comes next and the state without it: the first enabled turn of the schedule, or, where the
schedule holds none, a draw among the enabled turns (20_memory R50, R54, 70_reset R178; log 4). There is none
where no turn is enabled. -/
def State.nextTurn (s : State) : Option (Turn × State) :=
  match s.schedule.dropWhile fun t => !s.enabled t with
  | t :: rest => some (t, { s with schedule := rest })
  | [] =>
    match s.enabledTurns with
    | [] => none
    | t :: rest =>
      some ((t :: rest).getD (Config.freeTurn s.draws % (rest.length + 1)) t,
        { s with schedule := [], draws := s.draws + 1 })

/-- What a step answers where no turn is enabled: a refusal that is marked, else a fault that is recorded (such a
state is not final), else that the run is over (70_reset R179; log 7). -/
def State.stopped (s : State) : Result :=
  match s.refusal.or (s.harts.findSome? Hart.refusal) with
  | some r => .refused r
  | none =>
    match s.harts.findSome? Hart.fault with
    | some f => .fault (.exception f)
    | none => .fault .runOver

/-! ### Fetch -/

/-- `PROGRAM[pc]`, if PROGRAM has a word there (30_encoding R84). -/
def programWord : List (Nat × InstrWord) → Nat → Option InstrWord
  | [], _ => none
  | (b, w) :: rest, a => if a = b then some w else programWord rest a

/-- Fetch and decode of the hart whose step it is (30_encoding R84, R78). -/
def State.fetch (s : State) : Except Refusal Instr :=
  match programWord s.cfg.program s.hart.pc.toNat with
  | none => .error .pcOutsideProgram
  | some w =>
    match decode s.cfg w with
    | .ok i => .ok i
    | .error r => .error (.undecodable r)

/-- PROGRAM with the word `w` at the address `a`. -/
def placeWord (p : List (Nat × InstrWord)) (a : Nat) (w : InstrWord) : List (Nat × InstrWord) :=
  (a, w) :: p.filter fun q => q.1 != a

end Sys2Proof.Machine
end

