-- ==== Sys2Proof/Machine/Operands.lean ====
section
/-!
DEFINITION. The operand forms (30_encoding R77): a register read as an address, a register read as data,
a register written; the checks of the address; and the operators of the AMOs (41_amo_w R101).
-/

namespace Sys2Proof.Machine

/-- The effective address: `x[rs1]`, unmodified (20_memory R45). -/
def State.address (s : State) (rs1 : Reg) : Word :=
  s.readX rs1

/-- The data operand: the low bits of `x[rs2]` (40_lr_sc R92, 41_amo_w R100), all 64 for a `.d` form
(42_rv64a R121). -/
def State.data (s : State) (w : Width) (rs2 : Reg) : BitVec w.bits :=
  (s.readX rs2).setWidth w.bits

/-- The two kinds of address exceptions (60_exceptions R143): the load kind for a load-reserved, the
store/AMO kind for a store-conditional and every AMO. -/
inductive AccessKind where
  | load
  | storeAMO
  deriving DecidableEq, Repr

/-- The exception of an access outside MEM (20_memory R44). -/
def AccessKind.accessFault : AccessKind → Cause
  | .load => .loadAccessFault
  | .storeAMO => .storeAMOAccessFault

/-- The exception of a misaligned access, as MISALIGNED_CAUSE selects it (20_memory R43). -/
def AccessKind.misaligned (k : AccessKind) (m : MisalignedCause) : Cause :=
  match m, k with
  | .addressMisaligned, .load => .loadAddressMisaligned
  | .addressMisaligned, .storeAMO => .storeAMOAddressMisaligned
  | .accessFault, _ => k.accessFault

/-- The address is a multiple of the access size (20_memory R43). -/
def aligned (addr : Word) (w : Width) : Bool :=
  addr.toNat % w.bytes == 0

/-- The checks of an access in their order (60_exceptions R146): alignment (20_memory R43), then admission
(20_memory R44). The answer is the exception raised, if any. -/
def checkAccess (c : Config) (k : AccessKind) (addr : Word) (w : Width) : Option Cause :=
  if !aligned addr w then some (k.misaligned c.misalignedCause)
  else if !c.admits addr.toNat w.bytes then some k.accessFault
  else none

/-- The AMO operators (41_amo_w R101, 42_rv64a R121). -/
inductive AmoOp where
  | swap
  | add
  | xor
  | and
  | or
  | min
  | max
  | minu
  | maxu
  deriving DecidableEq, Repr

/-- `op(t, src)`: the new memory value from the old one and the register operand (41_amo_w R101, table "AMO
operators"; 42_rv64a R121 for 64 bits). `signed` is `toInt` and `unsigned` is `toNat` (00_scope R8). -/
def AmoOp.apply {n : Nat} (op : AmoOp) (t src : BitVec n) : BitVec n :=
  match op with
  | .swap => src
  | .add => BitVec.ofNat n (t.toNat + src.toNat)
  | .xor => t ^^^ src
  | .and => t &&& src
  | .or => t ||| src
  | .min => if t.toInt ≤ src.toInt then t else src
  | .max => if t.toInt ≥ src.toInt then t else src
  | .minu => if t.toNat ≤ src.toNat then t else src
  | .maxu => if t.toNat ≥ src.toNat then t else src

/-- A `.d` form runs only where the `.d` forms are admitted; elsewhere its word is refused (42_rv64a R120,
30_encoding R78 step (3)). -/
def whenAdmitted (s : State) (body : State → Result) : Result :=
  if s.cfg.admitsD then body s else .refused (.undecodable .doublewordFormNotAdmitted)

end Sys2Proof.Machine
end

