-- ==== Sys2Proof/Machine/Flags.lean ====
section
/-!
DEFINITION. There are no flags (10_state R27). What stands in their place is the success code of a
store-conditional in `x[rd]` and the test that decides it (20_memory R52, 40_lr_sc R92).
-/

namespace Sys2Proof.Machine

/-- One raw draw made a nonzero `XLEN`-bit value: every nonzero value is some draw's, 0 is none's. -/
def nonzeroCode (x : Xlen) (v : Word) : Word :=
  if x.wrap v = 0 then 1 else x.wrap v

/-- The code a failed store-conditional writes: a draw from SC_FAIL_CODE (40_lr_sc R92, D14). -/
def State.failCode (s : State) : Word :=
  match s.cfg.scFailCodes with
  | .everyNonzero => nonzeroCode s.cfg.xlen (Config.freeFailCode s.draws)
  | .oneOf first rest =>
    (first :: rest).getD ((Config.freeFailCode s.draws).toNat % (rest.length + 1)) first

/-- The success code of a store-conditional: zero on success, a nonzero code on failure (40_lr_sc R92). -/
def State.scCode (s : State) (success : Bool) : Word :=
  if success then 0 else s.failCode

/-- Whether a store-conditional to `addr` of size `w` succeeds: the three cases of 20_memory R52. -/
def State.scSucceeds (s : State) (addr : Word) (w : Width) : Bool :=
  match s.hart.res with
  | none => false
  | some r =>
    if r.addr = addr ∧ r.size = w then true
    else if s.cfg.covers r.addr.toNat addr.toNat w.bytes then Config.freeScOutcome s.draws
    else false

end Sys2Proof.Machine
end

