-- ==== Sys2Proof/Machine/Amo.lean ====
section
/-!
DEFINITION. The atomic memory operations: the common procedure (41_amo_w R100, 42_rv64a R121) and one
meaning per instruction.
-/

namespace Sys2Proof.Machine

/-- The event of an AMO (20_memory R56): a load operation and a store operation that are paired. -/
def State.amoEvent (s : State) (w : Width) (rd rs1 rs2 : Reg) (aq rl : Bool)
    (old new : BitVec w.bits) : Event where
  hart := s.hartId
  kind := .amo
  rd := rd
  rs1 := rs1
  rs2 := some rs2
  aq := aq
  rl := rl
  load := some ⟨s.address rs1, w, old.setWidth 64⟩
  store := some ⟨s.address rs1, w, new.setWidth 64⟩

/-- The effect of an AMO whose checks have passed (41_amo_w R100): the new value to memory, the old value,
sign-extended, to `rd`. The hart's own reservation stays. -/
def amoEffect (op : AmoOp) (w : Width) (rd rs1 rs2 : Reg) (aq rl : Bool) (s : State) : State :=
  let addr := s.address rs1
  let t := s.loadValue addr w
  let new := op.apply t (s.data w rs2)
  ((s.storeValue addr w new).writeX rd (s.cfg.xlen.sext t)).retire
    (s.amoEvent w rd rs1 rs2 aq rl t new)

/-- `AMO32(op)` (41_amo_w R100) and `AMO64(op)` (42_rv64a R121). -/
def amo (op : AmoOp) (w : Width) (rd rs1 rs2 : Reg) (aq rl : Bool) (s : State) : Result :=
  match checkAccess s.cfg .storeAMO (s.address rs1) w with
  | some cause => raise cause (s.address rs1) s
  | none => .next (amoEffect op w rd rs1 rs2 aq rl s)

/-- `amoswap.w` (41_amo_w R102). -/
def execAmoswapW (rd rs1 rs2 : Reg) (aq rl : Bool) (s : State) : Result :=
  amo .swap .word rd rs1 rs2 aq rl s

/-- `amoadd.w` (41_amo_w R103). -/
def execAmoaddW (rd rs1 rs2 : Reg) (aq rl : Bool) (s : State) : Result :=
  amo .add .word rd rs1 rs2 aq rl s

/-- `amoxor.w` (41_amo_w R104). -/
def execAmoxorW (rd rs1 rs2 : Reg) (aq rl : Bool) (s : State) : Result :=
  amo .xor .word rd rs1 rs2 aq rl s

/-- `amoand.w` (41_amo_w R105). -/
def execAmoandW (rd rs1 rs2 : Reg) (aq rl : Bool) (s : State) : Result :=
  amo .and .word rd rs1 rs2 aq rl s

/-- `amoor.w` (41_amo_w R106). -/
def execAmoorW (rd rs1 rs2 : Reg) (aq rl : Bool) (s : State) : Result :=
  amo .or .word rd rs1 rs2 aq rl s

/-- `amomin.w` (41_amo_w R107). -/
def execAmominW (rd rs1 rs2 : Reg) (aq rl : Bool) (s : State) : Result :=
  amo .min .word rd rs1 rs2 aq rl s

/-- `amomax.w` (41_amo_w R108). -/
def execAmomaxW (rd rs1 rs2 : Reg) (aq rl : Bool) (s : State) : Result :=
  amo .max .word rd rs1 rs2 aq rl s

/-- `amominu.w` (41_amo_w R109). -/
def execAmominuW (rd rs1 rs2 : Reg) (aq rl : Bool) (s : State) : Result :=
  amo .minu .word rd rs1 rs2 aq rl s

/-- `amomaxu.w` (41_amo_w R110). -/
def execAmomaxuW (rd rs1 rs2 : Reg) (aq rl : Bool) (s : State) : Result :=
  amo .maxu .word rd rs1 rs2 aq rl s

/-- `amoswap.d` (42_rv64a R124). -/
def execAmoswapD (rd rs1 rs2 : Reg) (aq rl : Bool) (s : State) : Result :=
  whenAdmitted s (amo .swap .doubleword rd rs1 rs2 aq rl)

/-- `amoadd.d` (42_rv64a R125). -/
def execAmoaddD (rd rs1 rs2 : Reg) (aq rl : Bool) (s : State) : Result :=
  whenAdmitted s (amo .add .doubleword rd rs1 rs2 aq rl)

/-- `amoxor.d` (42_rv64a R126). -/
def execAmoxorD (rd rs1 rs2 : Reg) (aq rl : Bool) (s : State) : Result :=
  whenAdmitted s (amo .xor .doubleword rd rs1 rs2 aq rl)

/-- `amoand.d` (42_rv64a R127). -/
def execAmoandD (rd rs1 rs2 : Reg) (aq rl : Bool) (s : State) : Result :=
  whenAdmitted s (amo .and .doubleword rd rs1 rs2 aq rl)

/-- `amoor.d` (42_rv64a R128). -/
def execAmoorD (rd rs1 rs2 : Reg) (aq rl : Bool) (s : State) : Result :=
  whenAdmitted s (amo .or .doubleword rd rs1 rs2 aq rl)

/-- `amomin.d` (42_rv64a R129). -/
def execAmominD (rd rs1 rs2 : Reg) (aq rl : Bool) (s : State) : Result :=
  whenAdmitted s (amo .min .doubleword rd rs1 rs2 aq rl)

/-- `amomax.d` (42_rv64a R130). -/
def execAmomaxD (rd rs1 rs2 : Reg) (aq rl : Bool) (s : State) : Result :=
  whenAdmitted s (amo .max .doubleword rd rs1 rs2 aq rl)

/-- `amominu.d` (42_rv64a R131). -/
def execAmominuD (rd rs1 rs2 : Reg) (aq rl : Bool) (s : State) : Result :=
  whenAdmitted s (amo .minu .doubleword rd rs1 rs2 aq rl)

/-- `amomaxu.d` (42_rv64a R132). -/
def execAmomaxuD (rd rs1 rs2 : Reg) (aq rl : Bool) (s : State) : Result :=
  whenAdmitted s (amo .maxu .doubleword rd rs1 rs2 aq rl)

end Sys2Proof.Machine
end

