-- ==== Sys2Proof/Machine/LrSc.lean ====
section
/-!
DEFINITION. Load-reserved and store-conditional, words and doublewords (40_lr_sc, 42_rv64a R122, R123).
-/

namespace Sys2Proof.Machine

/-- The event of a load-reserved that returned `v` (20_memory R56: one load operation). -/
def State.loadReservedEvent (s : State) (w : Width) (rd rs1 : Reg) (aq rl : Bool) (addr : Word)
    (v : BitVec w.bits) : Event where
  hart := s.hartId
  kind := .loadReserved
  rd := rd
  rs1 := rs1
  rs2 := none
  aq := aq
  rl := rl
  load := some ⟨addr, w, v.setWidth 64⟩
  store := none

/-- The effect of a load-reserved whose checks have passed (40_lr_sc R90 steps (4) to (6), R91). -/
def loadReservedEffect (w : Width) (rd rs1 : Reg) (aq rl : Bool) (s : State) : State :=
  let addr := s.address rs1
  let v := s.loadValue addr w
  ((s.setReservation (some ⟨addr, w⟩)).writeX rd (s.cfg.xlen.sext v)).retire
    (s.loadReservedEvent w rd rs1 aq rl addr v)

/-- A load-reserved (40_lr_sc R90, R91; 42_rv64a R122). -/
def loadReserved (w : Width) (rd rs1 : Reg) (aq rl : Bool) (s : State) : Result :=
  match checkAccess s.cfg .load (s.address rs1) w with
  | some cause => raise cause (s.address rs1) s
  | none => .next (loadReservedEffect w rd rs1 aq rl s)

/-- The event of a store-conditional (20_memory R56): one store operation when it succeeds, none when it
fails. -/
def State.storeConditionalEvent (s : State) (w : Width) (rd rs1 rs2 : Reg) (aq rl : Bool)
    (success : Bool) : Event where
  hart := s.hartId
  kind := .storeConditional
  rd := rd
  rs1 := rs1
  rs2 := some rs2
  aq := aq
  rl := rl
  load := none
  store := if success then some ⟨s.address rs1, w, (s.data w rs2).setWidth 64⟩ else none

/-- The effect of a store-conditional whose checks have passed, by its outcome: the write when it succeeds,
the reservation cleared and the code written in either case (20_memory R52, 40_lr_sc R92). -/
def storeConditionalEffect (w : Width) (rd rs1 rs2 : Reg) (aq rl success : Bool) (s : State) : State :=
  let t := if success then s.storeValue (s.address rs1) w (s.data w rs2) else s
  ((t.setReservation none).writeX rd (s.scCode success)).retire
    (s.storeConditionalEvent w rd rs1 rs2 aq rl success)

/-- A store-conditional (40_lr_sc R90, R92; 42_rv64a R123): the checks come before the reservation
test (D16). -/
def storeConditional (w : Width) (rd rs1 rs2 : Reg) (aq rl : Bool) (s : State) : Result :=
  match checkAccess s.cfg .storeAMO (s.address rs1) w with
  | some cause => raise cause (s.address rs1) s
  | none =>
    .next (storeConditionalEffect w rd rs1 rs2 aq rl (s.scSucceeds (s.address rs1) w) s)

/-- `lr.w` (40_lr_sc R91). -/
def execLrW (rd rs1 : Reg) (aq rl : Bool) (s : State) : Result :=
  loadReserved .word rd rs1 aq rl s

/-- `sc.w` (40_lr_sc R92). -/
def execScW (rd rs1 rs2 : Reg) (aq rl : Bool) (s : State) : Result :=
  storeConditional .word rd rs1 rs2 aq rl s

/-- `lr.d` (42_rv64a R122). -/
def execLrD (rd rs1 : Reg) (aq rl : Bool) (s : State) : Result :=
  whenAdmitted s (loadReserved .doubleword rd rs1 aq rl)

/-- `sc.d` (42_rv64a R123). -/
def execScD (rd rs1 rs2 : Reg) (aq rl : Bool) (s : State) : Result :=
  whenAdmitted s (storeConditional .doubleword rd rs1 rs2 aq rl)

end Sys2Proof.Machine
end

