-- ==== Sys2Proof/Machine/Turn.lean ====
section
/-!
DEFINITION. One turn of the machine (00_scope R14, R16): the step of a hart with its three outcomes, and what the
machine makes of them.
-/

namespace Sys2Proof.Machine

/-- The step of the hart whose step it is, with its three outcomes (00_scope R14): fetch, decode, execute
(30_encoding R84). -/
def hartStep (s : State) : Result :=
  match s.fetch with
  | .error r => .refused r
  | .ok i => exec i s

/-- One enabled turn taken: the environment ends a reservation (20_memory R50), or a hart steps (20_memory R54). -/
def takeTurn (t : Turn) (s : State) : Result :=
  match t with
  | .loseReservation g => .next (s.loseReservation g)
  | .execute g =>
    match s.focus g with
    | none => s.stopped
    | some u => settle u (hartStep u)

end Sys2Proof.Machine
end

