-- ==== Sys2Proof/Machine/Step.lean ====
section
/-!
DEFINITION. One step of the machine (00_scope R16; 20_memory R54): the turn that comes next, and the placing of an
instruction where the step fetches.
-/

namespace Sys2Proof.Machine

/-- One step of the machine: the turn that comes next, or why none is enabled any more. -/
def step (s : State) : Host.Outcome State Fault Refusal :=
  match s.nextTurn with
  | none => s.stopped
  | some (t, u) => takeTurn t u

/-- `s` with the instruction word of a table row placed at the pc of the hart whose step it is and with that
hart's turn next, so that `step` fetches and runs it (log 8). -/
def State.withFetchWord (s : State) (nbits w : Nat) : State :=
  { s with
    cfg := { s.cfg with
      program := placeWord s.cfg.program s.hart.pc.toNat (tableWord nbits w)
      endPc := s.cfg.endPc.filter fun a => a != s.hart.pc }
    hart := { s.hart with fault := none, refusal := none }
    schedule := .execute s.hartId :: s.schedule }

end Sys2Proof.Machine
end

