-- ==== Sys2Proof/Machine/Fields.lean ====
section
/-!
DEFINITION. The operand fields of an instruction and what kind of instruction it is, in the terms statements
over all instructions use.
-/

namespace Sys2Proof

/-- The register fields of an instruction: `rd`, `rs1`, and `rs2` where it has one (30_encoding R71). -/
def Instr.registers : Instr → Reg × Reg × Option Reg
  | .lrW rd rs1 _ _ => (rd, rs1, none)
  | .lrD rd rs1 _ _ => (rd, rs1, none)
  | .scW rd rs1 rs2 _ _ => (rd, rs1, some rs2)
  | .amoswapW rd rs1 rs2 _ _ => (rd, rs1, some rs2)
  | .amoaddW rd rs1 rs2 _ _ => (rd, rs1, some rs2)
  | .amoxorW rd rs1 rs2 _ _ => (rd, rs1, some rs2)
  | .amoandW rd rs1 rs2 _ _ => (rd, rs1, some rs2)
  | .amoorW rd rs1 rs2 _ _ => (rd, rs1, some rs2)
  | .amominW rd rs1 rs2 _ _ => (rd, rs1, some rs2)
  | .amomaxW rd rs1 rs2 _ _ => (rd, rs1, some rs2)
  | .amominuW rd rs1 rs2 _ _ => (rd, rs1, some rs2)
  | .amomaxuW rd rs1 rs2 _ _ => (rd, rs1, some rs2)
  | .scD rd rs1 rs2 _ _ => (rd, rs1, some rs2)
  | .amoswapD rd rs1 rs2 _ _ => (rd, rs1, some rs2)
  | .amoaddD rd rs1 rs2 _ _ => (rd, rs1, some rs2)
  | .amoxorD rd rs1 rs2 _ _ => (rd, rs1, some rs2)
  | .amoandD rd rs1 rs2 _ _ => (rd, rs1, some rs2)
  | .amoorD rd rs1 rs2 _ _ => (rd, rs1, some rs2)
  | .amominD rd rs1 rs2 _ _ => (rd, rs1, some rs2)
  | .amomaxD rd rs1 rs2 _ _ => (rd, rs1, some rs2)
  | .amominuD rd rs1 rs2 _ _ => (rd, rs1, some rs2)
  | .amomaxuD rd rs1 rs2 _ _ => (rd, rs1, some rs2)

/-- The ordering bits `aq` and `rl` of an instruction (30_encoding R75). -/
def Instr.ordering : Instr → Bool × Bool
  | .lrW _ _ aq rl => (aq, rl)
  | .lrD _ _ aq rl => (aq, rl)
  | .scW _ _ _ aq rl => (aq, rl)
  | .amoswapW _ _ _ aq rl => (aq, rl)
  | .amoaddW _ _ _ aq rl => (aq, rl)
  | .amoxorW _ _ _ aq rl => (aq, rl)
  | .amoandW _ _ _ aq rl => (aq, rl)
  | .amoorW _ _ _ aq rl => (aq, rl)
  | .amominW _ _ _ aq rl => (aq, rl)
  | .amomaxW _ _ _ aq rl => (aq, rl)
  | .amominuW _ _ _ aq rl => (aq, rl)
  | .amomaxuW _ _ _ aq rl => (aq, rl)
  | .scD _ _ _ aq rl => (aq, rl)
  | .amoswapD _ _ _ aq rl => (aq, rl)
  | .amoaddD _ _ _ aq rl => (aq, rl)
  | .amoxorD _ _ _ aq rl => (aq, rl)
  | .amoandD _ _ _ aq rl => (aq, rl)
  | .amoorD _ _ _ aq rl => (aq, rl)
  | .amominD _ _ _ aq rl => (aq, rl)
  | .amomaxD _ _ _ aq rl => (aq, rl)
  | .amominuD _ _ _ aq rl => (aq, rl)
  | .amomaxuD _ _ _ aq rl => (aq, rl)

/-- The destination register (10_state R24). -/
def Instr.rd (i : Instr) : Reg := i.registers.1

/-- The address register (10_state R24). -/
def Instr.rs1 (i : Instr) : Reg := i.registers.2.1

/-- The data register, where the instruction has one (10_state R24). -/
def Instr.rs2 (i : Instr) : Option Reg := i.registers.2.2

/-- The instruction is a load-reserved. -/
def Instr.isLoadReserved : Instr → Bool
  | .lrW .. | .lrD .. => true
  | .scW .. | .scD ..
  | .amoswapW .. | .amoaddW .. | .amoxorW .. | .amoandW .. | .amoorW .. | .amominW ..
  | .amomaxW .. | .amominuW .. | .amomaxuW .. | .amoswapD .. | .amoaddD .. | .amoxorD ..
  | .amoandD .. | .amoorD .. | .amominD .. | .amomaxD .. | .amominuD .. | .amomaxuD .. => false

/-- The instruction is a store-conditional. -/
def Instr.isStoreConditional : Instr → Bool
  | .scW .. | .scD .. => true
  | .lrW .. | .lrD ..
  | .amoswapW .. | .amoaddW .. | .amoxorW .. | .amoandW .. | .amoorW .. | .amominW ..
  | .amomaxW .. | .amominuW .. | .amomaxuW .. | .amoswapD .. | .amoaddD .. | .amoxorD ..
  | .amoandD .. | .amoorD .. | .amominD .. | .amomaxD .. | .amominuD .. | .amomaxuD .. => false

/-- The same instruction with other ordering bits (30_encoding R75). -/
def Instr.withOrdering : Instr → Bool → Bool → Instr
  | .lrW rd rs1 _ _, aq, rl => .lrW rd rs1 aq rl
  | .scW rd rs1 rs2 _ _, aq, rl => .scW rd rs1 rs2 aq rl
  | .amoswapW rd rs1 rs2 _ _, aq, rl => .amoswapW rd rs1 rs2 aq rl
  | .amoaddW rd rs1 rs2 _ _, aq, rl => .amoaddW rd rs1 rs2 aq rl
  | .amoxorW rd rs1 rs2 _ _, aq, rl => .amoxorW rd rs1 rs2 aq rl
  | .amoandW rd rs1 rs2 _ _, aq, rl => .amoandW rd rs1 rs2 aq rl
  | .amoorW rd rs1 rs2 _ _, aq, rl => .amoorW rd rs1 rs2 aq rl
  | .amominW rd rs1 rs2 _ _, aq, rl => .amominW rd rs1 rs2 aq rl
  | .amomaxW rd rs1 rs2 _ _, aq, rl => .amomaxW rd rs1 rs2 aq rl
  | .amominuW rd rs1 rs2 _ _, aq, rl => .amominuW rd rs1 rs2 aq rl
  | .amomaxuW rd rs1 rs2 _ _, aq, rl => .amomaxuW rd rs1 rs2 aq rl
  | .lrD rd rs1 _ _, aq, rl => .lrD rd rs1 aq rl
  | .scD rd rs1 rs2 _ _, aq, rl => .scD rd rs1 rs2 aq rl
  | .amoswapD rd rs1 rs2 _ _, aq, rl => .amoswapD rd rs1 rs2 aq rl
  | .amoaddD rd rs1 rs2 _ _, aq, rl => .amoaddD rd rs1 rs2 aq rl
  | .amoxorD rd rs1 rs2 _ _, aq, rl => .amoxorD rd rs1 rs2 aq rl
  | .amoandD rd rs1 rs2 _ _, aq, rl => .amoandD rd rs1 rs2 aq rl
  | .amoorD rd rs1 rs2 _ _, aq, rl => .amoorD rd rs1 rs2 aq rl
  | .amominD rd rs1 rs2 _ _, aq, rl => .amominD rd rs1 rs2 aq rl
  | .amomaxD rd rs1 rs2 _ _, aq, rl => .amomaxD rd rs1 rs2 aq rl
  | .amominuD rd rs1 rs2 _ _, aq, rl => .amominuD rd rs1 rs2 aq rl
  | .amomaxuD rd rs1 rs2 _ _, aq, rl => .amomaxuD rd rs1 rs2 aq rl

end Sys2Proof
end

