-- ==== Sys2Proof/Machine/Assembler.lean ====
section
/-!
DEFINITION. The assembler text of an instruction (30_encoding R80, R81) and the register names (10_state
R23). Text carries no machine meaning: the model works from words (D35).
-/

namespace Sys2Proof

/-- The calling-convention names, in register order (10_state R23; `x8` is also `fp`). -/
def abiNames : List String :=
  ["zero", "ra", "sp", "gp", "tp", "t0", "t1", "t2", "s0", "s1", "a0", "a1", "a2", "a3", "a4", "a5"]
    ++ ["a6", "a7", "s2", "s3", "s4", "s5", "s6", "s7", "s8", "s9", "s10", "s11", "t3", "t4", "t5", "t6"]

/-- The calling-convention name of a register (10_state R23). -/
def abiName (r : Reg) : String :=
  abiNames.getD r.toNat ""

/-- The decimal digits of a number below 100. -/
def decimal (n : Nat) : String :=
  let digit (d : Nat) := ["0", "1", "2", "3", "4", "5", "6", "7", "8", "9"].getD d ""
  if n < 10 then digit n else digit (n / 10) ++ digit (n % 10)

/-- The architectural name of a register, `x0` to `x31` (10_state R23). -/
def archName (r : Reg) : String :=
  "x" ++ decimal r.toNat

/-- The mnemonic, without ordering suffix (30_encoding R80). -/
def Instr.mnemonic : Instr → String
  | .lrW .. => "lr.w"
  | .scW .. => "sc.w"
  | .amoswapW .. => "amoswap.w"
  | .amoaddW .. => "amoadd.w"
  | .amoxorW .. => "amoxor.w"
  | .amoandW .. => "amoand.w"
  | .amoorW .. => "amoor.w"
  | .amominW .. => "amomin.w"
  | .amomaxW .. => "amomax.w"
  | .amominuW .. => "amominu.w"
  | .amomaxuW .. => "amomaxu.w"
  | .lrD .. => "lr.d"
  | .scD .. => "sc.d"
  | .amoswapD .. => "amoswap.d"
  | .amoaddD .. => "amoadd.d"
  | .amoxorD .. => "amoxor.d"
  | .amoandD .. => "amoand.d"
  | .amoorD .. => "amoor.d"
  | .amominD .. => "amomin.d"
  | .amomaxD .. => "amomax.d"
  | .amominuD .. => "amominu.d"
  | .amomaxuD .. => "amomaxu.d"

/-- The text in the source's Format convention (30_encoding R80): `lr.w rd,rs1`, `sc.w rd,rs1,rs2`,
`amoadd.w rd,rs2,(rs1)`. The source shows no syntax for `aq` and `rl`. -/
def Instr.sourceText (i : Instr) : String :=
  match i.registers with
  | (rd, rs1, none) => i.mnemonic ++ " " ++ archName rd ++ "," ++ archName rs1
  | (rd, rs1, some rs2) =>
    if i.isStoreConditional then
      i.mnemonic ++ " " ++ archName rd ++ "," ++ archName rs1 ++ "," ++ archName rs2
    else i.mnemonic ++ " " ++ archName rd ++ "," ++ archName rs2 ++ ",(" ++ archName rs1 ++ ")"

/-- The suffix of the toolchain for the ordering bits (30_encoding R81). -/
def orderingSuffix : Bool × Bool → String
  | (false, false) => ""
  | (true, false) => ".aq"
  | (false, true) => ".rl"
  | (true, true) => ".aqrl"

/-- The text in the toolchain's convention (30_encoding R81): `lr.w rd, (rs1)`, `sc.w rd, rs2, (rs1)`,
`amoadd.w rd, rs2, (rs1)`, with the ordering suffix and the calling-convention names. -/
def Instr.toolchainText (i : Instr) : String :=
  let head := i.mnemonic ++ orderingSuffix i.ordering ++ " "
  match i.registers with
  | (rd, rs1, none) => head ++ abiName rd ++ ", (" ++ abiName rs1 ++ ")"
  | (rd, rs1, some rs2) => head ++ abiName rd ++ ", " ++ abiName rs2 ++ ", (" ++ abiName rs1 ++ ")"

end Sys2Proof
end

