-- ==== Sys2Proof/Machine/Progress.lean ====
section
/-!
DEFINITION. Runs of the machine and the named assumptions a claim may take on them: weak fairness (70_reset R178) and
the forward progress of a constrained LR/SC loop (20_memory R53).
-/

namespace Sys2Proof.Machine

/-! ### Runs -/

/-- An infinite run: every state is the step of the one before. Every turn of it is enabled (`State.nextTurn`). -/
def IsRun (run : Nat → State) : Prop :=
  ∀ n, step (run n) = .next (run (n + 1))

/-- Hart `g` steps at time `n`. -/
def stepsAt (run : Nat → State) (g n : Nat) : Prop :=
  (run n).nextTurn.map Prod.fst = some (.execute g)

/-- Weak fairness of the scheduler: a hart that can step is eventually stepped (70_reset R178). -/
def WeaklyFair (run : Nat → State) : Prop :=
  ∀ g n, (∀ m ≥ n, (run m).enabled (.execute g) = true) → ∃ m ≥ n, stepsAt run g m

/-- The pc of hart `g` at time `n`. -/
def pcAt (run : Nat → State) (g n : Nat) : Option Nat :=
  ((run n).hartAt g).map fun h => h.pc.toNat

/-- The event a step added to the history, if it added one. -/
def newEvent (s t : State) : Option Event :=
  if t.history.length = s.history.length + 1 then t.history.head? else none

/-- The event's store touches the reservation set of `a` (20_memory R49, R51). -/
def Event.storesInto (c : Config) (a : Word) (e : Event) : Bool :=
  match e.store with
  | none => false
  | some st => c.touches a.toNat st.addr.toNat st.size.bytes

/-! ### Constrained LR/SC loops -/

/-- Words stand in PROGRAM one after the other from `base` on, at multiples of 4 (70_reset R171, 20_memory R53). -/
def WordsPlaced (c : Config) (base : Nat) (words : List InstrWord) : Prop :=
  base % 4 = 0 ∧ ∀ k w, words[k]? = some w → programWord c.program (base + 4 * k) = some w

/-- What a claim that takes `LRSC_EVENTUAL_SUCCESS` brings with it, because base instructions and memory attributes
are out of scope (00_scope section 3.2; log 16). -/
structure ProgressTerms where
  /-- The word is a base-integer instruction that is no load, store, `jalr`, `fence` or system instruction. -/
  plain : InstrWord → Bool
  /-- The word is an unconditional jump backward. -/
  backwardJump : InstrWord → Bool
  /-- The byte address is in a region with the eventual-success property. -/
  eventual : Nat → Bool

/-- An LR/SC loop in PROGRAM: the load-reserved at `base`, what stands between, the store-conditional, and the code
that retries (20_memory R53). -/
structure LrscLoop where
  base : Nat
  load : InstrWord
  between : List InstrWord
  conditional : InstrWord
  retry : List InstrWord
  deriving DecidableEq, Repr

/-- The words of the loop, in the order of their addresses. -/
def LrscLoop.words (l : LrscLoop) : List InstrWord :=
  l.load :: l.between ++ l.conditional :: l.retry

/-- The address of the store-conditional. -/
def LrscLoop.conditionalPc (l : LrscLoop) : Nat :=
  l.base + 4 * (l.between.length + 1)

/-- The address just after the loop. -/
def LrscLoop.endPc (l : LrscLoop) : Nat :=
  l.base + 4 * l.words.length

/-- The loop meets the constraints that are of its text (20_memory R53): at most 16 instructions placed in sequence, a
load-reserved, a store-conditional of the same size, and otherwise plain base-integer instructions, so that no
AMO and no other load-reserved or store-conditional stands in it; and no backward jump between the two. -/
def LrscLoop.Constrained (p : ProgressTerms) (c : Config) (l : LrscLoop) : Prop :=
  l.words.length ≤ 16 ∧ WordsPlaced c l.base l.words ∧
    (∃ i j, decode c l.load = .ok i ∧ decode c l.conditional = .ok j ∧ i.isLoadReserved = true ∧
      j.isStoreConditional = true ∧ j.width = i.width) ∧
    (∀ w ∈ l.between ++ l.retry, p.plain w = true ∧ decode c w = .error .notAnAtomic) ∧
    ∀ w ∈ l.between, p.backwardJump w = false

/-- Hart `g` completes, at time `n`, an instruction of the kind `k` at the address `pc`. -/
def completesAt (run : Nat → State) (g n pc : Nat) (k : EventKind) : Prop :=
  pcAt run g n = some pc ∧ ∃ e, newEvent (run n) (run (n + 1)) = some e ∧ e.hart = g ∧ e.kind = k

/-- From time `n` on hart `g` keeps entering the loop with the address `a` (20_memory R53): again and again it completes
the load-reserved; from there it takes no backward jump or branch and comes to the store-conditional or leaves the
loop; from the store-conditional on it goes backward only to the load-reserved, or out of the loop; and the address at
the load-reserved and at the store-conditional is `a` (log 16). -/
structure KeepsEntering (run : Nat → State) (g n : Nat) (l : LrscLoop) (a : Word) : Prop where
  again : ∀ m ≥ n, ∃ k ≥ m, completesAt run g k l.base .loadReserved
  forward : ∀ m ≥ n, ∀ p q, pcAt run g m = some p → pcAt run g (m + 1) = some q →
    l.base ≤ p → p < l.conditionalPc → p ≤ q ∧ (q ≤ l.conditionalPc ∨ l.endPc ≤ q)
  retry : ∀ m ≥ n, ∀ p q, pcAt run g m = some p → pcAt run g (m + 1) = some q →
    l.conditionalPc ≤ p → p < l.endPc → p ≤ q ∨ q ≤ l.base
  address : ∀ m ≥ n, ∀ p e h, pcAt run g m = some p → p = l.base ∨ p = l.conditionalPc →
    newEvent (run m) (run (m + 1)) = some e → e.hart = g → (run m).hartAt g = some h →
    h.readX (run m).cfg.xlen e.rs1 = a

/-- What ends the wait at time `n` (20_memory R53): a successful store-conditional into the reservation set by any
hart, a store or AMO into it by another hart, hart `g` outside the loop, or its trap. -/
def LoopEvent (run : Nat → State) (g n : Nat) (l : LrscLoop) (a : Word) : Prop :=
  (∃ e, newEvent (run n) (run (n + 1)) = some e ∧ e.storesInto (run n).cfg a = true ∧
      (e.kind = .storeConditional ∨ e.hart ≠ g)) ∨
    (∃ pc, pcAt run g n = some pc ∧ (pc < l.base ∨ l.endPc ≤ pc)) ∨
    ∃ h, (run n).hartAt g = some h ∧ h.fault.isSome = true

/-- `LRSC_EVENTUAL_SUCCESS` (20_memory R53): a hart that keeps entering a constrained loop, on an address with the
eventual-success property, eventually sees one of its outcomes. -/
def LrscEventualSuccess (p : ProgressTerms) (run : Nat → State) : Prop :=
  ∀ g n l a, l.Constrained p (run n).cfg → p.eventual a.toNat = true → KeepsEntering run g n l a →
    ∃ m ≥ n, LoopEvent run g m l a

end Sys2Proof.Machine
end

