-- ==== Sys2Proof/Machine/Rvwmo.lean ====
section
/-!
DEFINITION. The weak memory model `RVWMO` as the spec transcribes it (20_memory R56 to R59): the memory
operations of a history, preserved program order, and the axioms that judge a finished history. The
history is taken oldest event first, and an event is named by its place in it.
-/

namespace Sys2Proof.Machine

/-- One memory operation of a history: the event it belongs to, and whether it is its store (20_memory
R56). -/
structure MemOp where
  event : Nat
  isStore : Bool
  deriving DecidableEq, Repr

/-- The operations of the event with number `k`: the load, then the store (20_memory R56). -/
def opsOfEvent (k : Nat) (e : Event) : List MemOp :=
  (if e.load.isSome then [⟨k, false⟩] else []) ++ (if e.store.isSome then [⟨k, true⟩] else [])

/-- The operations of the events numbered from `k` on. -/
def opsFrom : Nat → List Event → List MemOp
  | _, [] => []
  | k, e :: rest => opsOfEvent k e ++ opsFrom (k + 1) rest

/-- All memory operations of a history, in the order of its steps. -/
def opsOf (h : List Event) : List MemOp :=
  opsFrom 0 h

/-- The address, size and value of an operation. -/
def accessOf (h : List Event) (o : MemOp) : Option Access :=
  h[o.event]?.bind fun e => if o.isStore then e.store else e.load

/-- The byte addresses an operation accesses. -/
def bytesOf (h : List Event) (o : MemOp) : List Nat :=
  match accessOf h o with
  | none => []
  | some a => (List.range a.size.bytes).map fun i => a.addr.toNat + i

/-- The operation accesses the byte at `x`. -/
def accessesByte (h : List Event) (o : MemOp) (x : Nat) : Bool :=
  (bytesOf h o).contains x

/-- The operation's value at the byte address `x`, little-endian (20_memory R41). -/
def byteValue (h : List Event) (o : MemOp) (x : Nat) : Byte :=
  match accessOf h o with
  | none => 0
  | some a => a.value.extractLsb' (8 * (x - a.addr.toNat)) 8

/-- Events `i` and `j` are of one hart. -/
def sameHart (h : List Event) (i j : Nat) : Bool :=
  match h[i]?, h[j]? with
  | some d, some e => d.hart == e.hart
  | _, _ => false

/-- Event `i` precedes event `j` in the program order of one hart. -/
def eventBefore (h : List Event) (i j : Nat) : Bool :=
  decide (i < j) && sameHart h i j

/-- Operation `a` precedes operation `b` in the program order of one hart; of one AMO, the load precedes
the store. -/
def programBefore (h : List Event) (a b : MemOp) : Bool :=
  eventBefore h a.event b.event || ((a.event == b.event) && !a.isStore && b.isStore)

/-- `a` precedes `b` in the global memory order `g`, a list without repeats (20_memory R56). -/
def globallyBefore (g : List MemOp) (a b : MemOp) : Bool :=
  decide (g.idxOf a < g.idxOf b)

/-- The operation whose value a load returns for the byte `x`: the latest in the global memory order among
the stores to that byte that precede the load in it or in program order (20_memory R58, load value);
`none` is the initial value. -/
def returnsFrom (h : List Event) (g : List MemOp) (l : MemOp) (x : Nat) : Option MemOp :=
  (g.filter fun s =>
    s.isStore && accessesByte h s x && (globallyBefore g s l || programBefore h s l)).getLast?

/-- `l` returns, for some byte, a value written by `s`. -/
def returnsValueOf (h : List Event) (g : List MemOp) (l s : MemOp) : Bool :=
  (bytesOf h l).any fun x => returnsFrom h g l x == some s

/-- The latest event before `j` of the same hart that has a property. -/
def latestBefore (h : List Event) (j : Nat) (p : Event → Bool) : Option Nat :=
  ((List.range j).filter fun i => eventBefore h i j && (h[i]?.map p).getD false).getLast?

/-- `a` is paired with `b` (20_memory R56): the two halves of an AMO, or of a load-reserved and its
successful store-conditional, which is the next one of the hart. -/
def paired (h : List Event) (a b : MemOp) : Bool :=
  !a.isStore && b.isStore &&
    ((a.event == b.event) ||
      ((h[b.event]?.map (·.kind == .storeConditional)).getD false &&
        (latestBefore h b.event (·.kind == .loadReserved) == some a.event)))

/-- The operation is an acquire: its instruction has `aq` (20_memory R56). DESIGN CHOICE (log 17): a store-conditional with
`aq` alone too, although 20_memory R55 promises no more order for it than for the plain form. -/
def acquires (h : List Event) (o : MemOp) : Bool :=
  (h[o.event]?.map (·.aq)).getD false

/-- The operation is a release: its instruction has `rl` (20_memory R56). DESIGN CHOICE (log 17): a load-reserved with `rl`
alone too, although 20_memory R55 promises no more order for it than for the plain form. -/
def releases (h : List Event) (o : MemOp) : Bool :=
  (h[o.event]?.map (·.rl)).getD false

/-- The operation is RCsc annotated: its instruction has either bit (20_memory R56). DESIGN CHOICE (log 17): the two forms
of 20_memory R55 with one bit alone as well. -/
def rcsc (h : List Event) (o : MemOp) : Bool :=
  acquires h o || releases h o

/-- Register `r`, read by event `j`, was written last by event `i` of the same hart. No instruction in scope
computes a register from another, so a dependency is direct (20_memory R57; DEDUCED, log 9). -/
def dependsThrough (h : List Event) (r : Reg) (i j : Nat) : Bool :=
  (r != 0) && (latestBefore h j (·.rd == r) == some i)

/-- Event `j` has an address dependency on event `i` (20_memory R57). -/
def addressDepends (h : List Event) (i j : Nat) : Bool :=
  (h[j]?.map fun e => dependsThrough h e.rs1 i j).getD false

/-- Event `j` has a data dependency on event `i` (20_memory R57). -/
def dataDepends (h : List Event) (i j : Nat) : Bool :=
  (h[j]?.map fun e => (e.rs2.map fun r => dependsThrough h r i j).getD false).getD false

/-- Preserved program order of 20_memory R57, the clauses with the instructions of this spec: clause (4)
needs a fence and clause (11) a branch, and neither is in scope. -/
def preserved (h : List Event) (g : List MemOp) (a b : MemOp) : Bool :=
  programBefore h a b &&
    -- (1) `b` is a store and `a` and `b` access overlapping addresses
    ((b.isStore && (bytesOf h a).any (accessesByte h b)) ||
    -- (2) two loads of a byte with no store to it between them, written by different operations
    (!a.isStore && !b.isStore && (bytesOf h a).any (fun x =>
      accessesByte h b x
        && !(opsOf h).any (fun m =>
          m.isStore && accessesByte h m x && programBefore h a m && programBefore h m b)
        && (returnsFrom h g a x != returnsFrom h g b x))) ||
    -- (3) `b` returns a value written by `a`, the store of an AMO or a store-conditional
    (a.isStore && !b.isStore && returnsValueOf h g b a) ||
    -- (5), (6), (7), (8) acquire, release, both RCsc, paired (the bits of every form: DESIGN CHOICE, log 17)
    acquires h a || releases h b || (rcsc h a && rcsc h b) || paired h a b ||
    -- (9), (10) address and data dependencies
    addressDepends h a.event b.event || (b.isStore && dataDepends h a.event b.event) ||
    -- (12) `b` returns a value written by a store between them that depends on `a`
    (!b.isStore && (opsOf h).any (fun m =>
      m.isStore && programBefore h a m && programBefore h m b
        && (addressDepends h a.event m.event || dataDepends h a.event m.event)
        && returnsValueOf h g b m)) ||
    -- (13) `b` is a store and an instruction between them has an address dependency on `a`
    (b.isStore && (List.range h.length).any (fun k =>
      eventBefore h a.event k && eventBefore h k b.event && addressDepends h a.event k)))

/-- Load value (20_memory R58): every byte of every load is the value of the operation it returns from, or the
initial byte. -/
def loadValueAxiom (m : Memory) (h : List Event) (g : List MemOp) : Bool :=
  (opsOf h).all fun l => l.isStore || (bytesOf h l).all fun x =>
    byteValue h l x == match returnsFrom h g l x with
      | some s => byteValue h s x
      | none => memByte m x

/-- The store `s`, or the initial value where there is none, precedes `o` in the global memory order: the initial
bytes count as written before every store (DEDUCED from 20_memory R46 and R59, log 9). -/
def afterSource (g : List MemOp) (s : Option MemOp) (o : MemOp) : Bool :=
  match s with
  | none => true
  | some s => globallyBefore g s o

/-- Atomicity (20_memory R58): where a paired load returns a value written by `s` to the byte `x`, `s` precedes
the paired store and no store to `x` by another hart lies between them. -/
def atomicityAxiom (h : List Event) (g : List MemOp) : Bool :=
  (opsOf h).all fun r => (opsOf h).all fun w => !paired h r w || (bytesOf h r).all fun x =>
    afterSource g (returnsFrom h g r x) w && (opsOf h).all fun o =>
      !(o.isStore && accessesByte h o x && !sameHart h o.event r.event
        && afterSource g (returnsFrom h g r x) o && globallyBefore g o w)

/-- The global memory order keeps preserved program order (20_memory R57). -/
def keepsProgramOrder (h : List Event) (g : List MemOp) : Bool :=
  (opsOf h).all fun a => (opsOf h).all fun b => !preserved h g a b || globallyBefore g a b

/-- The history `h`, oldest event first, is explained by the global memory order `g` from the initial memory
`m`: `g` is a total order over all operations (20_memory R56) that meets R57 and R58. The progress axiom
holds of every finite history. -/
def explains (m : Memory) (h : List Event) (g : List MemOp) : Bool :=
  g.isPerm (opsOf h) && keepsProgramOrder h g && loadValueAxiom m h g && atomicityAxiom h g

/-- The history is one `RVWMO` admits (20_memory R56: "the global memory order is a total order ... that the
history must admit"). -/
def Admitted (m : Memory) (h : List Event) : Prop :=
  ∃ g, explains m h g = true

/-- What a byte of memory holds at the end of a run judged under `g`: the value of the latest store to it, or
the initial byte (20_memory R58, 70_reset R180). -/
def finalByte (m : Memory) (h : List Event) (g : List MemOp) (x : Nat) : Byte :=
  match (g.filter fun s => s.isStore && accessesByte h s x).getLast? with
  | some s => byteValue h s x
  | none => memByte m x

end Sys2Proof.Machine
end

