-- ==== Sys2Proof/Safety.lean ====
section
/-!
DEFINITION. What counts as a good state and a good run, in the terms claims use: the invariants, the launch
premises (70_reset R171), the end of a run (70_reset R179), the LR/SC guarantee (20_memory R47) and the shapes
that statements share.
-/

namespace Sys2Proof.Machine

/-! ### Invariants -/

/-- A reservation is one a load-reserved can have registered: aligned and admitted, a doubleword only where
the `.d` forms are (20_memory R43, R44, R48). -/
def Reservation.wf (c : Config) (r : Reservation) : Bool :=
  aligned r.addr r.size && c.admits r.addr.toNat r.size.bytes
    && ((r.size == .word) || c.admitsD)

/-- The four causes this spec raises (60_exceptions R141). -/
def Cause.raised : Cause → Bool
  | .loadAddressMisaligned | .loadAccessFault | .storeAMOAddressMisaligned | .storeAMOAccessFault => true
  | .illegalInstruction | .loadPageFault | .storeAMOPageFault => false

/-- The pc is an `XLEN`-bit multiple of 4 (10_state R25). -/
def Hart.pcWf (c : Config) (h : Hart) : Bool :=
  c.xlen.fits h.pc && (h.pc.toNat % 4 == 0)

/-- Register 0 holds 0 and every register an `XLEN`-bit value (10_state R21, R22). -/
def Hart.regsWf (c : Config) (h : Hart) : Bool :=
  (h.regs[0] == 0) && h.regs.toList.all c.xlen.fits

/-- A hart is well formed: its pc, its registers, its reservation, and a recorded fault at its own pc in a hart that
has not been refused. -/
def Hart.wf (c : Config) (h : Hart) : Bool :=
  h.pcWf c && h.regsWf c && h.res.all (Reservation.wf c)
    && h.fault.all fun f => f.cause.raised && (f.epc == h.pc) && h.refusal.isNone

/-- Memory is canonical and lists only addresses of MEM (10_state R30). -/
def State.memWf (s : State) : Bool :=
  Memory.wf s.mem && s.mem.all fun p => s.cfg.inMem p.1

/-- The refusal mark of the whole state is that of some hart, and clear only where no hart is refused (10_state R20,
60_exceptions R140). -/
def State.marksWf (s : State) : Bool :=
  match s.refusal with
  | none => s.harts.all fun h => h.refusal.isNone
  | some r => s.harts.any fun h => h.refusal == some r

/-- A state is well formed. -/
def State.wf (s : State) : Bool :=
  s.memWf && s.harts.all (Hart.wf s.cfg) && s.marksWf

/-! ### Launch premises and the end of a run -/

/-- `PROGRAM_PLACED` (70_reset R171): the words stand in PROGRAM at multiples of 4 from `base` on, and the pc is at
the first. -/
def ProgramPlaced (base : Nat) (words : List InstrWord) (s : State) : Prop :=
  s.hart.pc.toNat = base ∧ WordsPlaced s.cfg base words

/-- `DATA_IN_MEM` (70_reset R171) for one address and access width. -/
def DataInMem (s : State) (addr : Word) (w : Width) : Prop :=
  addr.toNat % w.bytes = 0 ∧ ∀ i < w.bytes, s.cfg.inMem (addr.toNat + i) = true

/-- `REGISTERS_SET` (70_reset R171): the listed registers have the listed values. -/
def RegistersSet (values : List (Reg × Word)) (s : State) : Prop :=
  ∀ p ∈ values, s.readX p.1 = p.2

/-- `RESERVATIONS` (70_reset R171): each hart's reservation at launch, in the order of their identifiers. -/
def ReservationsAre (rs : List (Option Reservation)) (s : State) : Prop :=
  s.harts.map Hart.res = rs

/-- `NO_FAULT_RECORDED` (70_reset R171). -/
def NoFaultRecorded (s : State) : Prop :=
  ∀ h ∈ s.harts, h.fault = none

/-- `NOTHING_REFUSED` (70_reset R171): no hart's mark and not the mark of the whole state. -/
def NothingRefused (s : State) : Prop :=
  s.refusal = none ∧ ∀ h ∈ s.harts, h.refusal = none

/-- A whole run is over: every hart's pc is in END_PC, nothing faulted, nothing refused (70_reset R179). -/
def RunOver (s : State) : Prop :=
  (∀ h ∈ s.harts, h.ended s.cfg = true) ∧ NoFaultRecorded s ∧ NothingRefused s

/-! ### The LR/SC guarantee over the history -/

/-- Looking back over the history, newest event first: hart `g` load-reserved `r` with no store-conditional
of its own since, and no other hart has stored into the reservation set since (20_memory R47). -/
def reservedSince (c : Config) (g : Nat) (r : Reservation) : List Event → Bool
  | [] => false
  | e :: rest =>
    if e.hart = g then
      match e.kind with
      | .loadReserved => e.load.any fun a => (a.addr == r.addr) && (a.size == r.size)
      | .storeConditional => false
      | .amo => reservedSince c g r rest
    else !e.storesInto c r.addr && reservedSince c g r rest

/-- A successful store-conditional `e` after the history `rest` stored to what its hart had reserved, or inside
that reservation set, with no other hart's store into the set in between (20_memory R47, R52). -/
def Event.atomicAfter (c : Config) (rest : List Event) (e : Event) : Prop :=
  match e.kind, e.store with
  | .storeConditional, some st =>
    ∃ r, reservedSince c e.hart r rest = true ∧
      ((r.addr = st.addr ∧ r.size = st.size) ∨
        c.covers r.addr.toNat st.addr.toNat st.size.bytes = true)
  | _, _ => True

/-- Every successful store-conditional of the history is atomic with its load-reserved (20_memory R47). -/
def AllPairsAtomic (c : Config) : List Event → Prop
  | [] => True
  | e :: rest => e.atomicAfter c rest ∧ AllPairsAtomic c rest

/-- The invariant behind 20_memory R47: all pairs so far are atomic, and every reservation held is backed by the
history. -/
def LrScInv (s : State) : Prop :=
  AllPairsAtomic s.cfg s.history ∧
    ∀ g h r, s.hartAt g = some h → h.res = some r → reservedSince s.cfg g r s.history = true

/-! ### Histories under the weak memory model -/

/-- A state whose history `RVWMO` admits; `s.mem` is the initial memory (20_memory R59). -/
def RvwmoAdmitted (s : State) : Prop :=
  Admitted s.mem s.history.reverse

/-- The LR/SC invariant with the weak model's axioms: the history so far is explained by its own order from the
initial memory `m`, and memory holds what that order leaves (20_memory R54, R59). -/
def ScExplained (m : Memory) (s : State) : Prop :=
  explains m s.history.reverse (opsOf s.history.reverse) = true ∧
    ∀ x, memByte s.mem x = finalByte m s.history.reverse (opsOf s.history.reverse) x

/-! ### What an instruction changes and leaves alone -/

/-- `pc <- pc + 4` modulo `2^XLEN` (10_state R26). -/
def PcAdvanced (s t : State) : Prop :=
  t.hart.pc.toNat = (s.hart.pc.toNat + 4) % 2 ^ s.cfg.xlen.bits

/-- Register `rd` holds `v` unless it is register 0, and every other register is unchanged (10_state R22, R24). -/
def RegisterWritten (rd : Reg) (v : Word) (s t : State) : Prop :=
  ∀ q, t.readX q = if q = rd ∧ rd ≠ 0 then v else s.readX q

/-- What no completed instruction changes: the parameters, which hart steps, its fault record, the refusal marks,
the schedule. -/
def ControlKept (s t : State) : Prop :=
  t.cfg = s.cfg ∧ t.hartId = s.hartId ∧ t.hart.fault = s.hart.fault ∧ t.hart.refusal = s.hart.refusal ∧
    t.refusal = s.refusal ∧ t.schedule = s.schedule

/-- Every other hart is unchanged. -/
def OthersKept (s t : State) : Prop :=
  ∀ g, g ≠ s.hartId → t.hartAt g = s.hartAt g

/-- Every other hart is unchanged but for a reservation whose set the `n` bytes at `a` touch, which is lost
(20_memory R49). -/
def OthersSawWrite (a n : Nat) (s t : State) : Prop :=
  ∀ g, g ≠ s.hartId → t.hartAt g = (s.hartAt g).map fun h =>
    { h with res := h.res.filter fun r => !s.cfg.touches r.addr.toNat a n }

/-- Every byte of memory outside the `n` bytes at `a` reads as before. -/
def MemoryKeptOutside (a n : Nat) (s t : State) : Prop :=
  ∀ b, b < a ∨ a + n ≤ b → memByte t.mem b = memByte s.mem b

/-- `sext_XLEN` of a word in its container: the word itself with `XLEN = 32`, 32 copies of bit 31 above it with
`XLEN = 64` (40_lr_sc R91). -/
def extendWord (x : Xlen) (v : BitVec 32) : Word :=
  match x with
  | .rv32 => v.setWidth 64
  | .rv64 => v.signExtend 64

/-- What a word AMO with the operator `op` does under `SC_INTERLEAVING` on an address that passes its checks:
it completes, the new word goes to memory, the old one to `rd`, and nothing else changes but what 41_amo_w R100
names. -/
def AmoWordSpec (make : Reg → Reg → Reg → Bool → Bool → Instr)
    (op : BitVec 32 → BitVec 32 → BitVec 32) : Prop :=
  ∀ (rd rs1 rs2 : Reg) (aq rl : Bool) (s : State),
    Memory.wf s.mem = true → s.cfg.memoryModel = .scInterleaving → DataInMem s (s.readX rs1) .word →
    ∃ t, exec (make rd rs1 rs2 aq rl) s = .next t ∧
      memRead t.mem (s.readX rs1).toNat .word =
        op (memRead s.mem (s.readX rs1).toNat .word) ((s.readX rs2).setWidth 32) ∧
      RegisterWritten rd (extendWord s.cfg.xlen (memRead s.mem (s.readX rs1).toNat .word)) s t ∧
      t.hart.res = s.hart.res ∧ PcAdvanced s t ∧ ControlKept s t ∧
      MemoryKeptOutside (s.readX rs1).toNat 4 s t ∧ OthersSawWrite (s.readX rs1).toNat 4 s t ∧
      t.history = ⟨s.hartId, .amo, rd, rs1, some rs2, aq, rl,
        some ⟨s.readX rs1, .word, (memRead s.mem (s.readX rs1).toNat .word).setWidth 64⟩,
        some ⟨s.readX rs1, .word, (memRead t.mem (s.readX rs1).toNat .word).setWidth 64⟩⟩ :: s.history

/-- What a doubleword AMO with the operator `op` does, as `AmoWordSpec` with 8 bytes and whole registers, where the
`.d` forms are admitted (42_rv64a R121). -/
def AmoDoublewordSpec (make : Reg → Reg → Reg → Bool → Bool → Instr)
    (op : BitVec 64 → BitVec 64 → BitVec 64) : Prop :=
  ∀ (rd rs1 rs2 : Reg) (aq rl : Bool) (s : State),
    s.cfg.admitsD = true → Memory.wf s.mem = true → s.cfg.memoryModel = .scInterleaving →
    DataInMem s (s.readX rs1) .doubleword →
    ∃ t, exec (make rd rs1 rs2 aq rl) s = .next t ∧
      memRead t.mem (s.readX rs1).toNat .doubleword =
        op (memRead s.mem (s.readX rs1).toNat .doubleword) (s.readX rs2) ∧
      RegisterWritten rd (memRead s.mem (s.readX rs1).toNat .doubleword) s t ∧
      t.hart.res = s.hart.res ∧ PcAdvanced s t ∧ ControlKept s t ∧
      MemoryKeptOutside (s.readX rs1).toNat 8 s t ∧ OthersSawWrite (s.readX rs1).toNat 8 s t ∧
      t.history = ⟨s.hartId, .amo, rd, rs1, some rs2, aq, rl,
        some ⟨s.readX rs1, .doubleword, memRead s.mem (s.readX rs1).toNat .doubleword⟩,
        some ⟨s.readX rs1, .doubleword, memRead t.mem (s.readX rs1).toNat .doubleword⟩⟩ :: s.history

/-- The effects of a store-conditional that succeeds: the write, and 0 in `rd` (20_memory R52). -/
def ScSucceeded (w : Width) (rd rs1 rs2 : Reg) (aq rl : Bool) (s t : State) : Prop :=
  memRead t.mem (s.readX rs1).toNat w = (s.readX rs2).setWidth w.bits ∧
    RegisterWritten rd 0 s t ∧ MemoryKeptOutside (s.readX rs1).toNat w.bytes s t ∧
    OthersSawWrite (s.readX rs1).toNat w.bytes s t ∧
    t.history = ⟨s.hartId, .storeConditional, rd, rs1, some rs2, aq, rl, none,
      some ⟨s.readX rs1, w, ((s.readX rs2).setWidth w.bits).setWidth 64⟩⟩ :: s.history

/-- `rd` holds a failure code: some nonzero `XLEN`-bit value, a listed one where SC_FAIL_CODE lists its codes
(40_lr_sc R92). -/
def FailCodeWritten (rd : Reg) (s t : State) : Prop :=
  ∃ code, code ≠ 0 ∧ s.cfg.xlen.fits code = true ∧
    (∀ first rest, s.cfg.scFailCodes = .oneOf first rest → code ∈ first :: rest) ∧
    RegisterWritten rd code s t

/-- The effects of a store-conditional that fails: no write, and a failure code in `rd` (20_memory R52). -/
def ScFailed (rd rs1 rs2 : Reg) (aq rl : Bool) (s t : State) : Prop :=
  t.mem = s.mem ∧ FailCodeWritten rd s t ∧
    OthersKept s t ∧
    t.history = ⟨s.hartId, .storeConditional, rd, rs1, some rs2, aq, rl, none, none⟩ :: s.history

/-- Case (c) of 20_memory R52: the hart holds no reservation, or some byte of the access at `addr` lies outside its
reservation set. -/
def OutsideReservation (s : State) (addr : Word) (w : Width) : Prop :=
  ∀ r, s.hart.res = some r → ∃ i < w.bytes, (addr.toNat + i) / s.cfg.granule ≠ r.addr.toNat / s.cfg.granule

/-- What a store-conditional of size `w` does under `SC_INTERLEAVING` on an address that passes its checks: one of
the two outcomes, success in case (a), failure in case (c) of 20_memory R52, the reservation gone in every
case. -/
def StoreConditionalSpec (make : Reg → Reg → Reg → Bool → Bool → Instr) (w : Width) : Prop :=
  ∀ (rd rs1 rs2 : Reg) (aq rl : Bool) (s : State),
    (w = .doubleword → s.cfg.admitsD = true) → Memory.wf s.mem = true → s.cfg.wfFailCodes = true →
    s.cfg.memoryModel = .scInterleaving → DataInMem s (s.readX rs1) w →
    ∃ t, exec (make rd rs1 rs2 aq rl) s = .next t ∧
      t.hart.res = none ∧ PcAdvanced s t ∧ ControlKept s t ∧
      (ScSucceeded w rd rs1 rs2 aq rl s t ∨ ScFailed rd rs1 rs2 aq rl s t) ∧
      (s.hart.res = some ⟨s.readX rs1, w⟩ → ScSucceeded w rd rs1 rs2 aq rl s t) ∧
      (OutsideReservation s (s.readX rs1) w → s.hart.res ≠ some ⟨s.readX rs1, w⟩ →
        ScFailed rd rs1 rs2 aq rl s t)

/-- What an AMO does under `RVWMO` (20_memory R59): some value is read, `rd` and the event hold what follows from
it, and memory and the other harts are left to the judging of the history. -/
def AmoRvwmoSpec (make : Reg → Reg → Reg → Bool → Bool → Instr) (w : Width)
    (op : BitVec w.bits → BitVec w.bits → BitVec w.bits) : Prop :=
  ∀ (rd rs1 rs2 : Reg) (aq rl : Bool) (s : State),
    (w = .doubleword → s.cfg.admitsD = true) → s.cfg.memoryModel = .rvwmo →
    DataInMem s (s.readX rs1) w →
    ∃ t v, exec (make rd rs1 rs2 aq rl) s = .next t ∧
      RegisterWritten rd (s.cfg.xlen.sext v) s t ∧ t.hart.res = s.hart.res ∧ PcAdvanced s t ∧
      ControlKept s t ∧ t.mem = s.mem ∧ OthersKept s t ∧
      t.history = ⟨s.hartId, .amo, rd, rs1, some rs2, aq, rl,
        some ⟨s.readX rs1, w, v.setWidth 64⟩,
        some ⟨s.readX rs1, w, (op v ((s.readX rs2).setWidth w.bits)).setWidth 64⟩⟩ :: s.history

end Sys2Proof.Machine
end

