-- ==== Sys2Proof/Certificates/Slice0/Obligations.lean ====
section
/-!
DEFINITION. The statements for the provers. Each formalises a rule of spec/ or rests on the sections it names. Where a
statement gives the history under `SC_INTERLEAVING`, that the event is recorded there too is the model's choice (log 9,
DEDUCED).
-/

open Sys2Proof Sys2Proof.Machine

/-! ### Stepping -/

/-- 30_encoding R84, 00_scope R14 and R16: where the next turn, scheduled or drawn, is hart `g`'s and the word at its
pc decodes to `i`, the step is `exec i` on the state with that hart in focus. THE MODEL'S CHOICE: the schedule and
the draw (log 4, DESIGN CHOICE), and that the step answers a next state with the fault recorded or the refusal
marked where the instruction raises or is refused (log 7, DEDUCED). -/
def Obligations.StepRunsDecodedInstruction : Prop :=
  ∀ (s v u : State) (g : Nat) (w : InstrWord) (i : Instr),
    s.nextTurn = some (.execute g, v) → v.focus g = some u →
    programWord u.cfg.program u.hart.pc.toNat = some w → decode u.cfg w = .ok i →
    (u.harts = s.harts ∧ u.hartId = g ∧ u.cfg = s.cfg ∧ u.mem = s.mem ∧ u.history = s.history ∧
      u.refusal = s.refusal) ∧
    (∀ t, exec i u = .next t → step s = .next t) ∧
    (∀ f, exec i u = .fault (.exception f) → step s = .next (u.recordFault f)) ∧
    (∀ r, exec i u = .refused r → step s = .next (u.markRefused r))

/-- 30_encoding R84 and R78, 10_state R20, 60_exceptions R140: on the turn of hart `g`, which is not in END_PC, a pc
outside PROGRAM and a word the decoder refuses are refused by name: the refusal is marked in that hart and, unless an
earlier one stands there, in the whole state, and nothing else changes. THE MODEL'S CHOICE: the turn (log 4, DESIGN
CHOICE), END_PC looked at before the fetch (log 8, DESIGN CHOICE), the next state, and the first refusal kept (log 7,
DEDUCED). -/
def Obligations.StepRefusesWhatItCannotRun : Prop :=
  ∀ (s v u : State) (g : Nat) (r : Refusal),
    s.nextTurn = some (.execute g, v) → v.focus g = some u →
    (programWord u.cfg.program u.hart.pc.toNat = none ∧ r = .pcOutsideProgram) ∨
      (∃ w q, programWord u.cfg.program u.hart.pc.toNat = some w ∧ decode u.cfg w = .error q ∧
        r = .undecodable q) →
    u.hart.pc ∉ s.cfg.endPc ∧ ∃ t, step s = .next t ∧
      (∀ k, t.hartAt k = (s.hartAt k).map fun h => if k = g then { h with refusal := some r } else h) ∧
      (s.refusal = none → t.refusal = some r) ∧ (∀ q, s.refusal = some q → t.refusal = some q) ∧
      t.cfg = s.cfg ∧ t.mem = s.mem ∧ t.history = s.history ∧ t.schedule = v.schedule ∧ t.draws = v.draws

/-- 20_memory R50: while hart `g` holds a reservation the environment's step on it is enabled, and that step ends the
reservation and changes nothing else. THE MODEL'S CHOICE: how the turn comes, scheduled or drawn (log 4, DESIGN
CHOICE). -/
def Obligations.EnvironmentEndsReservation : Prop :=
  ∀ (s : State) (g : Nat) (h : Hart) (r : Reservation), s.hartAt g = some h → h.res = some r →
    s.enabled (.loseReservation g) = true ∧
    ∀ v, s.nextTurn = some (.loseReservation g, v) →
      ∃ t, step s = .next t ∧
        (∀ k, t.hartAt k = (s.hartAt k).map fun h => if k = g then { h with res := none } else h) ∧
        t.hartId = s.hartId ∧ t.cfg = s.cfg ∧ t.mem = s.mem ∧ t.history = s.history ∧
        t.refusal = s.refusal ∧ t.schedule = v.schedule ∧ t.draws = v.draws

/-- 60_exceptions R140, R145: when the instruction of a hart raises, the fault is recorded in that hart, with its own pc
as `epc`, and no register, memory byte, reservation or pc changes. THE MODEL'S CHOICE: the turn (log 4, DESIGN
CHOICE), and that the step answers a next state with the record (log 7, DEDUCED). -/
def Obligations.RaisingInstructionHasNoEffect : Prop :=
  ∀ (s v u : State) (g : Nat) (i : Instr) (f : FaultRecord),
    s.nextTurn = some (.execute g, v) → v.focus g = some u →
    u.fetch = .ok i → exec i u = .fault (.exception f) →
    ∃ t, step s = .next t ∧ f.epc = u.hart.pc ∧
      (∀ k, t.hartAt k = (s.hartAt k).map fun h => if k = g then { h with fault := some f } else h) ∧
      t.cfg = s.cfg ∧ t.mem = s.mem ∧ t.history = s.history ∧ t.refusal = s.refusal ∧
      t.schedule = v.schedule ∧ t.draws = v.draws

/-- 60_exceptions R140, R158, 70_reset R179: a hart that has faulted, been refused or ended takes no further step:
whatever the machine does, its registers, pc, fault record and refusal mark stay, and its reservation stays or is
lost. -/
def Obligations.StoppedHartTakesNoStep : Prop :=
  ∀ (s t : State) (g : Nat) (h : Hart),
    s.hartAt g = some h → h.canStep s.cfg = false → step s = .next t →
    ∃ h', t.hartAt g = some h' ∧ h'.regs = h.regs ∧ h'.pc = h.pc ∧ h'.fault = h.fault ∧
      h'.refusal = h.refusal ∧ (h'.res = h.res ∨ h'.res = none)

/-! ### Encoding -/

/-- 30_encoding R71 to R78, 42_rv64a R120: decoding the word of a well-formed instruction gives that instruction,
with every operand at every value. -/
def Obligations.DecodeOfEncode : Prop :=
  ∀ (c : Config) (i : Instr), i.wf c = true → decode c (encode i) = .ok i

/-- 30_encoding R83: a word is an instruction exactly when its masked bits are that instruction's match value; the
mask is one of two, and the match value is the instruction's word with every free field zero. -/
def Obligations.MatchAndMask : Prop :=
  ∀ (c : Config) (w : InstrWord) (i : Instr), i.wf c = true →
    ((∃ j, decode c w = .ok j ∧ j.matchBits = i.matchBits ∧ j.maskBits = i.maskBits) ↔
      w &&& i.maskBits = i.matchBits) ∧
    i.maskBits = (if i.isLoadReserved then 0xF9F0707F#32 else 0xF800707F#32) ∧
    encode i &&& i.maskBits = i.matchBits

/-- 30_encoding R78: decoding is total: a word is the instruction whose encoding it is, or is refused by one of five
names, and which one. -/
def Obligations.DecodeIsTotal : Prop :=
  ∀ (c : Config) (w : InstrWord),
    (∀ i, decode c w = .ok i ↔ encode i = w ∧ i.wf c = true) ∧
    (decode c w = .error .notAnAtomic ↔ w.extractLsb' 0 7 ≠ 0b0101111#7) ∧
    (w.extractLsb' 0 7 = 0b0101111#7 →
      (decode c w = .error .doublewordFormNotAdmitted ↔
        w.extractLsb' 12 3 = 0b011#3 ∧ c.admitsD = false) ∧
      (decode c w = .error .unknownWidth ↔
        w.extractLsb' 12 3 ≠ 0b010#3 ∧ w.extractLsb' 12 3 ≠ 0b011#3) ∧
      (w.extractLsb' 12 3 = 0b010#3 ∨ (w.extractLsb' 12 3 = 0b011#3 ∧ c.admitsD = true) →
        (decode c w = .error .lrWithNonzeroRs2 ↔
          w.extractLsb' 27 5 = 0b00010#5 ∧ w.extractLsb' 20 5 ≠ 0b00000#5) ∧
        (decode c w = .error .unknownFunct5 ↔
          w.extractLsb' 27 5 ∉ [0b00010#5, 0b00011#5, 0b00001#5, 0b00000#5, 0b00100#5, 0b01100#5,
            0b01000#5, 0b10000#5, 0b10100#5, 0b11000#5, 0b11100#5]))) ∧
    decode c w ≠ .error .fewerThanFourBytes

/-- 30_encoding R71 to R76: a few words written out bit by bit decode to the instructions they stand for. -/
def Obligations.WrittenOutWordsDecode : Prop :=
  decode tableConfig 0b00010_0_0_00000_01010_010_01100_01011_11#32 = .ok (.lrW 12 10 false false) ∧
  decode tableConfig 0b00011_1_0_01011_01010_010_01100_01011_11#32 = .ok (.scW 12 10 11 true false) ∧
  decode tableConfig 0b11100_0_1_01011_01010_010_01100_01011_11#32 =
    .ok (.amomaxuW 12 10 11 false true) ∧
  decode tableConfig 0b00001_1_1_01011_01010_011_01100_01011_11#32 = .ok (.amoswapD 12 10 11 true true)

/-! ### Registers, pc, reset -/

/-- 10_state R34: after reset, for every parameter, register and memory contents, `x[0]` is 0, the pc is RESET_PC, no
hart holds a reservation, and no fault or refusal is recorded; `State.reset` is one of these states. -/
def Obligations.ResetLeaves : Prop :=
  ∀ (c : Config) (x : List Word) (xs : List (List Word)) (m : Memory),
    (∀ h ∈ (State.launch c x xs m).harts,
      h.readX c.xlen 0 = 0 ∧ h.pc = c.resetPc ∧ h.res = none ∧ h.fault = none ∧ h.refusal = none) ∧
    (State.launch c x xs m).harts.length = xs.length + 1 ∧
    (∀ (g : Nat) (y : List Word), (x :: xs)[g]? = some y → ∃ h, (State.launch c x xs m).hartAt g = some h ∧
      ∀ r : Reg, r ≠ 0 → h.readX c.xlen r = c.xlen.wrap (y.getD r.toNat 0)) ∧
    (State.launch c x xs m).mem = m ∧ (State.launch c x xs m).refusal = none ∧
    (State.launch c x xs m).history = [] ∧ (State.launch c x xs m).cfg = c ∧
    ∃ c' x' xs' m', State.reset = State.launch c' x' xs' m'

/-- 10_state R22: register 0 reads 0 and a write to it is discarded; the others hold the last value written. An
instruction with `rd = 0` changes no register, and one with `rs1 = 0` uses address 0. -/
def Obligations.RegisterZeroIsHardwired : Prop :=
  ∀ (s : State),
    s.readX 0 = 0 ∧ (∀ v, s.writeX 0 v = s) ∧
    (∀ (r : Reg) (v : Word), r ≠ 0 → (s.writeX r v).readX r = s.cfg.xlen.wrap v ∧
      ∀ q, q ≠ r → (s.writeX r v).readX q = s.readX q) ∧
    (∀ (i : Instr) (t : State), exec i s = .next t → i.rd = 0 → ∀ q, t.readX q = s.readX q) ∧
    (∀ (i : Instr) (t : State), exec i s = .next t → i.rs1 = 0 → ∃ e, t.history = e :: s.history ∧
      (∀ a, e.load = some a → a.addr = 0) ∧ (∀ a, e.store = some a → a.addr = 0)) ∧
    (∀ (i : Instr) (f : FaultRecord), exec i s = .fault (.exception f) → i.rs1 = 0 → f.tval = 0)

/-- 00_scope R12: every instruction that completes sets the pc to pc + 4 modulo 2^XLEN. -/
def Obligations.CompletedInstructionAdvancesPc : Prop :=
  ∀ (i : Instr) (s t : State), exec i s = .next t → PcAdvanced s t

/-! ### Memory -/

/-- 20_memory R41: byte `i` of a value stands at address `a + i`, read or written; a write leaves every byte outside
and the canonical form alone; a doubleword is its two words, the one at the lower address low. -/
def Obligations.MemoryIsLittleEndian : Prop :=
  ∀ (m : Memory) (a : Nat) (w : Width) (v : BitVec w.bits), Memory.wf m = true →
    (∀ i < w.bytes, (memRead m a w).extractLsb' (8 * i) 8 = memByte m (a + i)) ∧
    (∀ i < w.bytes, memByte (memWrite m a w v) (a + i) = v.extractLsb' (8 * i) 8) ∧
    (∀ b, b < a ∨ a + w.bytes ≤ b → memByte (memWrite m a w v) b = memByte m b) ∧
    Memory.wf (memWrite m a w v) = true ∧
    memRead m a .doubleword = memRead m (a + 4) .word ++ memRead m a .word

/-! ### Exceptions -/

/-- 20_memory R43: on an address that is not a multiple of the access size every instruction raises, whatever its
reservation: `lr` the load kind, `sc` and the AMOs the store/AMO kind, address-misaligned or access-fault as
MISALIGNED_CAUSE says. -/
def Obligations.MisalignedAddressRaises : Prop :=
  ∀ (i : Instr) (s : State), i.wf s.cfg = true → (s.readX i.rs1).toNat % i.width.bytes ≠ 0 →
    exec i s = .fault (.exception ⟨
      match s.cfg.misalignedCause, i.isLoadReserved with
      | .addressMisaligned, true => .loadAddressMisaligned
      | .addressMisaligned, false => .storeAMOAddressMisaligned
      | .accessFault, true => .loadAccessFault
      | .accessFault, false => .storeAMOAccessFault, s.readX i.rs1, s.hart.pc⟩)

/-- 20_memory R44: on an aligned address with some accessed byte outside MEM every instruction raises the access fault
of its kind. -/
def Obligations.AddressOutsideMemRaises : Prop :=
  ∀ (i : Instr) (s : State), i.wf s.cfg = true → (s.readX i.rs1).toNat % i.width.bytes = 0 →
    (∃ k < i.width.bytes, s.cfg.inMem ((s.readX i.rs1).toNat + k) = false) →
    exec i s = .fault (.exception ⟨
      if i.isLoadReserved then .loadAccessFault else .storeAMOAccessFault, s.readX i.rs1, s.hart.pc⟩)

/-- 60_exceptions R142, R143, R144: every fault is an address exception at `x[rs1]`, of the load kind for a
load-reserved and of the store/AMO kind for a store-conditional and every AMO. -/
def Obligations.FaultsAreAddressExceptions : Prop :=
  ∀ (i : Instr) (s : State) (e : Fault), exec i s = .fault e →
    ∃ cause, e = .exception ⟨cause, s.readX i.rs1, s.hart.pc⟩ ∧
      (i.isLoadReserved = true →
        (cause = .loadAddressMisaligned ∧ cause.code = 4) ∨ (cause = .loadAccessFault ∧ cause.code = 5)) ∧
      (i.isLoadReserved = false →
        (cause = .storeAMOAddressMisaligned ∧ cause.code = 6) ∨
          (cause = .storeAMOAccessFault ∧ cause.code = 7))

/-- 42_rv64a R120, 30_encoding R78: where the `.d` forms are not admitted, the decoder refuses each of them. THE MODEL'S
CHOICE (log 12, DEDUCED): their meanings answer the same refusal. -/
def Obligations.DoublewordFormsRefusedUnlessAdmitted : Prop :=
  ∀ (i : Instr) (s : State), i.width = .doubleword → s.cfg.admitsD = false →
    exec i s = .refused (.undecodable .doublewordFormNotAdmitted)

/-! ### Reservations -/

/-- 20_memory R51: the reservation set is the aligned block of the granule; it contains every accessed byte, and with
granule 4 it is exactly the word. -/
def Obligations.ReservationSetIsAlignedBlock : Prop :=
  ∀ (c : Config) (a n : Nat),
    (∀ b, c.inReservationSet a b = true ↔ b / c.granule = a / c.granule) ∧
    (n = 4 ∨ n = 8 → n ≤ c.granule → a % n = 0 → ∀ i < n, c.inReservationSet a (a + i) = true) ∧
    (c.granule = 4 → a % 4 = 0 → ∀ b, c.inReservationSet a b = true ↔ a ≤ b ∧ b < a + 4)

/-- 20_memory R48: a load-reserved that completes registers its address and size, whatever reservation the hart held
before. -/
def Obligations.LoadReservedRegisters : Prop :=
  ∀ (i : Instr) (s t : State), i.isLoadReserved = true → exec i s = .next t →
    t.hart.res = some ⟨s.readX i.rs1, i.width⟩

/-- 20_memory R49: under `SC_INTERLEAVING` a write ends every other hart's reservation whose set it touches. An AMO
always writes, a store-conditional that succeeds writes, one that fails and a load-reserved do not; without a write
memory and the other harts are as before. THE MODEL'S CHOICE (log 9, DEDUCED): the event of the instruction, which
names the write, is recorded under this memory model too. -/
def Obligations.MandatoryInvalidation : Prop :=
  ∀ (i : Instr) (s t : State), s.cfg.memoryModel = .scInterleaving → exec i s = .next t →
    ∃ e, t.history = e :: s.history ∧ e.hart = s.hartId ∧
      (e.kind = .loadReserved ↔ i.isLoadReserved = true) ∧
      (e.kind = .storeConditional ↔ i.isStoreConditional = true) ∧
      (e.kind = .amo → e.store.isSome = true) ∧ (e.kind = .loadReserved → e.store = none) ∧
      (e.store = none → t.mem = s.mem ∧ OthersKept s t ∧
        (i.isStoreConditional = true → s.cfg.wfFailCodes = true → FailCodeWritten i.rd s t)) ∧
      (∀ a, e.store = some a → a.addr = s.readX i.rs1 ∧ a.size = i.width ∧
        t.mem = memWrite s.mem (s.readX i.rs1).toNat i.width (a.value.setWidth i.width.bits) ∧
        OthersSawWrite (s.readX i.rs1).toNat i.width.bytes s t ∧
        (i.isStoreConditional = true → RegisterWritten i.rd 0 s t))

/-! ### Load-reserved and store-conditional -/

/-- 40_lr_sc, `lr.w`, under `SC_INTERLEAVING`: it completes, `rd` receives the word sign-extended, the reservation is
registered, memory and the other harts are unchanged. -/
def Obligations.LrWResult : Prop :=
  ∀ (rd rs1 : Reg) (aq rl : Bool) (s : State),
    s.cfg.memoryModel = .scInterleaving → DataInMem s (s.readX rs1) .word →
    ∃ t, exec (.lrW rd rs1 aq rl) s = .next t ∧
      RegisterWritten rd (extendWord s.cfg.xlen (memRead s.mem (s.readX rs1).toNat .word)) s t ∧
      t.hart.res = some ⟨s.readX rs1, .word⟩ ∧ PcAdvanced s t ∧ ControlKept s t ∧ t.mem = s.mem ∧
      OthersKept s t ∧
      t.history = ⟨s.hartId, .loadReserved, rd, rs1, none, aq, rl,
        some ⟨s.readX rs1, .word, (memRead s.mem (s.readX rs1).toNat .word).setWidth 64⟩, none⟩ ::
          s.history

/-- 42_rv64a, `lr.d`, under `SC_INTERLEAVING`: as `lr.w` with eight bytes and nothing to extend. -/
def Obligations.LrDResult : Prop :=
  ∀ (rd rs1 : Reg) (aq rl : Bool) (s : State), s.cfg.admitsD = true →
    s.cfg.memoryModel = .scInterleaving → DataInMem s (s.readX rs1) .doubleword →
    ∃ t, exec (.lrD rd rs1 aq rl) s = .next t ∧
      RegisterWritten rd (memRead s.mem (s.readX rs1).toNat .doubleword) s t ∧
      t.hart.res = some ⟨s.readX rs1, .doubleword⟩ ∧ PcAdvanced s t ∧ ControlKept s t ∧
      t.mem = s.mem ∧ OthersKept s t ∧
      t.history = ⟨s.hartId, .loadReserved, rd, rs1, none, aq, rl,
        some ⟨s.readX rs1, .doubleword, memRead s.mem (s.readX rs1).toNat .doubleword⟩, none⟩ ::
          s.history

/-- 20_memory R52, 40_lr_sc R92, 42_rv64a R123, 10_state R26: a store-conditional of either size completes in one of its
three cases, with the write, the code, the pc and the reservation consumed. THE MODEL'S CHOICE (log 9, DEDUCED): the
event is recorded under `SC_INTERLEAVING` too. -/
def Obligations.StoreConditionalResult : Prop :=
  StoreConditionalSpec Instr.scW .word ∧ StoreConditionalSpec Instr.scD .doubleword

/-! ### AMOs -/

/-- 41_amo_w R101: the table of operators, on words. -/
def Obligations.AmoOperatorTable : Prop :=
  ∀ t src : BitVec 32,
    AmoOp.swap.apply t src = src ∧
    (AmoOp.add.apply t src).toNat = (t.toNat + src.toNat) % 2 ^ 32 ∧
    (∀ i < 32, (AmoOp.xor.apply t src).getLsbD i = (t.getLsbD i ^^ src.getLsbD i)) ∧
    (∀ i < 32, (AmoOp.and.apply t src).getLsbD i = (t.getLsbD i && src.getLsbD i)) ∧
    (∀ i < 32, (AmoOp.or.apply t src).getLsbD i = (t.getLsbD i || src.getLsbD i)) ∧
    (AmoOp.min.apply t src = if t.toInt ≤ src.toInt then t else src) ∧
    (AmoOp.max.apply t src = if t.toInt ≥ src.toInt then t else src) ∧
    (AmoOp.minu.apply t src = if t.toNat ≤ src.toNat then t else src) ∧
    (AmoOp.maxu.apply t src = if t.toNat ≥ src.toNat then t else src)

/-- 41_amo_w, `amoswap.w`: memory receives the register operand, `rd` the old value. -/
def Obligations.AmoswapWResult : Prop :=
  AmoWordSpec Instr.amoswapW (fun _ src => src)

/-- 41_amo_w, `amoadd.w`: memory receives the sum modulo 2^32, `rd` the old value. -/
def Obligations.AmoaddWResult : Prop :=
  AmoWordSpec Instr.amoaddW (fun t src => t + src)

/-- 41_amo_w, `amoxor.w`: memory receives the bitwise exclusive or, `rd` the old value. -/
def Obligations.AmoxorWResult : Prop :=
  AmoWordSpec Instr.amoxorW (fun t src => t ^^^ src)

/-- 41_amo_w, `amoand.w`: memory receives the bitwise and, `rd` the old value. -/
def Obligations.AmoandWResult : Prop :=
  AmoWordSpec Instr.amoandW (fun t src => t &&& src)

/-- 41_amo_w, `amoor.w`: memory receives the bitwise or, `rd` the old value. -/
def Obligations.AmoorWResult : Prop :=
  AmoWordSpec Instr.amoorW (fun t src => t ||| src)

/-- 41_amo_w, `amomin.w`: memory receives the signed minimum, `rd` the old value. -/
def Obligations.AmominWResult : Prop :=
  AmoWordSpec Instr.amominW (fun t src => if t.toInt ≤ src.toInt then t else src)

/-- 41_amo_w, `amomax.w`: memory receives the signed maximum, `rd` the old value. -/
def Obligations.AmomaxWResult : Prop :=
  AmoWordSpec Instr.amomaxW (fun t src => if t.toInt ≥ src.toInt then t else src)

/-- 41_amo_w, `amominu.w`: memory receives the unsigned minimum, `rd` the old value. -/
def Obligations.AmominuWResult : Prop :=
  AmoWordSpec Instr.amominuW (fun t src => if t.toNat ≤ src.toNat then t else src)

/-- 41_amo_w, `amomaxu.w`: memory receives the unsigned maximum, `rd` the old value. -/
def Obligations.AmomaxuWResult : Prop :=
  AmoWordSpec Instr.amomaxuW (fun t src => if t.toNat ≥ src.toNat then t else src)

/-- 42_rv64a, `amoswap.d`: memory receives the register operand, `rd` the old value. -/
def Obligations.AmoswapDResult : Prop :=
  AmoDoublewordSpec Instr.amoswapD (fun _ src => src)

/-- 42_rv64a, `amoadd.d`: memory receives the sum modulo 2^64, `rd` the old value. -/
def Obligations.AmoaddDResult : Prop :=
  AmoDoublewordSpec Instr.amoaddD (fun t src => t + src)

/-- 42_rv64a, `amoxor.d`: memory receives the bitwise exclusive or, `rd` the old value. -/
def Obligations.AmoxorDResult : Prop :=
  AmoDoublewordSpec Instr.amoxorD (fun t src => t ^^^ src)

/-- 42_rv64a, `amoand.d`: memory receives the bitwise and, `rd` the old value. -/
def Obligations.AmoandDResult : Prop :=
  AmoDoublewordSpec Instr.amoandD (fun t src => t &&& src)

/-- 42_rv64a, `amoor.d`: memory receives the bitwise or, `rd` the old value. -/
def Obligations.AmoorDResult : Prop :=
  AmoDoublewordSpec Instr.amoorD (fun t src => t ||| src)

/-- 42_rv64a, `amomin.d`: memory receives the signed minimum, `rd` the old value. -/
def Obligations.AmominDResult : Prop :=
  AmoDoublewordSpec Instr.amominD (fun t src => if t.toInt ≤ src.toInt then t else src)

/-- 42_rv64a, `amomax.d`: memory receives the signed maximum, `rd` the old value. -/
def Obligations.AmomaxDResult : Prop :=
  AmoDoublewordSpec Instr.amomaxD (fun t src => if t.toInt ≥ src.toInt then t else src)

/-- 42_rv64a, `amominu.d`: memory receives the unsigned minimum, `rd` the old value. -/
def Obligations.AmominuDResult : Prop :=
  AmoDoublewordSpec Instr.amominuD (fun t src => if t.toNat ≤ src.toNat then t else src)

/-- 42_rv64a, `amomaxu.d`: memory receives the unsigned maximum, `rd` the old value. -/
def Obligations.AmomaxuDResult : Prop :=
  AmoDoublewordSpec Instr.amomaxuD (fun t src => if t.toNat ≥ src.toNat then t else src)

/-- 20_memory R55: the ordering bits select no other operation: with any bits an instruction has the same outcome,
but for the bits its event records. -/
def Obligations.OrderingBitsChangeNoValue : Prop :=
  ∀ (i : Instr) (aq rl : Bool) (s : State),
    exec (i.withOrdering aq rl) s =
      match exec i s with
      | .next t => .next { t with history := match t.history with
          | [] => []
          | e :: rest => { e with aq := aq, rl := rl } :: rest }
      | .fault f => .fault f
      | .refused r => .refused r

/-! ### The weak memory model -/

/-- 20_memory R59, load-reserved: under `RVWMO` some value is read, and the register and reservation effects are those
of the instruction rule. THE MODEL'S CHOICE (log 9, DEDUCED): memory stays the initial memory. -/
def Obligations.LoadReservedUnderRvwmo : Prop :=
  ∀ (rd rs1 : Reg) (aq rl : Bool) (w : Width) (s : State),
    (w = .doubleword → s.cfg.admitsD = true) → s.cfg.memoryModel = .rvwmo →
    DataInMem s (s.readX rs1) w →
    ∃ t, ∃ v : BitVec w.bits,
      exec (match w with | .word => .lrW rd rs1 aq rl | .doubleword => .lrD rd rs1 aq rl) s = .next t ∧
      RegisterWritten rd (s.cfg.xlen.sext v) s t ∧ t.hart.res = some ⟨s.readX rs1, w⟩ ∧
      PcAdvanced s t ∧ ControlKept s t ∧ t.mem = s.mem ∧ OthersKept s t ∧
      t.history = ⟨s.hartId, .loadReserved, rd, rs1, none, aq, rl,
        some ⟨s.readX rs1, w, v.setWidth 64⟩, none⟩ :: s.history

/-- 20_memory R59, store-conditional: under `RVWMO` the outcome and the register and reservation effects are those of
the instruction rule: success in case (a), failure in case (c) of 20_memory R52, one of the two in case (b). THE
MODEL'S CHOICE (log 9, DEDUCED): the store is in the history alone, memory and the other harts are left to the judging
of the history. -/
def Obligations.StoreConditionalUnderRvwmo : Prop :=
  ∀ (rd rs1 rs2 : Reg) (aq rl : Bool) (w : Width) (s : State),
    (w = .doubleword → s.cfg.admitsD = true) → s.cfg.wfFailCodes = true →
    s.cfg.memoryModel = .rvwmo → DataInMem s (s.readX rs1) w →
    ∃ t, ∃ success : Bool,
      exec (match w with | .word => .scW rd rs1 rs2 aq rl | .doubleword => .scD rd rs1 rs2 aq rl) s =
        .next t ∧
      t.hart.res = none ∧ PcAdvanced s t ∧ ControlKept s t ∧ t.mem = s.mem ∧ OthersKept s t ∧
      (success = true → RegisterWritten rd 0 s t) ∧
      (success = false → FailCodeWritten rd s t) ∧
      (s.hart.res = some ⟨s.readX rs1, w⟩ → success = true) ∧ (s.hart.res = none → success = false) ∧
      (OutsideReservation s (s.readX rs1) w → s.hart.res ≠ some ⟨s.readX rs1, w⟩ → success = false) ∧
      t.history = ⟨s.hartId, .storeConditional, rd, rs1, some rs2, aq, rl, none,
        if success then some ⟨s.readX rs1, w, ((s.readX rs2).setWidth w.bits).setWidth 64⟩ else none⟩ ::
          s.history

/-- 20_memory R59, AMOs: under `RVWMO` some value is read, and the event's store is the operator applied to it. THE
MODEL'S CHOICE (log 9, DEDUCED): the store is in the history alone and no write ends a reservation, so memory and the
other harts are unchanged. -/
def Obligations.AmoUnderRvwmo : Prop :=
  AmoRvwmoSpec Instr.amoswapW .word (fun _ src => src) ∧
  AmoRvwmoSpec Instr.amoaddW .word (fun t src => t + src) ∧
  AmoRvwmoSpec Instr.amoxorW .word (fun t src => t ^^^ src) ∧
  AmoRvwmoSpec Instr.amoandW .word (fun t src => t &&& src) ∧
  AmoRvwmoSpec Instr.amoorW .word (fun t src => t ||| src) ∧
  AmoRvwmoSpec Instr.amominW .word (fun t src => if t.toInt ≤ src.toInt then t else src) ∧
  AmoRvwmoSpec Instr.amomaxW .word (fun t src => if t.toInt ≥ src.toInt then t else src) ∧
  AmoRvwmoSpec Instr.amominuW .word (fun t src => if t.toNat ≤ src.toNat then t else src) ∧
  AmoRvwmoSpec Instr.amomaxuW .word (fun t src => if t.toNat ≥ src.toNat then t else src) ∧
  AmoRvwmoSpec Instr.amoswapD .doubleword (fun _ src => src) ∧
  AmoRvwmoSpec Instr.amoaddD .doubleword (fun t src => t + src) ∧
  AmoRvwmoSpec Instr.amoxorD .doubleword (fun t src => t ^^^ src) ∧
  AmoRvwmoSpec Instr.amoandD .doubleword (fun t src => t &&& src) ∧
  AmoRvwmoSpec Instr.amoorD .doubleword (fun t src => t ||| src) ∧
  AmoRvwmoSpec Instr.amominD .doubleword (fun t src => if t.toInt ≤ src.toInt then t else src) ∧
  AmoRvwmoSpec Instr.amomaxD .doubleword (fun t src => if t.toInt ≥ src.toInt then t else src) ∧
  AmoRvwmoSpec Instr.amominuD .doubleword (fun t src => if t.toNat ≤ src.toNat then t else src) ∧
  AmoRvwmoSpec Instr.amomaxuD .doubleword (fun t src => if t.toNat ≥ src.toNat then t else src)

/-- THE MODEL'S CHOICE (log 9, DEDUCED from 20_memory R56 and R59, which record a history and answer reads by an
oracle): under `RVWMO` no step writes memory, and the history grows by at most one event. -/
def Obligations.RvwmoStepsLeaveMemory : Prop :=
  ∀ s t : State, s.cfg.memoryModel = .rvwmo → step s = .next t →
    t.mem = s.mem ∧ (t.history = s.history ∨ ∃ e, t.history = e :: s.history)

/-- 20_memory R55, R57, R58: message passing between harts `g` and `k`, from any memory and with any values, registers
and other ordering bits: `g` stores the data word and then, with `rl`, the flag; `k` reads with `aq` a flag that is
not the initial one, and then the data word. Every global memory order makes it read the data stored. It rests on the
model's reading of the weak model (log 9, DEDUCED). -/
def Obligations.ReleaseAcquireMessagePassing : Prop :=
  ∀ (m : Memory) (g k : Nat) (data flag : Word) (oldData newData oldFlag newFlag seenFlag seenData : BitVec 32)
    (rd rs1 rs2 : Nat → Reg) (aq rl : Nat → Bool),
    data.toNat + 4 ≤ flag.toNat ∨ flag.toNat + 4 ≤ data.toNat →
    Admitted m
      [⟨g, .amo, rd 0, rs1 0, some (rs2 0), aq 0, rl 0, some ⟨data, .word, oldData.setWidth 64⟩,
          some ⟨data, .word, newData.setWidth 64⟩⟩,
        ⟨g, .amo, rd 1, rs1 1, some (rs2 1), aq 1, true, some ⟨flag, .word, oldFlag.setWidth 64⟩,
          some ⟨flag, .word, newFlag.setWidth 64⟩⟩,
        ⟨k, .loadReserved, rd 2, rs1 2, none, true, rl 2, some ⟨flag, .word, seenFlag.setWidth 64⟩, none⟩,
        ⟨k, .loadReserved, rd 3, rs1 3, none, aq 3, rl 3, some ⟨data, .word, seenData.setWidth 64⟩, none⟩] →
    seenFlag ≠ memRead m flag.toNat .word → seenData = newData

/-! ### Harts -/

/-- 10_state R33: an instruction leaves every other hart's registers, pc, fault record and refusal mark alone, and its
reservation or ends it. -/
def Obligations.OtherHartsOnlyLoseReservations : Prop :=
  ∀ (i : Instr) (s t : State) (g : Nat) (h : Hart), g ≠ s.hartId → s.hartAt g = some h →
    exec i s = .next t →
    ∃ h', t.hartAt g = some h' ∧ h'.regs = h.regs ∧ h'.pc = h.pc ∧ h'.fault = h.fault ∧
      h'.refusal = h.refusal ∧ (h'.res = h.res ∨ h'.res = none)

/-- 10_state R33: a hart cannot read another hart's state: with the other harts replaced, whatever they hold, an
instruction has the same outcome for its own hart, memory and history. -/
def Obligations.OtherHartsCannotBeRead : Prop :=
  ∀ (i : Instr) (s : State) (lower upper : List Hart), lower.length = s.lower.length →
    match exec i s, exec i { s with lower := lower, upper := upper } with
    | .next t, .next u => u.hart = t.hart ∧ u.mem = t.mem ∧ u.history = t.history ∧ u.draws = t.draws
    | .fault e, .fault f => e = f
    | .refused q, .refused r => q = r
    | _, _ => False

/-! ### Invariants -/

/-- 10_state R20, R21, R22, R25, R30: every step keeps a well-formed state well formed: memory canonical and inside MEM,
every pc an aligned `XLEN`-bit address, register 0 zero, every register an `XLEN`-bit value, every reservation aligned
and admitted, every recorded fault one of the four causes at the pc of its hart, which is not refused as well, and the
refusal mark of the whole state that of some hart. -/
def Obligations.StepKeepsStateWellFormed : Prop :=
  ∀ s t : State, s.wf = true → step s = .next t → t.wf = true

/-- The state after reset is well formed, for every legal RESET_PC, every register contents and every canonical
memory inside MEM. -/
def Obligations.ResetIsWellFormed : Prop :=
  ∀ (c : Config) (x : List Word) (xs : List (List Word)) (m : Memory), c.wfResetPc = true →
    Memory.wf m = true → (∀ p ∈ m, c.inMem p.1 = true) → (State.launch c x xs m).wf = true

/-- 70_reset R176: no step changes the program text. 10_state R32 with THE MODEL'S CHOICE of log 1 (DESIGN CHOICE: the
parameters are fields of the state, and NHARTS is the length of its list of harts): no step changes any other
parameter, and none adds or removes a hart. -/
def Obligations.ParametersNeverChange : Prop :=
  ∀ s t : State, step s = .next t → t.cfg = s.cfg ∧ t.harts.length = s.harts.length

/-- 20_memory R47: under `SC_INTERLEAVING` every step keeps the invariant that each successful store-conditional is
atomic with its load-reserved: since that load-reserved no other hart's store touched the reservation set. -/
def Obligations.LrScPairsStayAtomic : Prop :=
  ∀ s t : State, s.cfg.memoryModel = .scInterleaving → LrScInv s → step s = .next t → LrScInv t

/-- The LR/SC invariant holds after reset. -/
def Obligations.ResetMeetsLrScInvariant : Prop :=
  ∀ (c : Config) (x : List Word) (xs : List (List Word)) (m : Memory), LrScInv (State.launch c x xs m)

/-- 20_memory R59: every history that `SC_INTERLEAVING` produces satisfies the axioms of `RVWMO`: each step keeps the
history explained by its own order, and memory equal to what that order leaves. -/
def Obligations.ScHistoriesMeetRvwmoAxioms : Prop :=
  ∀ (m : Memory) (s t : State), s.cfg.memoryModel = .scInterleaving → s.cfg.wf = true → s.wf = true →
    LrScInv s → ScExplained m s → step s = .next t → ScExplained m t

/-- The empty history after reset is explained from the memory the machine starts with. -/
def Obligations.ResetIsExplained : Prop :=
  ∀ (c : Config) (x : List Word) (xs : List (List Word)) (m : Memory),
    ScExplained m (State.launch c x xs m)

/-! ### Turns and runs -/

/-- 70_reset R178, R179, 60_exceptions R158, 20_memory R50: a hart's step is enabled where it has neither faulted, been
refused nor ended, and the environment's where a reservation is valid. THE MODEL'S CHOICE (log 4, DESIGN CHOICE): the
schedule is followed, its turns that are not enabled (of a hart that is missing or has stopped, or of a reservation
not held) are skipped and change nothing, and where it has run out an enabled turn is drawn. -/
def Obligations.NextTurnIsEnabled : Prop :=
  ∀ s : State,
    (∀ g, s.enabled (.execute g) = true ↔
      ∃ h, s.hartAt g = some h ∧ h.fault = none ∧ h.refusal = none ∧ h.pc ∉ s.cfg.endPc) ∧
    (∀ g, s.enabled (.loseReservation g) = true ↔ ∃ h r, s.hartAt g = some h ∧ h.res = some r) ∧
    (∀ t rest, s.schedule = t :: rest → s.enabled t = true →
      s.nextTurn = some (t, { s with schedule := rest })) ∧
    (∀ t rest, s.schedule = t :: rest → s.enabled t = false →
      step s = step { s with schedule := rest }) ∧
    (∀ t, s.schedule = [] → s.enabled t = true →
      ∃ u, s.enabled u = true ∧ s.nextTurn = some (u, { s with draws := s.draws + 1 }))

/-- 60_exceptions R158, 70_reset R179, 00_scope R14: no hart is stuck: on its turn a hart completes with its pc
advanced, faults, or is refused, and the machine goes on as long as some turn is enabled. THE MODEL'S CHOICE (log 7,
DEDUCED): where none is, the step answers a refusal that is marked, else a fault that is recorded, and `runOver`
exactly where the run is over. -/
def Obligations.StepsWhileATurnIsEnabled : Prop :=
  ∀ s : State,
    ((∃ a, s.enabled a = true) ↔ ∃ t, step s = .next t) ∧
    (∀ g v, s.nextTurn = some (.execute g, v) → ∃ h t h', s.hartAt g = some h ∧ step s = .next t ∧
      t.hartAt g = some h' ∧
      ((h'.pc.toNat = (h.pc.toNat + 4) % 2 ^ s.cfg.xlen.bits ∧ h'.fault = none ∧ h'.refusal = none) ∨
        (∃ f, h' = { h with fault := some f }) ∨ ∃ r, h' = { h with refusal := some r })) ∧
    ((∀ a, s.enabled a = false) →
      (∀ r, s.refusal = some r → step s = .refused r) ∧
      ((∃ h ∈ s.harts, h.refusal.isSome = true) → ∃ r, step s = .refused r) ∧
      (NothingRefused s → (∃ h ∈ s.harts, h.fault.isSome = true) →
        ∃ f, (∃ h ∈ s.harts, h.fault = some f) ∧ step s = .fault (.exception f)) ∧
      (step s = .fault .runOver ↔ RunOver s))

/-- 60_exceptions R158, 70_reset R178: programs made only of the instructions in scope are straight-line: whatever the
schedule, no run is infinite, and no fairness is assumed. -/
def Obligations.EveryRunEnds : Prop :=
  ∀ run : Nat → State, (run 0).cfg.wf = true → (run 0).wf = true → ¬ IsRun run
end

