-- ==== Sys2Proof/Laws/Decode.lean ====
section
/-!
SUPPORT. The laws of the instruction format: taking fields apart and putting them together are inverse, and
what the decoder answers on given fields.
-/

namespace Sys2Proof

/-- The fields of an assembled word are the fields it was assembled from. -/
@[simp] theorem fieldsOf_assemble (f : Fields) : fieldsOf (assemble f) = f := by
  obtain ⟨f5, aq, rl, rs2, rs1, f3, rd, op⟩ := f
  simp only [fieldsOf, assemble, Fields.mk.injEq]
  refine ⟨?_, ?_, ?_, ?_, ?_, ?_, ?_, ?_⟩
  case refine_2 =>
    simp only [BitVec.getLsbD_append]
    simp
  case refine_3 =>
    simp only [BitVec.getLsbD_append]
    simp
  all_goals
    apply BitVec.eq_of_getLsbD_eq
    intro i hi
    simp only [BitVec.getLsbD_extractLsb', BitVec.getLsbD_append]
    interval_cases i <;> simp

/-- A word is assembled from its fields. -/
@[simp] theorem assemble_fieldsOf (w : InstrWord) : assemble (fieldsOf w) = w := by
  apply BitVec.eq_of_getLsbD_eq
  intro i hi
  simp only [fieldsOf, assemble, BitVec.getLsbD_extractLsb', BitVec.getLsbD_append]
  interval_cases i <;> simp

/-- What the decoder answers on an assembled word is decided by its fields (30_encoding R78). -/
theorem decode_assemble (c : Config) (f : Fields) :
    decode c (assemble f) =
      if f.opcode ≠ amoOpcode then .error .notAnAtomic
      else if f.funct3 = Width.funct3 .word then decodeWordForm f
      else if f.funct3 = Width.funct3 .doubleword then
        if c.admitsD then decodeDoublewordForm f else .error .doublewordFormNotAdmitted
      else .error .unknownWidth := by
  simp only [decode, fieldsOf_assemble]

/-- The word of four bytes and the bytes of a word. -/
@[simp] theorem wordOfBytes_bytesOfWord (w : InstrWord) :
    wordOfBytes (w.extractLsb' 0 8) (w.extractLsb' 8 8) (w.extractLsb' 16 8) (w.extractLsb' 24 8) = w := by
  apply BitVec.eq_of_getLsbD_eq
  intro i hi
  simp only [wordOfBytes, BitVec.getLsbD_extractLsb', BitVec.getLsbD_append]
  interval_cases i <;> simp

/-- Decoding the bytes of a word is decoding the word. -/
theorem decodeBytes_bytesOfWord (c : Config) (w : InstrWord) (rest : List Byte) :
    decodeBytes c (bytesOfWord w ++ rest) = (decode c w).map fun i => (i, rest) := by
  simp only [bytesOfWord, List.cons_append, List.nil_append, decodeBytes, wordOfBytes_bytesOfWord]
  cases decode c w <;> rfl

/-- Every opcode of the encoder is the opcode of 30_encoding R72. -/
theorem encodeFields_opcode (i : Instr) : (encodeFields i).opcode = amoOpcode := by
  cases i <;> rfl

/-- The width field of the encoder (30_encoding R73, 42_rv64a R120). -/
theorem encodeFields_funct3 (i : Instr) : (encodeFields i).funct3 = i.width.funct3 := by
  cases i <;> rfl

end Sys2Proof
end

