-- ==== Sys2Proof/Laws/Rvwmo.lean ====
section
/-!
SUPPORT. Laws of the weak memory model for a history judged in its own order: the operations of a history in the
order of its steps (20_memory R59, "`SC_INTERLEAVING` is one model of these axioms").
-/

namespace Sys2Proof.Machine

/-! ### The operations of a history and their order -/

/-- The order of the steps: an earlier event, or the load before the store of one event. -/
def MemOp.before (a b : MemOp) : Prop :=
  a.event < b.event ∨ (a.event = b.event ∧ a.isStore = false ∧ b.isStore = true)

theorem MemOp.before_irrefl (a : MemOp) : ¬ a.before a := by
  rintro (h | ⟨-, h, h'⟩)
  · omega
  · simp [h] at h'

theorem MemOp.before_asymm {a b : MemOp} (h : a.before b) : ¬ b.before a := by
  rintro (h' | ⟨e', f', g'⟩) <;> rcases h with h | ⟨e, f, g⟩
  all_goals first | omega | simp_all

theorem mem_opsOfEvent {k : Nat} {e : Event} {o : MemOp} :
    o ∈ opsOfEvent k e ↔ o.event = k ∧ (if o.isStore then e.store else e.load).isSome = true := by
  obtain ⟨j, b⟩ := o
  unfold opsOfEvent
  cases e.load <;> cases e.store <;> cases b <;> simp

theorem opsFrom_append (k : Nat) (h : List Event) (e : Event) :
    opsFrom k (h ++ [e]) = opsFrom k h ++ opsOfEvent (k + h.length) e := by
  induction h generalizing k with
  | nil => simp [opsFrom]
  | cons d rest ih => simp [opsFrom, ih, List.append_assoc, Nat.add_comm, Nat.add_left_comm]

/-- One more event adds its operations at the end. -/
theorem opsOf_append (h : List Event) (e : Event) : opsOf (h ++ [e]) = opsOf h ++ opsOfEvent h.length e := by
  simp [opsOf, opsFrom_append]

theorem mem_opsFrom_event {k : Nat} {h : List Event} {o : MemOp} (ho : o ∈ opsFrom k h) :
    k ≤ o.event ∧ o.event < k + h.length := by
  induction h generalizing k with
  | nil => cases ho
  | cons d rest ih =>
    rcases List.mem_append.1 ho with ho | ho
    · have := (mem_opsOfEvent.1 ho).1
      simp
      omega
    · have := ih ho
      simp
      omega

/-- An operation of a history belongs to one of its events. -/
theorem mem_opsOf_event {h : List Event} {o : MemOp} (ho : o ∈ opsOf h) : o.event < h.length := by
  have := mem_opsFrom_event ho
  omega

theorem opsFrom_pairwise (k : Nat) (h : List Event) : (opsFrom k h).Pairwise MemOp.before := by
  induction h generalizing k with
  | nil => exact .nil
  | cons d rest ih =>
    refine List.pairwise_append.2 ⟨?_, ih _, fun a ha b hb => ?_⟩
    · unfold opsOfEvent
      cases d.load <;> cases d.store <;> simp [MemOp.before]
    · have h1 := (mem_opsOfEvent.1 ha).1
      have h2 := mem_opsFrom_event hb
      exact .inl (by omega)

/-- The operations stand in the order of the steps. -/
theorem opsOf_pairwise (h : List Event) : (opsOf h).Pairwise MemOp.before :=
  opsFrom_pairwise 0 h

/-- In the order of the steps, one operation precedes another globally exactly when it comes before it. -/
theorem globallyBefore_opsOf {h : List Event} {a b : MemOp} (ha : a ∈ opsOf h) (hb : b ∈ opsOf h) :
    globallyBefore (opsOf h) a b = true ↔ a.before b := by
  have key : ∀ {g : List MemOp}, g.Pairwise MemOp.before → ∀ {a b : MemOp}, a ∈ g → b ∈ g →
      a.before b → g.idxOf a < g.idxOf b := by
    intro g
    induction g with
    | nil => intro _ a b ha
             cases ha
    | cons c rest ih =>
      intro hp a b ha hb hab
      rw [List.pairwise_cons] at hp
      have hcb : c ≠ b := by
        rintro rfl
        rcases List.mem_cons.1 ha with rfl | ha
        · exact MemOp.before_irrefl _ hab
        · exact MemOp.before_asymm (hp.1 a ha) hab
      rw [List.idxOf_cons_ne _ hcb]
      by_cases hca : c = a
      · subst hca
        simp
      · rw [List.idxOf_cons_ne _ hca]
        have := ih hp.2 (by simpa [Ne.symm hca] using ha) (by simpa [Ne.symm hcb] using hb) hab
        omega
  unfold globallyBefore
  rw [decide_eq_true_eq]
  refine ⟨fun hlt => ?_, fun hab => key (opsOf_pairwise h) ha hb hab⟩
  by_contra hn
  rcases Nat.lt_trichotomy a.event b.event with he | he | he
  · exact hn (.inl he)
  · have hne : a ≠ b := by
      rintro rfl
      omega
    have : b.before a := by
      obtain ⟨i, x⟩ := a
      obtain ⟨j, y⟩ := b
      simp only at he
      subst he
      refine .inr ⟨rfl, ?_⟩
      cases x <;> cases y <;> simp_all [MemOp.before]
    have := key (opsOf_pairwise h) hb ha this
    omega
  · have := key (opsOf_pairwise h) hb ha (.inl he)
    omega

/-- Program order is part of the order of the steps. -/
theorem before_of_programBefore {h : List Event} {a b : MemOp} (hp : programBefore h a b = true) : a.before b := by
  simp only [programBefore, eventBefore, Bool.or_eq_true, Bool.and_eq_true, decide_eq_true_eq, beq_iff_eq,
    Bool.not_eq_true'] at hp
  rcases hp with hp | ⟨⟨h1, h2⟩, h3⟩
  · exact .inl hp.1
  · exact .inr ⟨h1, h2, h3⟩

/-- The order of the steps keeps preserved program order. -/
theorem keepsProgramOrder_opsOf (h : List Event) : keepsProgramOrder h (opsOf h) = true := by
  simp only [keepsProgramOrder, List.all_eq_true, Bool.or_eq_true, Bool.not_eq_true']
  intro a ha b hb
  by_cases hp : programBefore h a b = true
  · exact .inr ((globallyBefore_opsOf ha hb).2 (before_of_programBefore hp))
  · left
    simp [preserved, hp]

/-- A history is explained by its own order exactly when the loads and the pairs are right in it. -/
theorem explains_opsOf {m : Memory} {h : List Event} :
    explains m h (opsOf h) = true ↔
      loadValueAxiom m h (opsOf h) = true ∧ atomicityAxiom h (opsOf h) = true := by
  simp [explains, keepsProgramOrder_opsOf, List.isPerm_iff]

/-! ### One more event -/

section Append

variable {h : List Event} {e : Event}

theorem accessOf_append {o : MemOp} (ho : o.event < h.length) : accessOf (h ++ [e]) o = accessOf h o := by
  simp [accessOf, List.getElem?_append_left ho]

theorem accessOf_last (b : Bool) : accessOf (h ++ [e]) ⟨h.length, b⟩ = if b then e.store else e.load := by
  simp [accessOf]

theorem bytesOf_append {o : MemOp} (ho : o.event < h.length) : bytesOf (h ++ [e]) o = bytesOf h o := by
  simp [bytesOf, accessOf_append ho]

theorem accessesByte_append {o : MemOp} (ho : o.event < h.length) (x : Nat) :
    accessesByte (h ++ [e]) o x = accessesByte h o x := by
  simp [accessesByte, bytesOf_append ho]

theorem byteValue_append {o : MemOp} (ho : o.event < h.length) (x : Nat) :
    byteValue (h ++ [e]) o x = byteValue h o x := by
  simp [byteValue, accessOf_append ho]

theorem sameHart_append {i j : Nat} (hi : i < h.length) (hj : j < h.length) :
    sameHart (h ++ [e]) i j = sameHart h i j := by
  simp [sameHart, List.getElem?_append_left hi, List.getElem?_append_left hj]

theorem eventBefore_append {i j : Nat} (hj : j < h.length) : eventBefore (h ++ [e]) i j = eventBefore h i j := by
  unfold eventBefore
  by_cases hij : i < j
  · rw [sameHart_append (by omega) hj]
  · simp [hij]

theorem latestBefore_append {j : Nat} (hj : j < h.length) (p : Event → Bool) :
    latestBefore (h ++ [e]) j p = latestBefore h j p := by
  unfold latestBefore
  congr 1
  refine List.filter_congr fun i hi => ?_
  have : i < h.length := by
    have := List.mem_range.1 hi
    omega
  rw [eventBefore_append hj, List.getElem?_append_left this]

theorem paired_append {a b : MemOp} (hb : b.event < h.length) : paired (h ++ [e]) a b = paired h a b := by
  simp [paired, List.getElem?_append_left hb, latestBefore_append hb]

/-- The stores to a byte that come before an operation, in the order of the steps. -/
def storesBefore (h : List Event) (l : MemOp) (x : Nat) : List MemOp :=
  (opsOf h).filter fun s => s.isStore && accessesByte h s x && globallyBefore (opsOf h) s l

/-- In the order of the steps a load returns from the latest store before it. -/
theorem returnsFrom_opsOf {l : MemOp} (hl : l ∈ opsOf h) (x : Nat) :
    returnsFrom h (opsOf h) l x = (storesBefore h l x).getLast? := by
  unfold returnsFrom storesBefore
  congr 1
  refine List.filter_congr fun s hs => ?_
  by_cases hp : programBefore h s l = true
  · rw [hp, (globallyBefore_opsOf hs hl).2 (before_of_programBefore hp)]
    simp
  · simp [hp]

/-- All stores of a history to a byte. -/
def storesTo (h : List Event) (x : Nat) : List MemOp :=
  (opsOf h).filter fun s => s.isStore && accessesByte h s x

theorem finalByte_eq (m : Memory) (x : Nat) :
    finalByte m h (opsOf h) x =
      match (storesTo h x).getLast? with
      | some s => byteValue h s x
      | none => memByte m x :=
  rfl

theorem mem_append_cases {o : MemOp} (ho : o ∈ opsOf (h ++ [e])) :
    (o ∈ opsOf h ∧ o.event < h.length) ∨ (o ∈ opsOfEvent h.length e ∧ o.event = h.length) := by
  rw [opsOf_append] at ho
  rcases List.mem_append.1 ho with ho | ho
  · exact .inl ⟨ho, mem_opsOf_event ho⟩
  · exact .inr ⟨ho, (mem_opsOfEvent.1 ho).1⟩

theorem mem_opsOf_append {o : MemOp} (ho : o ∈ opsOf h) : o ∈ opsOf (h ++ [e]) := by
  rw [opsOf_append]
  exact List.mem_append_left _ ho

/-- An earlier load returns from the same store. -/
theorem storesBefore_append {l : MemOp} (hl : l ∈ opsOf h) (x : Nat) :
    storesBefore (h ++ [e]) l x = storesBefore h l x := by
  have hl' : l ∈ opsOf (h ++ [e]) := mem_opsOf_append hl
  have hle := mem_opsOf_event hl
  unfold storesBefore
  rw [opsOf_append, List.filter_append]
  have h2 : ((opsOfEvent h.length e).filter fun s =>
      s.isStore && accessesByte (h ++ [e]) s x && globallyBefore (opsOf h ++ opsOfEvent h.length e) s l) = [] := by
    rw [List.filter_eq_nil_iff]
    intro s hs hb
    rw [← opsOf_append] at hb
    simp only [Bool.and_eq_true] at hb
    have hs' : s ∈ opsOf (h ++ [e]) := by
      rw [opsOf_append]
      exact List.mem_append_right _ hs
    have := (globallyBefore_opsOf hs' hl').1 hb.2
    have he := (mem_opsOfEvent.1 hs).1
    rcases this with this | this <;> omega
  rw [h2, List.append_nil]
  refine List.filter_congr fun s hs => ?_
  rw [← opsOf_append, accessesByte_append (mem_opsOf_event hs)]
  congr 1
  rw [Bool.eq_iff_iff, globallyBefore_opsOf (mem_opsOf_append hs) hl', globallyBefore_opsOf hs hl]

/-- A load of the last event returns from the latest store of the history. -/
theorem storesBefore_last {l : MemOp} (hl : l ∈ opsOfEvent h.length e) (hload : l.isStore = false) (x : Nat) :
    storesBefore (h ++ [e]) l x = storesTo h x := by
  have hl' : l ∈ opsOf (h ++ [e]) := by
    rw [opsOf_append]
    exact List.mem_append_right _ hl
  have hle := (mem_opsOfEvent.1 hl).1
  unfold storesBefore storesTo
  rw [opsOf_append, List.filter_append]
  have h2 : ((opsOfEvent h.length e).filter fun s =>
      s.isStore && accessesByte (h ++ [e]) s x && globallyBefore (opsOf h ++ opsOfEvent h.length e) s l) = [] := by
    rw [List.filter_eq_nil_iff]
    intro s hs hb
    rw [← opsOf_append] at hb
    simp only [Bool.and_eq_true] at hb
    have hs' : s ∈ opsOf (h ++ [e]) := by
      rw [opsOf_append]
      exact List.mem_append_right _ hs
    have := (globallyBefore_opsOf hs' hl').1 hb.2
    have he := (mem_opsOfEvent.1 hs).1
    rcases this with this | ⟨-, -, this⟩
    · omega
    · simp [hload] at this
  rw [h2, List.append_nil]
  refine List.filter_congr fun s hs => ?_
  have hse := mem_opsOf_event hs
  rw [← opsOf_append, accessesByte_append hse,
    (globallyBefore_opsOf (mem_opsOf_append hs) hl').2 (.inl (by omega))]
  simp

/-- The stores of a history with one more event. -/
theorem storesTo_append (x : Nat) :
    storesTo (h ++ [e]) x =
      storesTo h x ++ (opsOfEvent h.length e).filter fun s => s.isStore && accessesByte (h ++ [e]) s x := by
  unfold storesTo
  rw [opsOf_append, List.filter_append]
  congr 1
  refine List.filter_congr fun s hs => ?_
  rw [accessesByte_append (mem_opsOf_event hs)]

theorem mem_bytesOf {o : MemOp} {x : Nat} :
    x ∈ bytesOf h o ↔ ∃ a, accessOf h o = some a ∧ ∃ i < a.size.bytes, a.addr.toNat + i = x := by
  unfold bytesOf
  cases accessOf h o <;> simp

/-- The loads stay right when the last event reads what the history leaves. -/
theorem loadValueAxiom_append {m : Memory} (hh : loadValueAxiom m h (opsOf h) = true)
    (he : ∀ a, e.load = some a → ∀ i < a.size.bytes,
      a.value.extractLsb' (8 * i) 8 = finalByte m h (opsOf h) (a.addr.toNat + i)) :
    loadValueAxiom m (h ++ [e]) (opsOf (h ++ [e])) = true := by
  simp only [loadValueAxiom, List.all_eq_true, Bool.or_eq_true, beq_iff_eq] at hh ⊢
  intro l hl
  rcases mem_append_cases hl with ⟨ho, hlt⟩ | ⟨hn, hlt⟩
  · rcases hh l ho with hs | hv
    · exact .inl hs
    · right
      intro x hx
      rw [bytesOf_append hlt] at hx
      have := hv x hx
      rw [returnsFrom_opsOf ho] at this
      rw [returnsFrom_opsOf hl, storesBefore_append ho, byteValue_append hlt, this]
      cases hg : (storesBefore h l x).getLast? with
      | none => rfl
      | some s =>
        have hs : s ∈ opsOf h := (List.mem_filter.1 (List.mem_of_getLast? hg)).1
        exact (byteValue_append (mem_opsOf_event hs) x).symm
  · by_cases hs : l.isStore = true
    · exact .inl hs
    · right
      intro x hx
      rw [Bool.not_eq_true] at hs
      obtain ⟨a, ha, i, hi, rfl⟩ := mem_bytesOf.1 hx
      have hl' : l = ⟨h.length, false⟩ := by
        obtain ⟨k, b⟩ := l
        simp_all
      rw [returnsFrom_opsOf hl, storesBefore_last hn hs]
      have hv := he a (by rw [hl', accessOf_last] at ha; simpa using ha) i hi
      rw [finalByte_eq] at hv
      rw [byteValue, ha]
      simp only [Nat.add_sub_cancel_left, hv]
      cases hg : (storesTo h (a.addr.toNat + i)).getLast? with
      | none => rfl
      | some s =>
        have hs : s ∈ opsOf h := (List.mem_filter.1 (List.mem_of_getLast? hg)).1
        exact (byteValue_append (mem_opsOf_event hs) _).symm

theorem getLast_max {g : List MemOp} (hp : g.Pairwise MemOp.before) {s o : MemOp} (hs : g.getLast? = some s)
    (ho : o ∈ g) : o = s ∨ o.before s := by
  obtain ⟨ys, rfl⟩ := List.getLast?_eq_some_iff.1 hs
  rcases List.mem_append.1 ho with ho | ho
  · exact .inr ((List.pairwise_append.1 hp).2.2 o ho s (by simp))
  · exact .inl (by simpa using ho)

/-- No store to a byte comes between a load of the byte and what it returns from. -/
theorem not_before_of_afterSource {l o : MemOp} {x : Nat} (hl : l ∈ opsOf h) (ho : o ∈ opsOf h)
    (hst : o.isStore = true) (hx : accessesByte h o x = true)
    (ha : afterSource (opsOf h) (returnsFrom h (opsOf h) l x) o = true) : ¬ o.before l := by
  intro hb
  have hm : o ∈ storesBefore h l x := by
    simp [storesBefore, ho, hst, hx, (globallyBefore_opsOf ho hl).2 hb]
  rw [returnsFrom_opsOf hl] at ha
  cases hg : (storesBefore h l x).getLast? with
  | none =>
    rw [List.getLast?_eq_none_iff] at hg
    rw [hg] at hm
    cases hm
  | some s =>
    have hs : s ∈ opsOf h := (List.mem_filter.1 (List.mem_of_getLast? hg)).1
    rw [hg] at ha
    have hso := (globallyBefore_opsOf hs ho).1 ha
    rcases getLast_max ((opsOf_pairwise h).sublist List.filter_sublist) hg hm with rfl | hos
    · exact MemOp.before_irrefl _ hso
    · exact MemOp.before_asymm hso hos

/-- What a load returns from comes before every operation after the load. -/
theorem afterSource_of_before {l w : MemOp} {x : Nat} (hl : l ∈ opsOf h) (hw : w ∈ opsOf h)
    (hlw : l.event < w.event ∨ (l.event = w.event ∧ l.isStore = false ∧ w.isStore = true)) :
    afterSource (opsOf h) (returnsFrom h (opsOf h) l x) w = true := by
  rw [returnsFrom_opsOf hl]
  cases hg : (storesBefore h l x).getLast? with
  | none => rfl
  | some s =>
    have hs := List.mem_filter.1 (List.mem_of_getLast? hg)
    have hsl := hs.2
    simp only [Bool.and_eq_true] at hsl
    have hb := (globallyBefore_opsOf hs.1 hl).1 hsl.2
    refine (globallyBefore_opsOf hs.1 hw).2 ?_
    rcases hb with hb | ⟨h1, h2, h3⟩
    · rcases hlw with hlw | ⟨h4, -, -⟩
      · exact .inl (by omega)
      · exact .inl (by omega)
    · rcases hlw with hlw | ⟨-, h5, -⟩
      · exact .inl (by omega)
      · simp [h5] at h3

/-- The pairs stay right when no other hart has stored to a byte of the last event's load-reserved since. -/
theorem atomicityAxiom_append (hh : atomicityAxiom h (opsOf h) = true)
    (he : ∀ i, e.kind = .storeConditional → e.store.isSome = true →
      latestBefore (h ++ [e]) h.length (·.kind == .loadReserved) = some i →
      ∀ o ∈ opsOf h, i < o.event → o.isStore = true → ∀ x ∈ bytesOf h ⟨i, false⟩,
        accessesByte h o x = true → sameHart h o.event i = true) :
    atomicityAxiom (h ++ [e]) (opsOf (h ++ [e])) = true := by
  simp only [atomicityAxiom, List.all_eq_true, Bool.or_eq_true, Bool.and_eq_true, Bool.not_eq_true'] at hh ⊢
  intro r hr w hw
  by_cases hp : paired (h ++ [e]) r w = true
  swap
  · exact .inl (by simpa using hp)
  right
  have hp' := hp
  simp only [paired, Bool.and_eq_true, Bool.not_eq_true', Bool.or_eq_true, beq_iff_eq] at hp'
  obtain ⟨⟨hrl, hws⟩, hrw⟩ := hp'
  have hrlt : r.event < w.event ∨ (r.event = w.event ∧ r.isStore = false ∧ w.isStore = true) := by
    rcases hrw with hrw | ⟨-, hrw⟩
    · exact .inr ⟨hrw, hrl, hws⟩
    · left
      have := List.mem_of_getLast? hrw
      simp at this
      exact this.1
  intro x hx
  refine ⟨afterSource_of_before hr hw hrlt, fun o ho => ?_⟩
  by_contra hn
  rw [Bool.not_eq_false, Bool.and_eq_true, Bool.and_eq_true, Bool.and_eq_true, Bool.and_eq_true,
    Bool.not_eq_true'] at hn
  obtain ⟨⟨⟨⟨hos, hox⟩, hsame⟩, hao⟩, how⟩ := hn
  have how := (globallyBefore_opsOf ho hw).1 how
  have hro := not_before_of_afterSource hr ho hos hox hao
  rcases mem_append_cases ho with ⟨ho', hoe⟩ | ⟨-, hoe⟩
  swap
  · rcases how with how | ⟨-, how, -⟩
    · rcases mem_append_cases hw with ⟨-, hwe⟩ | ⟨-, hwe⟩ <;> omega
    · simp [hos] at how
  rcases mem_append_cases hw with ⟨hw', hwe⟩ | ⟨hw', hwe⟩
  · -- both old
    have hre : r.event < h.length := by omega
    have hr' : r ∈ opsOf h := by
      rcases mem_append_cases hr with ⟨hr', -⟩ | ⟨-, hre'⟩
      · exact hr'
      · omega
    rw [paired_append hwe] at hp
    rcases hh r hr' w hw' with hh | hh
    · simp [hp] at hh
    · rw [bytesOf_append hre] at hx
      have := (hh x hx).2 o ho'
      rw [accessesByte_append hoe] at hox
      rw [sameHart_append hoe hre] at hsame
      simp only [hos, hox, hsame, (globallyBefore_opsOf ho' hw').2 how, Bool.not_false, Bool.and_true,
        Bool.true_and] at this
      rw [returnsFrom_opsOf hr, storesBefore_append hr'] at hao
      rw [returnsFrom_opsOf hr'] at this
      cases hg : (storesBefore h r x).getLast? with
      | none => simp [hg, afterSource] at this
      | some s =>
        have hs : s ∈ opsOf h := (List.mem_filter.1 (List.mem_of_getLast? hg)).1
        rw [hg] at hao this
        have h1 := (globallyBefore_opsOf (mem_opsOf_append hs) ho).1 hao
        have h2 := (globallyBefore_opsOf hs ho').2 h1
        simp [afterSource, h2] at this
  · rcases hrw with hrw | ⟨hk, hrw⟩
    · exact hro (.inl (by omega))
    · rw [hwe] at hk hrw
      simp only [List.getElem?_concat_length, Option.map_some, Option.getD_some, beq_iff_eq] at hk
      have hst : e.store.isSome = true := by
        have := (mem_opsOfEvent.1 hw').2
        simpa [hws] using this
      have hre : r.event < h.length := by
        have := List.mem_of_getLast? hrw
        simp at this
        exact this.1
      have hne : o.event ≠ r.event := by
        intro heq
        rw [heq] at hsame
        simp [sameHart, List.getElem?_append_left hre] at hsame
        cases hd : h[r.event]? with
        | none =>
          rw [List.getElem?_eq_none_iff] at hd
          omega
        | some d => simp [hd] at hsame
      have hlt : r.event < o.event := by
        rcases Nat.lt_trichotomy r.event o.event with h1 | h1 | h1
        · exact h1
        · exact absurd h1.symm hne
        · exact absurd (.inl h1) hro
      rw [bytesOf_append hre] at hx
      rw [accessesByte_append hoe] at hox
      have hr0 : r = ⟨r.event, false⟩ := by
        obtain ⟨k, b⟩ := r
        simp_all
      rw [hr0] at hx
      have := he r.event hk hst hrw o ho' hlt hos x hx hox
      rw [sameHart_append hoe hre] at hsame
      simp [this] at hsame

end Append

/-- What a history with one more event leaves in a byte. -/
theorem finalByte_append {m : Memory} {h : List Event} {e : Event} (x : Nat) :
    finalByte m (h ++ [e]) (opsOf (h ++ [e])) x =
      match e.store with
      | none => finalByte m h (opsOf h) x
      | some a =>
        if x < a.addr.toNat ∨ a.addr.toNat + a.size.bytes ≤ x then finalByte m h (opsOf h) x
        else a.value.extractLsb' (8 * (x - a.addr.toNat)) 8 := by
  rw [finalByte_eq, finalByte_eq, storesTo_append]
  have old : (match (storesTo h x).getLast? with
      | some s => byteValue (h ++ [e]) s x
      | none => memByte m x) = match (storesTo h x).getLast? with
      | some s => byteValue h s x
      | none => memByte m x := by
    cases hg : (storesTo h x).getLast? with
    | none => rfl
    | some s =>
      have hs : s ∈ opsOf h := (List.mem_filter.1 (List.mem_of_getLast? hg)).1
      exact byteValue_append (mem_opsOf_event hs) _
  cases hst : e.store with
  | none =>
    have : (opsOfEvent h.length e).filter (fun s => s.isStore && accessesByte (h ++ [e]) s x) = [] := by
      rw [List.filter_eq_nil_iff]
      rintro ⟨k, b⟩ hs
      have := mem_opsOfEvent.1 hs
      cases b
      · simp
      · simp [hst] at this
    rw [this, List.append_nil]
    exact old
  | some a =>
    have hacc : accessesByte (h ++ [e]) ⟨h.length, true⟩ x =
        decide (a.addr.toNat ≤ x ∧ x < a.addr.toNat + a.size.bytes) := by
      rw [Bool.eq_iff_iff, accessesByte, List.contains_iff_mem, mem_bytesOf]
      simp only [accessOf_last, if_true, hst, Option.some.injEq, exists_eq_left', decide_eq_true_eq]
      exact ⟨by rintro ⟨i, hi, rfl⟩; omega, fun _ => ⟨x - a.addr.toNat, by omega, by omega⟩⟩
    have : (opsOfEvent h.length e).filter (fun s => s.isStore && accessesByte (h ++ [e]) s x) =
        if x < a.addr.toNat ∨ a.addr.toNat + a.size.bytes ≤ x then [] else [⟨h.length, true⟩] := by
      have : (opsOfEvent h.length e).filter (fun s => s.isStore && accessesByte (h ++ [e]) s x) =
          [⟨h.length, true⟩].filter (fun s => s.isStore && accessesByte (h ++ [e]) s x) := by
        unfold opsOfEvent
        cases e.load <;> simp [hst]
      rw [this, List.filter_cons, hacc]
      simp only [Bool.true_and, decide_eq_true_eq, List.filter_nil]
      split <;> split <;> first | rfl | omega
    rw [this]
    by_cases hcd : x < a.addr.toNat ∨ a.addr.toNat + a.size.bytes ≤ x
    · simp only [if_pos hcd]
      rw [List.append_nil]
      exact old
    · simp only [if_neg hcd]
      rw [List.getLast?_append]
      simp [byteValue, accessOf_last, hst]

end Sys2Proof.Machine
end

