-- ==== Sys2Proof/Laws/Memory.lean ====
section
/-!
SUPPORT. The laws of memory: reading after writing, what a write leaves alone, and that every operation keeps
the canonical form.
-/

namespace Sys2Proof.Machine

theorem Memory.wf_cons {a : Nat} {v : Byte} {rest : Memory} :
    Memory.wf ((a, v) :: rest) = true ↔
      v ≠ unlistedByte ∧ (∀ p ∈ rest, a < p.1) ∧ Memory.wf rest = true := by
  simp [Memory.wf, and_assoc]

@[simp] theorem Memory.wf_nil : Memory.wf [] = true :=
  rfl

/-- An address below every listed one reads as the unlisted byte. -/
theorem memByte_eq_unlisted : ∀ {m : Memory} {a : Nat}, (∀ p ∈ m, a < p.1) → memByte m a = unlistedByte
  | [], _, _ => rfl
  | (b, v) :: rest, a, h => by
    have hb : a < b := h (b, v) (by simp)
    rw [memByte, if_neg (by omega)]
    exact memByte_eq_unlisted fun p hp => h p (by simp [hp])

/-- Every address a write lists was listed before or is the one written. -/
theorem mem_memSetByte : ∀ {m : Memory} {a : Nat} {v : Byte} {p : Host.Cell},
    p ∈ memSetByte m a v → p ∈ m ∨ p.1 = a
  | [], a, v, p, h => by
    unfold memSetByte at h
    split at h <;> simp_all
  | (b, w) :: rest, a, v, p, h => by
    unfold memSetByte at h
    split at h
    · split at h <;> simp_all
      rcases h with h | h | h <;> simp_all
    · split at h
      · split at h <;> simp_all
        rcases h with h | h <;> simp_all
      · rcases List.mem_cons.1 h with h | h
        · simp [h]
        · rcases mem_memSetByte h with h | h <;> simp [h]

/-- A write keeps the canonical form. -/
theorem memSetByte_wf : ∀ {m : Memory} (a : Nat) (v : Byte), Memory.wf m = true →
    Memory.wf (memSetByte m a v) = true
  | [], a, v, _ => by
    unfold memSetByte
    split
    · rfl
    · exact Memory.wf_cons.2 ⟨‹_›, by simp, rfl⟩
  | (b, w) :: rest, a, v, hm => by
    obtain ⟨hw, hlt, hrest⟩ := Memory.wf_cons.1 hm
    unfold memSetByte
    split
    · split
      · exact hm
      · refine Memory.wf_cons.2 ⟨‹_›, ?_, hm⟩
        intro p hp
        rcases List.mem_cons.1 hp with rfl | hp
        · assumption
        · exact lt_trans ‹_› (hlt p hp)
    · split
      · split
        · exact hrest
        · subst_vars
          exact Memory.wf_cons.2 ⟨‹_›, hlt, hrest⟩
      · refine Memory.wf_cons.2 ⟨hw, ?_, memSetByte_wf a v hrest⟩
        intro p hp
        rcases mem_memSetByte hp with hp | hp
        · exact hlt p hp
        · omega

/-- Reading after writing one byte. -/
theorem memByte_memSetByte : ∀ {m : Memory} (a b : Nat) (v : Byte), Memory.wf m = true →
    memByte (memSetByte m a v) b = if b = a then v else memByte m b
  | [], a, b, v, _ => by
    unfold memSetByte
    by_cases hv : v = unlistedByte <;> simp [hv, memByte]
  | (c, w) :: rest, a, b, v, hm => by
    obtain ⟨hw, hlt, hrest⟩ := Memory.wf_cons.1 hm
    unfold memSetByte
    split
    · split
      · subst v
        by_cases hb : b = a
        · subst b
          rw [if_pos rfl]
          refine memByte_eq_unlisted fun p hp => ?_
          rcases List.mem_cons.1 hp with rfl | hp
          · assumption
          · exact lt_trans ‹_› (hlt p hp)
        · rw [if_neg hb]
      · rw [memByte]
    · split
      · subst a
        split
        · subst v
          by_cases hb : b = c
          · subst b
            rw [if_pos rfl]
            exact memByte_eq_unlisted hlt
          · simp [hb, memByte]
        · by_cases hb : b = c <;> simp [hb, memByte]
      · rw [memByte, memByte_memSetByte a b v hrest, memByte]
        by_cases hb : b = c
        · subst b
          rw [if_pos rfl, if_neg (by omega), if_pos rfl]
        · simp [hb]

/-- A write of several bytes keeps the canonical form. -/
theorem memWriteNat_wf : ∀ (n : Nat) {m : Memory} (a v : Nat), Memory.wf m = true →
    Memory.wf (memWriteNat m a n v) = true
  | 0, _, _, _, hm => hm
  | n + 1, _, _, _, hm => memWriteNat_wf n _ _ (memSetByte_wf _ _ hm)

/-- Every address a write of several bytes lists was listed before or is one of the bytes written. -/
theorem mem_memWriteNat : ∀ (n : Nat) {m : Memory} {a v : Nat} {p : Host.Cell},
    p ∈ memWriteNat m a n v → p ∈ m ∨ (a ≤ p.1 ∧ p.1 < a + n)
  | 0, _, _, _, _, h => .inl h
  | n + 1, m, a, v, p, h => by
    rcases mem_memWriteNat n h with h | h
    · rcases mem_memSetByte h with h | h
      · exact .inl h
      · exact .inr (by omega)
    · exact .inr (by omega)

/-- Reading one byte after writing several: byte `i` of the value inside, unchanged outside. -/
theorem memByte_memWriteNat : ∀ (n : Nat) {m : Memory} (a v b : Nat), Memory.wf m = true →
    memByte (memWriteNat m a n v) b =
      if a ≤ b ∧ b < a + n then BitVec.ofNat 8 (v / 256 ^ (b - a)) else memByte m b
  | 0, _, _, _, _, _ => by rw [if_neg (by omega)]; rfl
  | n + 1, m, a, v, b, hm => by
    rw [memWriteNat, memByte_memWriteNat n (a + 1) (v / 256) b (memSetByte_wf _ _ hm),
      memByte_memSetByte a b _ hm]
    by_cases hb : b = a
    · subst b
      rw [if_neg (by omega), if_pos rfl, if_pos (by omega)]
      simp
    · by_cases hin : a + 1 ≤ b ∧ b < a + 1 + n
      · rw [if_pos hin, if_pos (by omega), Nat.div_div_eq_div_mul, ← Nat.pow_succ',
          show (b - (a + 1)).succ = b - a by omega]
      · rw [if_neg hin, if_neg hb, if_neg (by omega)]

/-- A write leaves every byte outside the written ones alone. -/
theorem memByte_memWrite_outside {m : Memory} (hm : Memory.wf m = true) (a b : Nat) (w : Width)
    (v : BitVec w.bits) (h : b < a ∨ a + w.bytes ≤ b) :
    memByte (memWrite m a w v) b = memByte m b := by
  rw [memWrite, memByte_memWriteNat _ _ _ _ hm, if_neg (by omega)]

/-- Reading depends on the bytes read alone. -/
theorem memReadNat_congr : ∀ (n : Nat) {m m' : Memory} {a : Nat},
    (∀ i < n, memByte m (a + i) = memByte m' (a + i)) → memReadNat m a n = memReadNat m' a n
  | 0, _, _, _, _ => rfl
  | n + 1, m, m', a, h => by
    have h0 : memByte m a = memByte m' a := h 0 (by omega)
    have hn : memReadNat m (a + 1) n = memReadNat m' (a + 1) n := by
      refine memReadNat_congr n fun i hi => ?_
      rw [show a + 1 + i = a + (i + 1) by omega]
      exact h (i + 1) (by omega)
    rw [memReadNat, memReadNat, h0, hn]

/-- Reading back the bytes of a number. -/
theorem memReadNat_bytes : ∀ (n : Nat) {m : Memory} {a v : Nat},
    (∀ i < n, memByte m (a + i) = BitVec.ofNat 8 (v / 256 ^ i)) → memReadNat m a n = v % 256 ^ n
  | 0, _, _, v, _ => by simp [memReadNat, Nat.mod_one]
  | n + 1, m, a, v, h => by
    have h0 : memByte m a = BitVec.ofNat 8 v := by simpa using h 0 (by omega)
    have hn : memReadNat m (a + 1) n = v / 256 % 256 ^ n := by
      refine memReadNat_bytes n fun i hi => ?_
      have := h (i + 1) (by omega)
      rw [show a + 1 + i = a + (i + 1) by omega, this, Nat.div_div_eq_div_mul, Nat.pow_succ']
    rw [memReadNat, h0, hn, Nat.pow_succ', Nat.mod_mul]
    simp

theorem Width.pow_bytes (w : Width) : 256 ^ w.bytes = 2 ^ w.bits := by
  cases w <;> rfl

/-- Reading back what was written at the same address. -/
theorem memRead_memWrite {m : Memory} (hm : Memory.wf m = true) (a : Nat) (w : Width)
    (v : BitVec w.bits) : memRead (memWrite m a w v) a w = v := by
  have h : memReadNat (memWrite m a w v) a w.bytes = v.toNat % 256 ^ w.bytes := by
    refine memReadNat_bytes _ fun i hi => ?_
    rw [memWrite, memByte_memWriteNat _ _ _ _ hm, if_pos (by omega), Nat.add_sub_cancel_left]
  rw [memRead, h, Width.pow_bytes, Nat.mod_eq_of_lt v.isLt, BitVec.ofNat_toNat, BitVec.setWidth_eq]

/-- Reading outside what was written. -/
theorem memRead_memWrite_outside {m : Memory} (hm : Memory.wf m = true) (a b : Nat) (w u : Width)
    (v : BitVec w.bits) (h : b + u.bytes ≤ a ∨ a + w.bytes ≤ b) :
    memRead (memWrite m a w v) b u = memRead m b u := by
  rw [memRead, memRead]
  congr 1
  exact memReadNat_congr _ fun i hi => memByte_memWrite_outside hm a _ w v (by omega)

/-- A write keeps the canonical form. -/
theorem memWrite_wf {m : Memory} (hm : Memory.wf m = true) (a : Nat) (w : Width) (v : BitVec w.bits) :
    Memory.wf (memWrite m a w v) = true :=
  memWriteNat_wf _ _ _ hm

/-- Byte `i` of a value read is the byte at that place (20_memory R41). -/
theorem memRead_byte {m : Memory} {a : Nat} (w : Width) {i : Nat} (hi : i < w.bytes) :
    ((memRead m a w).setWidth 64).extractLsb' (8 * i) 8 = memByte m (a + i) := by
  have key : ∀ n i a, i < n → memReadNat m a n / 256^i % 256 = (memByte m (a+i)).toNat := by
    intro n
    induction n with
    | zero => intro i a h; omega
    | succ n ih =>
      intro i a h
      have hb := (memByte m a).isLt
      cases i with
      | zero => simp [memReadNat]; omega
      | succ i =>
        rw [memReadNat, Nat.pow_succ', ← Nat.div_div_eq_div_mul]
        have : ((memByte m a).toNat + 256 * memReadNat m (a + 1) n) / 256 = memReadNat m (a+1) n := by omega
        rw [this, ih i (a+1) (by omega)]
        congr 2
        omega
  have hlt : ∀ n a, memReadNat m a n < 256 ^ n := by
    intro n
    induction n with
    | zero => intro a; simp [memReadNat]
    | succ n ih =>
      intro a
      have hb := (memByte m a).isLt
      have := ih (a+1)
      rw [memReadNat, Nat.pow_succ]; omega
  apply BitVec.eq_of_toNat_eq
  have h64 : memReadNat m a w.bytes < 2^64 := lt_of_lt_of_le (hlt _ _) (by cases w <;> decide)
  have hb : memReadNat m a w.bytes < 2^w.bits := by rw [← Width.pow_bytes]; exact hlt _ _
  rw [BitVec.extractLsb'_toNat, BitVec.toNat_setWidth, memRead, BitVec.toNat_ofNat, Nat.shiftRight_eq_div_pow,
    ← key _ _ _ hi, Nat.mod_eq_of_lt hb, Nat.mod_eq_of_lt h64, Nat.pow_mul]

/-- Byte `i` of a value in its 64-bit container. -/
theorem setWidth_byte {w : Width} (v : BitVec w.bits) (i : Nat) :
    (v.setWidth 64).extractLsb' (8 * i) 8 = BitVec.ofNat 8 (v.toNat / 256 ^ i) := by
  apply BitVec.eq_of_toNat_eq
  have h64 : v.toNat < 2^64 := lt_of_lt_of_le v.isLt (by cases w <;> decide)
  rw [BitVec.extractLsb'_toNat, BitVec.toNat_setWidth, Nat.mod_eq_of_lt h64, Nat.shiftRight_eq_div_pow,
    BitVec.toNat_ofNat, Nat.pow_mul]

end Sys2Proof.Machine
end

