-- ==== Sys2Proof/Laws/State.lean ====
section
/-!
SUPPORT. One lemma per field per update of the state, true by unfolding, so that no later proof unfolds a
record update.
-/

namespace Sys2Proof.Machine

variable (s : State) (h : Hart) (x : Xlen)

@[simp] theorem Hart.writeX_pc (r : Reg) (v : Word) : (h.writeX x r v).pc = h.pc := by
  unfold Hart.writeX
  split <;> rfl

@[simp] theorem Hart.writeX_res (r : Reg) (v : Word) : (h.writeX x r v).res = h.res := by
  unfold Hart.writeX
  split <;> rfl

@[simp] theorem Hart.writeX_fault (r : Reg) (v : Word) : (h.writeX x r v).fault = h.fault := by
  unfold Hart.writeX
  split <;> rfl

@[simp] theorem Hart.writeX_refusal (r : Reg) (v : Word) : (h.writeX x r v).refusal = h.refusal := by
  unfold Hart.writeX
  split <;> rfl

@[simp] theorem State.writeX_cfg (r : Reg) (v : Word) : (s.writeX r v).cfg = s.cfg :=
  rfl

@[simp] theorem State.writeX_lower (r : Reg) (v : Word) : (s.writeX r v).lower = s.lower :=
  rfl

@[simp] theorem State.writeX_hart (r : Reg) (v : Word) : (s.writeX r v).hart = s.hart.writeX s.cfg.xlen r v :=
  rfl

@[simp] theorem State.writeX_upper (r : Reg) (v : Word) : (s.writeX r v).upper = s.upper :=
  rfl

@[simp] theorem State.writeX_mem (r : Reg) (v : Word) : (s.writeX r v).mem = s.mem :=
  rfl

@[simp] theorem State.writeX_history (r : Reg) (v : Word) : (s.writeX r v).history = s.history :=
  rfl

@[simp] theorem State.writeX_refusal (r : Reg) (v : Word) : (s.writeX r v).refusal = s.refusal :=
  rfl

@[simp] theorem State.writeX_schedule (r : Reg) (v : Word) : (s.writeX r v).schedule = s.schedule :=
  rfl

@[simp] theorem State.writeX_draws (r : Reg) (v : Word) : (s.writeX r v).draws = s.draws :=
  rfl

@[simp] theorem State.setReservation_cfg (r : Option Reservation) : (s.setReservation r).cfg = s.cfg :=
  rfl

@[simp] theorem State.setReservation_lower (r : Option Reservation) : (s.setReservation r).lower = s.lower :=
  rfl

@[simp] theorem State.setReservation_hart (r : Option Reservation) : (s.setReservation r).hart = { s.hart with res := r } :=
  rfl

@[simp] theorem State.setReservation_upper (r : Option Reservation) : (s.setReservation r).upper = s.upper :=
  rfl

@[simp] theorem State.setReservation_mem (r : Option Reservation) : (s.setReservation r).mem = s.mem :=
  rfl

@[simp] theorem State.setReservation_history (r : Option Reservation) : (s.setReservation r).history = s.history :=
  rfl

@[simp] theorem State.setReservation_refusal (r : Option Reservation) : (s.setReservation r).refusal = s.refusal :=
  rfl

@[simp] theorem State.setReservation_schedule (r : Option Reservation) : (s.setReservation r).schedule = s.schedule :=
  rfl

@[simp] theorem State.setReservation_draws (r : Option Reservation) : (s.setReservation r).draws = s.draws :=
  rfl

@[simp] theorem State.advancePc_cfg : (s.advancePc).cfg = s.cfg :=
  rfl

@[simp] theorem State.advancePc_lower : (s.advancePc).lower = s.lower :=
  rfl

@[simp] theorem State.advancePc_hart : (s.advancePc).hart = { s.hart with pc := nextPc s.cfg s.hart.pc } :=
  rfl

@[simp] theorem State.advancePc_upper : (s.advancePc).upper = s.upper :=
  rfl

@[simp] theorem State.advancePc_mem : (s.advancePc).mem = s.mem :=
  rfl

@[simp] theorem State.advancePc_history : (s.advancePc).history = s.history :=
  rfl

@[simp] theorem State.advancePc_refusal : (s.advancePc).refusal = s.refusal :=
  rfl

@[simp] theorem State.advancePc_schedule : (s.advancePc).schedule = s.schedule :=
  rfl

@[simp] theorem State.advancePc_draws : (s.advancePc).draws = s.draws :=
  rfl

@[simp] theorem State.invalidateOthers_cfg (a n : Nat) : (s.invalidateOthers a n).cfg = s.cfg :=
  rfl

@[simp] theorem State.invalidateOthers_lower (a n : Nat) : (s.invalidateOthers a n).lower = s.lower.map (Hart.afterForeignWrite s.cfg a n) :=
  rfl

@[simp] theorem State.invalidateOthers_hart (a n : Nat) : (s.invalidateOthers a n).hart = s.hart :=
  rfl

@[simp] theorem State.invalidateOthers_upper (a n : Nat) : (s.invalidateOthers a n).upper = s.upper.map (Hart.afterForeignWrite s.cfg a n) :=
  rfl

@[simp] theorem State.invalidateOthers_mem (a n : Nat) : (s.invalidateOthers a n).mem = s.mem :=
  rfl

@[simp] theorem State.invalidateOthers_history (a n : Nat) : (s.invalidateOthers a n).history = s.history :=
  rfl

@[simp] theorem State.invalidateOthers_refusal (a n : Nat) : (s.invalidateOthers a n).refusal = s.refusal :=
  rfl

@[simp] theorem State.invalidateOthers_schedule (a n : Nat) : (s.invalidateOthers a n).schedule = s.schedule :=
  rfl

@[simp] theorem State.invalidateOthers_draws (a n : Nat) : (s.invalidateOthers a n).draws = s.draws :=
  rfl

@[simp] theorem State.retire_cfg (e : Event) : (s.retire e).cfg = s.cfg :=
  rfl

@[simp] theorem State.retire_lower (e : Event) : (s.retire e).lower = s.lower :=
  rfl

@[simp] theorem State.retire_hart (e : Event) : (s.retire e).hart = { s.hart with pc := nextPc s.cfg s.hart.pc } :=
  rfl

@[simp] theorem State.retire_upper (e : Event) : (s.retire e).upper = s.upper :=
  rfl

@[simp] theorem State.retire_mem (e : Event) : (s.retire e).mem = s.mem :=
  rfl

@[simp] theorem State.retire_history (e : Event) : (s.retire e).history = e :: s.history :=
  rfl

@[simp] theorem State.retire_refusal (e : Event) : (s.retire e).refusal = s.refusal :=
  rfl

@[simp] theorem State.retire_schedule (e : Event) : (s.retire e).schedule = s.schedule :=
  rfl

@[simp] theorem State.retire_draws (e : Event) : (s.retire e).draws = s.draws + 1 :=
  rfl

@[simp] theorem State.recordFault_cfg (f : FaultRecord) : (s.recordFault f).cfg = s.cfg :=
  rfl

@[simp] theorem State.recordFault_lower (f : FaultRecord) : (s.recordFault f).lower = s.lower :=
  rfl

@[simp] theorem State.recordFault_hart (f : FaultRecord) : (s.recordFault f).hart = { s.hart with fault := some f } :=
  rfl

@[simp] theorem State.recordFault_upper (f : FaultRecord) : (s.recordFault f).upper = s.upper :=
  rfl

@[simp] theorem State.recordFault_mem (f : FaultRecord) : (s.recordFault f).mem = s.mem :=
  rfl

@[simp] theorem State.recordFault_history (f : FaultRecord) : (s.recordFault f).history = s.history :=
  rfl

@[simp] theorem State.recordFault_refusal (f : FaultRecord) : (s.recordFault f).refusal = s.refusal :=
  rfl

@[simp] theorem State.recordFault_schedule (f : FaultRecord) : (s.recordFault f).schedule = s.schedule :=
  rfl

@[simp] theorem State.recordFault_draws (f : FaultRecord) : (s.recordFault f).draws = s.draws :=
  rfl

@[simp] theorem State.markRefused_cfg (r : Refusal) : (s.markRefused r).cfg = s.cfg :=
  rfl

@[simp] theorem State.markRefused_lower (r : Refusal) : (s.markRefused r).lower = s.lower :=
  rfl

@[simp] theorem State.markRefused_hart (r : Refusal) : (s.markRefused r).hart = { s.hart with refusal := some r } :=
  rfl

@[simp] theorem State.markRefused_upper (r : Refusal) : (s.markRefused r).upper = s.upper :=
  rfl

@[simp] theorem State.markRefused_mem (r : Refusal) : (s.markRefused r).mem = s.mem :=
  rfl

@[simp] theorem State.markRefused_history (r : Refusal) : (s.markRefused r).history = s.history :=
  rfl

@[simp] theorem State.markRefused_refusal (r : Refusal) : (s.markRefused r).refusal = s.refusal.or (some r) :=
  rfl

@[simp] theorem State.markRefused_schedule (r : Refusal) : (s.markRefused r).schedule = s.schedule :=
  rfl

@[simp] theorem State.markRefused_draws (r : Refusal) : (s.markRefused r).draws = s.draws :=
  rfl

@[simp] theorem Hart.afterForeignWrite_pc (c : Config) (a n : Nat) :
    (h.afterForeignWrite c a n).pc = h.pc := by
  unfold Hart.afterForeignWrite
  repeat' split
  all_goals rfl

@[simp] theorem Hart.afterForeignWrite_fault (c : Config) (a n : Nat) :
    (h.afterForeignWrite c a n).fault = h.fault := by
  unfold Hart.afterForeignWrite
  repeat' split
  all_goals rfl

@[simp] theorem Hart.afterForeignWrite_refusal (c : Config) (a n : Nat) :
    (h.afterForeignWrite c a n).refusal = h.refusal := by
  unfold Hart.afterForeignWrite
  repeat' split
  all_goals rfl

@[simp] theorem Hart.afterForeignWrite_regs (c : Config) (a n : Nat) :
    (h.afterForeignWrite c a n).regs = h.regs := by
  unfold Hart.afterForeignWrite
  repeat' split
  all_goals rfl

@[simp] theorem State.storeValue_cfg (addr : Word) (w : Width) (v : BitVec w.bits) :
    (s.storeValue addr w v).cfg = s.cfg := by
  unfold State.storeValue
  split <;> rfl

@[simp] theorem State.storeValue_hart (addr : Word) (w : Width) (v : BitVec w.bits) :
    (s.storeValue addr w v).hart = s.hart := by
  unfold State.storeValue
  split <;> rfl

@[simp] theorem State.storeValue_history (addr : Word) (w : Width) (v : BitVec w.bits) :
    (s.storeValue addr w v).history = s.history := by
  unfold State.storeValue
  split <;> rfl

@[simp] theorem State.storeValue_refusal (addr : Word) (w : Width) (v : BitVec w.bits) :
    (s.storeValue addr w v).refusal = s.refusal := by
  unfold State.storeValue
  split <;> rfl

@[simp] theorem State.storeValue_schedule (addr : Word) (w : Width) (v : BitVec w.bits) :
    (s.storeValue addr w v).schedule = s.schedule := by
  unfold State.storeValue
  split <;> rfl

@[simp] theorem State.storeValue_draws (addr : Word) (w : Width) (v : BitVec w.bits) :
    (s.storeValue addr w v).draws = s.draws := by
  unfold State.storeValue
  split <;> rfl

@[simp] theorem State.loseReservation_cfg (g : Nat) : (s.loseReservation g).cfg = s.cfg := by
  unfold State.loseReservation
  repeat' split
  all_goals rfl

@[simp] theorem State.loseReservation_mem (g : Nat) : (s.loseReservation g).mem = s.mem := by
  unfold State.loseReservation
  repeat' split
  all_goals rfl

@[simp] theorem State.loseReservation_history (g : Nat) : (s.loseReservation g).history = s.history := by
  unfold State.loseReservation
  repeat' split
  all_goals rfl

@[simp] theorem State.loseReservation_refusal (g : Nat) : (s.loseReservation g).refusal = s.refusal := by
  unfold State.loseReservation
  repeat' split
  all_goals rfl

@[simp] theorem State.loseReservation_schedule (g : Nat) : (s.loseReservation g).schedule = s.schedule := by
  unfold State.loseReservation
  repeat' split
  all_goals rfl

@[simp] theorem State.loseReservation_draws (g : Nat) : (s.loseReservation g).draws = s.draws := by
  unfold State.loseReservation
  repeat' split
  all_goals rfl

/-- The identifier of the hart whose step it is, through the updates. -/
theorem State.hartId_congr {s t : State} (e : s.lower.length = t.lower.length) : s.hartId = t.hartId := e

@[simp] theorem State.writeX_hartId (r : Reg) (v : Word) : (s.writeX r v).hartId = s.hartId :=
  rfl

@[simp] theorem State.setReservation_hartId (r : Option Reservation) :
    (s.setReservation r).hartId = s.hartId :=
  rfl

@[simp] theorem State.retire_hartId (e : Event) : (s.retire e).hartId = s.hartId :=
  rfl

@[simp] theorem State.recordFault_hartId (f : FaultRecord) : (s.recordFault f).hartId = s.hartId :=
  rfl

@[simp] theorem State.markRefused_hartId (r : Refusal) : (s.markRefused r).hartId = s.hartId :=
  rfl

@[simp] theorem State.invalidateOthers_hartId (a n : Nat) : (s.invalidateOthers a n).hartId = s.hartId := by
  simp [State.hartId]

@[simp] theorem State.storeValue_hartId (addr : Word) (w : Width) (v : BitVec w.bits) :
    (s.storeValue addr w v).hartId = s.hartId := by
  unfold State.storeValue
  split
  · exact State.invalidateOthers_hartId _ _ _
  · rfl

end Sys2Proof.Machine
end

