-- ==== Sys2Proof/Laws/Ops.lean ====
section
/-!
SUPPORT. One lemma per shared operation that says once everything it can do; later proofs cite these instead
of unfolding the operation.
-/

namespace Sys2Proof.Machine

/-! ### XLEN-bit values -/

/-- The unsigned value of a wrapped container. -/
theorem Xlen.wrap_toNat (x : Xlen) (v : Word) : (x.wrap v).toNat = v.toNat % 2 ^ x.bits := by
  have := v.isLt
  cases x <;> simp only [Xlen.wrap, Xlen.bits, BitVec.toNat_setWidth] <;> omega

/-- A wrapped container holds an `XLEN`-bit value. -/
@[simp] theorem Xlen.wrap_fits (x : Xlen) (v : Word) : x.fits (x.wrap v) = true := by
  simp only [Xlen.fits, Xlen.wrap_toNat, decide_eq_true_eq]
  exact Nat.mod_lt _ (by positivity)

/-- Wrapping an `XLEN`-bit value changes nothing. -/
theorem Xlen.wrap_of_fits {x : Xlen} {v : Word} (h : x.fits v = true) : x.wrap v = v := by
  apply BitVec.eq_of_toNat_eq
  rw [Xlen.wrap_toNat, Nat.mod_eq_of_lt (by simpa [Xlen.fits] using h)]

@[simp] theorem Xlen.wrap_wrap (x : Xlen) (v : Word) : x.wrap (x.wrap v) = x.wrap v :=
  Xlen.wrap_of_fits (Xlen.wrap_fits x v)

@[simp] theorem Xlen.wrap_zero (x : Xlen) : x.wrap 0 = 0 := by
  cases x <;> rfl

/-! ### Registers -/

@[simp] theorem Hart.readX_zero (x : Xlen) (h : Hart) : h.readX x 0 = 0 := by
  simp [Hart.readX]

@[simp] theorem Hart.writeX_zero (x : Xlen) (h : Hart) (v : Word) : h.writeX x 0 v = h := by
  simp [Hart.writeX]

/-- Reading a register after writing one. -/
theorem Hart.readX_writeX (x : Xlen) (h : Hart) (r q : Reg) (v : Word) :
    (h.writeX x r v).readX x q = if q = r ∧ r ≠ 0 then x.wrap v else h.readX x q := by
  unfold Hart.readX Hart.writeX
  by_cases hr : r = 0
  · simp [hr]
  · by_cases hq : q = 0
    · subst hq
      rw [if_pos rfl, if_neg fun h => hr h.1.symm, if_pos rfl]
    · simp only [hr, if_false, hq, ne_eq, not_false_eq_true, and_true]
      by_cases hqr : q = r
      · subst hqr
        simp
      · have : r.toNat ≠ q.toNat := fun e => hqr (BitVec.eq_of_toNat_eq e.symm)
        simp [hqr, this]

@[simp] theorem State.readX_zero (s : State) : s.readX 0 = 0 :=
  Hart.readX_zero _ _

/-- Reading a register after writing one. -/
theorem State.readX_writeX (s : State) (r q : Reg) (v : Word) :
    (s.writeX r v).readX q = if q = r ∧ r ≠ 0 then s.cfg.xlen.wrap v else s.readX q :=
  Hart.readX_writeX _ _ _ _ _

/-- Two states whose hart has the same registers read the same. -/
theorem State.readX_congr {s t : State} (hc : s.cfg.xlen = t.cfg.xlen) (hr : s.hart.regs = t.hart.regs)
    (r : Reg) : s.readX r = t.readX r := by
  unfold State.readX Hart.readX
  simp only [hc, hr]

@[simp] theorem State.readX_retire (s : State) (e : Event) (r : Reg) : (s.retire e).readX r = s.readX r :=
  State.readX_congr rfl rfl r

@[simp] theorem State.readX_setReservation (s : State) (o : Option Reservation) (r : Reg) :
    (s.setReservation o).readX r = s.readX r :=
  State.readX_congr rfl rfl r

@[simp] theorem State.readX_storeValue (s : State) (addr : Word) (w : Width) (v : BitVec w.bits) (r : Reg) :
    (s.storeValue addr w v).readX r = s.readX r :=
  State.readX_congr (by simp) (by simp) r

/-- A register value is an `XLEN`-bit value. -/
@[simp] theorem State.readX_fits (s : State) (r : Reg) : s.cfg.xlen.fits (s.readX r) = true := by
  unfold State.readX Hart.readX
  split
  · cases h : s.cfg.xlen <;> rfl
  · exact Xlen.wrap_fits _ _

/-! ### The checks of an access -/

/-- Every byte of a block is admitted. -/
theorem Config.admits_iff {c : Config} {a n : Nat} :
    c.admits a n = true ↔ ∀ i < n, c.inMem (a + i) = true := by
  simp [Config.admits]

theorem aligned_iff {addr : Word} {w : Width} : aligned addr w = true ↔ addr.toNat % w.bytes = 0 := by
  simp [aligned]

/-- The checks pass exactly on an aligned address whose bytes are all in MEM. -/
theorem checkAccess_eq_none_iff {c : Config} {k : AccessKind} {addr : Word} {w : Width} :
    checkAccess c k addr w = none ↔ aligned addr w = true ∧ c.admits addr.toNat w.bytes = true := by
  unfold checkAccess
  cases aligned addr w <;> cases c.admits addr.toNat w.bytes <;> simp

/-- Misalignment is reported first. -/
theorem checkAccess_misaligned {c : Config} {k : AccessKind} {addr : Word} {w : Width}
    (h : aligned addr w = false) : checkAccess c k addr w = some (k.misaligned c.misalignedCause) := by
  simp [checkAccess, h]

/-- Then a byte outside MEM. -/
theorem checkAccess_outside {c : Config} {k : AccessKind} {addr : Word} {w : Width}
    (h : aligned addr w = true) (hm : c.admits addr.toNat w.bytes = false) :
    checkAccess c k addr w = some k.accessFault := by
  simp [checkAccess, h, hm]

/-! ### The three shared procedures -/

/-- What a load-reserved can answer. -/
theorem loadReserved_cases (w : Width) (rd rs1 : Reg) (aq rl : Bool) (s : State) :
    (checkAccess s.cfg .load (s.address rs1) w = none ∧
        loadReserved w rd rs1 aq rl s = .next (loadReservedEffect w rd rs1 aq rl s)) ∨
      ∃ cause, checkAccess s.cfg .load (s.address rs1) w = some cause ∧
        loadReserved w rd rs1 aq rl s = raise cause (s.address rs1) s := by
  unfold loadReserved
  cases checkAccess s.cfg .load (s.address rs1) w <;> simp

/-- What a store-conditional can answer. -/
theorem storeConditional_cases (w : Width) (rd rs1 rs2 : Reg) (aq rl : Bool) (s : State) :
    (checkAccess s.cfg .storeAMO (s.address rs1) w = none ∧
        storeConditional w rd rs1 rs2 aq rl s =
          .next (storeConditionalEffect w rd rs1 rs2 aq rl (s.scSucceeds (s.address rs1) w) s)) ∨
      ∃ cause, checkAccess s.cfg .storeAMO (s.address rs1) w = some cause ∧
        storeConditional w rd rs1 rs2 aq rl s = raise cause (s.address rs1) s := by
  unfold storeConditional
  cases checkAccess s.cfg .storeAMO (s.address rs1) w <;> simp

/-- What an AMO can answer. -/
theorem amo_cases (op : AmoOp) (w : Width) (rd rs1 rs2 : Reg) (aq rl : Bool) (s : State) :
    (checkAccess s.cfg .storeAMO (s.address rs1) w = none ∧
        amo op w rd rs1 rs2 aq rl s = .next (amoEffect op w rd rs1 rs2 aq rl s)) ∨
      ∃ cause, checkAccess s.cfg .storeAMO (s.address rs1) w = some cause ∧
        amo op w rd rs1 rs2 aq rl s = raise cause (s.address rs1) s := by
  unfold amo
  cases checkAccess s.cfg .storeAMO (s.address rs1) w <;> simp

/-- What a completed instruction did: one of the three effects, under the check of its address, a `.d` form only
where the `.d` forms are admitted. -/
inductive Completes (s : State) : State → Prop where
  | load (w : Width) (rd rs1 : Reg) (aq rl : Bool)
      (admitted : w = .doubleword → s.cfg.admitsD = true)
      (check : checkAccess s.cfg .load (s.address rs1) w = none) :
      Completes s (loadReservedEffect w rd rs1 aq rl s)
  | conditional (w : Width) (rd rs1 rs2 : Reg) (aq rl : Bool)
      (admitted : w = .doubleword → s.cfg.admitsD = true)
      (check : checkAccess s.cfg .storeAMO (s.address rs1) w = none) :
      Completes s (storeConditionalEffect w rd rs1 rs2 aq rl (s.scSucceeds (s.address rs1) w) s)
  | amo (op : AmoOp) (w : Width) (rd rs1 rs2 : Reg) (aq rl : Bool)
      (admitted : w = .doubleword → s.cfg.admitsD = true)
      (check : checkAccess s.cfg .storeAMO (s.address rs1) w = none) :
      Completes s (amoEffect op w rd rs1 rs2 aq rl s)

theorem whenAdmitted_next {s t : State} {body : State → Result} (h : whenAdmitted s body = .next t) :
    s.cfg.admitsD = true ∧ body s = .next t := by
  unfold whenAdmitted at h
  split at h
  · exact ⟨‹_›, h⟩
  · cases h

theorem whenAdmitted_fault {s : State} {f : Fault} {body : State → Result}
    (h : whenAdmitted s body = .fault f) : s.cfg.admitsD = true ∧ body s = .fault f := by
  unfold whenAdmitted at h
  split at h
  · exact ⟨‹_›, h⟩
  · cases h

theorem loadReserved_next {w : Width} {rd rs1 : Reg} {aq rl : Bool} {s t : State}
    (ha : w = .doubleword → s.cfg.admitsD = true) (h : loadReserved w rd rs1 aq rl s = .next t) :
    Completes s t := by
  rcases loadReserved_cases w rd rs1 aq rl s with ⟨hc, he⟩ | ⟨cause, -, he⟩ <;> rw [he] at h
  · cases h
    exact .load w rd rs1 aq rl ha hc
  · cases h

theorem storeConditional_next {w : Width} {rd rs1 rs2 : Reg} {aq rl : Bool} {s t : State}
    (ha : w = .doubleword → s.cfg.admitsD = true) (h : storeConditional w rd rs1 rs2 aq rl s = .next t) :
    Completes s t := by
  rcases storeConditional_cases w rd rs1 rs2 aq rl s with ⟨hc, he⟩ | ⟨cause, -, he⟩ <;> rw [he] at h
  · cases h
    exact .conditional w rd rs1 rs2 aq rl ha hc
  · cases h

theorem amo_next {op : AmoOp} {w : Width} {rd rs1 rs2 : Reg} {aq rl : Bool} {s t : State}
    (ha : w = .doubleword → s.cfg.admitsD = true) (h : amo op w rd rs1 rs2 aq rl s = .next t) :
    Completes s t := by
  rcases amo_cases op w rd rs1 rs2 aq rl s with ⟨hc, he⟩ | ⟨cause, -, he⟩ <;> rw [he] at h
  · cases h
    exact .amo op w rd rs1 rs2 aq rl ha hc
  · cases h

/-- Everything `exec` can do when it answers a next state. -/
theorem exec_next {i : Instr} {s t : State} (h : exec i s = .next t) : Completes s t := by
  cases i
  case lrW => exact loadReserved_next (by simp) h
  case scW => exact storeConditional_next (by simp) h
  case lrD =>
    obtain ⟨ha, h⟩ := whenAdmitted_next h
    exact loadReserved_next (fun _ => ha) h
  case scD =>
    obtain ⟨ha, h⟩ := whenAdmitted_next h
    exact storeConditional_next (fun _ => ha) h
  case amoswapW | amoaddW | amoxorW | amoandW | amoorW | amominW | amomaxW | amominuW | amomaxuW =>
    exact amo_next (by simp) h
  all_goals
    obtain ⟨ha, h⟩ := whenAdmitted_next h
    exact amo_next (fun _ => ha) h

/-- Everything `exec` can do when it faults: it raised an exception of its checks, at its own address and pc. -/
theorem exec_fault {i : Instr} {s : State} {f : Fault} (h : exec i s = .fault f) :
    ∃ k w rs1 cause, checkAccess s.cfg k (s.address rs1) w = some cause ∧
      f = .exception ⟨cause, s.address rs1, s.hart.pc⟩ := by
  have key : ∀ {k w rs1} {r e : Result},
      ((checkAccess s.cfg k (s.address rs1) w = none ∧ r = e) ∨
        ∃ cause, checkAccess s.cfg k (s.address rs1) w = some cause ∧ r = raise cause (s.address rs1) s) →
      r = .fault f → (∀ g, e ≠ .fault g) →
      ∃ k w rs1 cause, checkAccess s.cfg k (s.address rs1) w = some cause ∧
        f = .exception ⟨cause, s.address rs1, s.hart.pc⟩ := by
    rintro k w rs1 r e (⟨-, rfl⟩ | ⟨cause, hc, rfl⟩) hr hne
    · exact absurd hr (hne f)
    · cases hr
      exact ⟨k, w, rs1, cause, hc, rfl⟩
  cases i
  case lrW => exact key (loadReserved_cases _ _ _ _ _ s) h (by simp)
  case scW => exact key (storeConditional_cases _ _ _ _ _ _ s) h (by simp)
  case lrD => exact key (loadReserved_cases _ _ _ _ _ s) (whenAdmitted_fault h).2 (by simp)
  case scD => exact key (storeConditional_cases _ _ _ _ _ _ s) (whenAdmitted_fault h).2 (by simp)
  case amoswapW | amoaddW | amoxorW | amoandW | amoorW | amominW | amomaxW | amominuW | amomaxuW =>
    exact key (amo_cases _ _ _ _ _ _ _ s) h (by simp)
  all_goals exact key (amo_cases _ _ _ _ _ _ _ s) (whenAdmitted_fault h).2 (by simp)

end Sys2Proof.Machine
end

