-- ==== Sys2Proof/Laws/Step.lean ====
section
/-!
SUPPORT. The harts of a state by identifier, and what one step of the machine can do.
-/

namespace Sys2Proof.Machine

/-! ### Harts by identifier -/

@[simp] theorem State.hartAt_hartId (s : State) : s.hartAt s.hartId = some s.hart := by
  simp [State.hartAt, State.harts, State.hartId]

theorem State.hartAt_lower (s : State) {g : Nat} (h : g < s.hartId) : s.hartAt g = s.lower[g]? := by
  simp only [State.hartAt, State.harts]
  exact List.getElem?_append_left h

theorem State.hartAt_upper (s : State) {g : Nat} (h : s.hartId < g) :
    s.hartAt g = s.upper[g - s.hartId - 1]? := by
  simp only [State.hartAt, State.harts]
  rw [List.getElem?_append_right (by simpa [State.hartId] using h.le)]
  obtain ⟨k, hk⟩ : ∃ k, g - s.lower.length = k + 1 := ⟨g - s.hartId - 1, by
    simp only [State.hartId] at *; omega⟩
  rw [hk, List.getElem?_cons_succ]
  congr 1
  simp only [State.hartId]
  omega

/-- Two states with the same harts before and after the one that steps agree on every other hart. -/
theorem State.hartAt_congr {s t : State} (hl : t.lower = s.lower) (hu : t.upper = s.upper) {g : Nat}
    (h : g ≠ s.hartId) : t.hartAt g = s.hartAt g := by
  have hid : t.hartId = s.hartId := by simp [State.hartId, hl]
  rcases Nat.lt_or_gt_of_ne h with h | h
  · rw [t.hartAt_lower (hid ▸ h), s.hartAt_lower h, hl]
  · rw [t.hartAt_upper (hid ▸ h), s.hartAt_upper h, hu, hid]

/-- The other harts after a write by the hart that steps (20_memory R49). -/
theorem State.hartAt_invalidateOthers (s : State) (a n : Nat) {g : Nat} (h : g ≠ s.hartId) :
    (s.invalidateOthers a n).hartAt g = (s.hartAt g).map (Hart.afterForeignWrite s.cfg a n) := by
  have hid : (s.invalidateOthers a n).hartId = s.hartId := by simp
  rcases Nat.lt_or_gt_of_ne h with h | h
  · rw [State.hartAt_lower _ (hid ▸ h), s.hartAt_lower h]
    simp
  · rw [State.hartAt_upper _ (hid ▸ h), s.hartAt_upper h, hid]
    simp

/-- The harts after the environment's step (20_memory R50). -/
theorem State.hartAt_loseReservation (s : State) (g k : Nat) :
    (s.loseReservation g).hartAt k =
      (s.hartAt k).map fun h => if k = g then { h with res := none } else h := by
  unfold State.loseReservation
  split
  · subst g
    by_cases hk : k = s.hartId
    · subst hk
      have h := State.hartAt_hartId (s.setReservation none)
      rw [State.setReservation_hartId] at h
      simp [h]
    · have h := State.hartAt_congr (s := s) (t := s.setReservation none) rfl rfl hk
      simp [hk, h]
  · split
    · rename_i hne hlt
      simp only [State.hartId] at hlt
      simp only [State.hartAt, State.harts, List.getElem?_append, List.length_modify]
      split
      · rw [List.getElem?_modify]
        congr 1
        funext h
        simp [eq_comm]
      · have : k ≠ g := by omega
        simp [this]
    · rename_i hne hge
      simp only [State.hartId] at hne hge
      simp only [State.hartAt, State.harts, List.getElem?_append, State.hartId]
      split
      · have : k ≠ g := by omega
        simp [this]
      · rcases hk : k - s.lower.length with _ | m
        · have : k ≠ g := by omega
          simp [this]
        · simp only [List.getElem?_cons_succ, List.getElem?_modify]
          congr 1
          funext h
          have : (g - s.lower.length - 1 = m) = (k = g) := by
            apply propext
            omega
          simp [this]

/-- Focusing on a hart moves nothing. -/
theorem State.focus_eq {s u : State} {g : Nat} (h : s.focus g = some u) :
    u.harts = s.harts ∧ u.hartId = g ∧ u.cfg = s.cfg ∧ u.mem = s.mem ∧ u.history = s.history ∧
      u.refusal = s.refusal ∧ u.schedule = s.schedule ∧ u.draws = s.draws ∧ s.hartAt g = some u.hart := by
  unfold State.focus at h
  split at h
  · cases h
  · rename_i x rest hd
    cases h
    have hg : g < s.harts.length := by
      by_contra hn
      rw [List.drop_eq_nil_of_le (by omega)] at hd
      cases hd
    refine ⟨?_, ?_, rfl, rfl, rfl, rfl, rfl, rfl, ?_⟩
    · show s.harts.take g ++ x :: rest = s.harts
      rw [← hd, List.take_append_drop]
    · show (s.harts.take g).length = g
      simp
      omega
    · show s.harts[g]? = some x
      have := congrArg (fun l => l[0]?) hd
      simpa using this

/-- Focusing on a hart that exists succeeds. -/
theorem State.focus_of_hartAt {s : State} {g : Nat} {h : Hart} (hg : s.hartAt g = some h) :
    ∃ u, s.focus g = some u ∧ u.hart = h := by
  have hlt : g < s.harts.length := by
    by_contra hn
    rw [State.hartAt, List.getElem?_eq_none (by omega)] at hg
    cases hg
  rcases hd : s.harts.drop g with _ | ⟨x, rest⟩
  · have := congrArg List.length hd
    simp at this
    omega
  · refine ⟨_, by rw [State.focus, hd], ?_⟩
    have h0 := congrArg (fun l => l[0]?) hd
    simp only [List.getElem?_drop, Nat.add_zero, List.getElem?_cons_zero] at h0
    simp only [State.hartAt, h0, Option.some.injEq] at hg
    exact hg

/-- The harts of two states with the same list of harts. -/
theorem State.hartAt_of_harts {s t : State} (h : t.harts = s.harts) (g : Nat) : t.hartAt g = s.hartAt g := by
  rw [State.hartAt, State.hartAt, h]

/-! ### Turns -/

theorem State.enabled_execute {s : State} {g : Nat} :
    s.enabled (.execute g) = true ↔ ∃ h, s.hartAt g = some h ∧ h.canStep s.cfg = true := by
  simp only [State.enabled, Option.any_eq_true]

theorem State.enabled_loseReservation {s : State} {g : Nat} :
    s.enabled (.loseReservation g) = true ↔ ∃ h, s.hartAt g = some h ∧ h.res.isSome = true := by
  simp only [State.enabled, Option.any_eq_true]

/-- Only a hart that exists has an enabled turn. -/
theorem State.mem_enabledTurns {s : State} {t : Turn} : t ∈ s.enabledTurns ↔ s.enabled t = true := by
  have lt : ∀ g (p : Hart → Bool), (s.hartAt g).any p = true → g < s.harts.length := by
    intro g p h
    by_contra hn
    rw [State.hartAt, List.getElem?_eq_none (by omega)] at h
    cases h
  simp only [State.enabledTurns, List.mem_filter, List.mem_append, List.mem_map, List.mem_range, and_iff_right_iff_imp]
  intro h
  cases t with
  | execute g => exact .inl ⟨g, lt g _ h, rfl⟩
  | loseReservation g => exact .inr ⟨g, lt g _ h, rfl⟩

/-- Everything the choice of a turn can do: an enabled turn, taken from the schedule or drawn, and nothing else of
the state changed. -/
theorem State.nextTurn_some {s u : State} {t : Turn} (h : s.nextTurn = some (t, u)) :
    s.enabled t = true ∧ ∃ l n, u = { s with schedule := l, draws := n } := by
  unfold State.nextTurn at h
  split at h
  · rename_i a rest hd
    cases h
    refine ⟨?_, rest, s.draws, rfl⟩
    have := List.head_dropWhile_not (p := fun t => !s.enabled t) (l := s.schedule) (by simp [hd])
    simpa [hd] using this
  · split at h
    · cases h
    · rename_i a rest he
      cases h
      refine ⟨?_, [], s.draws + 1, rfl⟩
      rw [← State.mem_enabledTurns, he]
      have hlt : Config.freeTurn s.draws % (rest.length + 1) < (a :: rest).length := Nat.mod_lt _ (Nat.succ_pos _)
      rw [List.getD_eq_getElem _ _ hlt]
      exact List.getElem_mem _

/-- There is no next turn exactly where no turn is enabled. -/
theorem State.nextTurn_none {s : State} : s.nextTurn = none ↔ ∀ t, s.enabled t = false := by
  have key : s.enabledTurns = [] ↔ ∀ t, s.enabled t = false := by
    simp only [List.eq_nil_iff_forall_not_mem, State.mem_enabledTurns, Bool.not_eq_true]
  rw [← key]
  unfold State.nextTurn
  constructor
  · intro h
    split at h
    · cases h
    · split at h
      · assumption
      · cases h
  · intro h
    have hd : (s.schedule.dropWhile fun t => !s.enabled t) = [] := by
      rw [List.dropWhile_eq_nil_iff]
      intro t _
      simp [key.1 h t]
    rw [hd, h]

/-! ### One step -/

/-- Everything a step can do when it answers a next state: the environment ends a reservation, a hart's fault is
recorded or its refusal marked, or a hart completes an instruction. -/
inductive Steps (s : State) : State → Prop where
  | lose (g : Nat) (v : State) (turn : s.nextTurn = some (.loseReservation g, v)) : Steps s (v.loseReservation g)
  | refuse (g : Nat) (v u : State) (r : Refusal) (turn : s.nextTurn = some (.execute g, v))
      (focus : v.focus g = some u) (can : u.hart.canStep u.cfg = true) (run : hartStep u = .refused r) :
      Steps s (u.markRefused r)
  | fault (g : Nat) (v u : State) (i : Instr) (f : FaultRecord) (turn : s.nextTurn = some (.execute g, v))
      (focus : v.focus g = some u) (can : u.hart.canStep u.cfg = true)
      (fetch : u.fetch = .ok i) (run : exec i u = .fault (.exception f)) : Steps s (u.recordFault f)
  | run (g : Nat) (v u : State) (i : Instr) (t : State) (turn : s.nextTurn = some (.execute g, v))
      (focus : v.focus g = some u) (can : u.hart.canStep u.cfg = true)
      (fetch : u.fetch = .ok i) (run : exec i u = .next t) : Steps s t

/-- The hart of an enabled turn, brought into focus, can step. -/
theorem State.focus_of_turn {s v : State} {g : Nat} (ht : s.nextTurn = some (.execute g, v)) :
    ∃ u, v.focus g = some u ∧ u.hart.canStep u.cfg = true := by
  obtain ⟨he, l, n, rfl⟩ := State.nextTurn_some ht
  obtain ⟨h, hg, hc⟩ := State.enabled_execute.1 he
  obtain ⟨u, hu, rfl⟩ := State.focus_of_hartAt (s := { s with schedule := l, draws := n }) (g := g) (h := h) hg
  obtain ⟨-, -, hcfg, -⟩ := State.focus_eq hu
  exact ⟨u, hu, by rw [hcfg]; exact hc⟩

/-- A turn of a hart that can step is settled from the outcome of that hart's step. -/
theorem step_execute {s v u : State} {g : Nat} (ht : s.nextTurn = some (.execute g, v)) (hf : v.focus g = some u) :
    step s = settle u (hartStep u) := by
  simp only [step, ht, takeTurn, hf]

/-- A hart's step executes what it fetches, or is refused by the fetch. -/
theorem hartStep_cases (u : State) :
    (∃ i, u.fetch = .ok i ∧ hartStep u = exec i u) ∨ ∃ r, u.fetch = .error r ∧ hartStep u = .refused r := by
  unfold hartStep
  cases u.fetch with
  | error r => exact .inr ⟨r, rfl, rfl⟩
  | ok i => exact .inl ⟨i, rfl, rfl⟩

/-- A machine with no enabled turn has stopped. -/
theorem State.stopped_ne_next (s t : State) : s.stopped ≠ .next t := by
  unfold State.stopped
  repeat' split
  all_goals simp

theorem step_next {s t : State} (h : step s = .next t) : Steps s t := by
  cases hn : s.nextTurn with
  | none =>
    simp only [step, hn] at h
    exact absurd h (State.stopped_ne_next s t)
  | some p =>
    obtain ⟨a, v⟩ := p
    cases a with
    | loseReservation g =>
      simp only [step, hn, takeTurn] at h
      cases h
      exact .lose g v hn
    | execute g =>
      obtain ⟨u, hu, hc⟩ := State.focus_of_turn hn
      rw [step_execute hn hu] at h
      rcases hartStep_cases u with ⟨i, hi, he⟩ | ⟨r, hi, he⟩
      · rw [he] at h
        cases hx : exec i u with
        | next w =>
          rw [hx] at h
          cases h
          exact .run g v u i t hn hu hc hi hx
        | fault f =>
          obtain ⟨_, _, _, _, -, rfl⟩ := exec_fault hx
          rw [hx] at h
          cases h
          exact .fault g v u i _ hn hu hc hi hx
        | refused r =>
          rw [hx] at h
          cases h
          exact .refuse g v u r hn hu hc (he.trans hx)
      · rw [he] at h
        cases h
        exact .refuse g v u r hn hu hc he

end Sys2Proof.Machine
end

