-- ==== Sys2Proof/Laws/Events.lean ====
section
/-!
SUPPORT. What one completed instruction does to its hart, the other harts, memory and the history, and what the
history says of a reservation (20_memory R47 to R52).
-/

namespace Sys2Proof.Machine

/-! ### The other harts after the three effects -/

/-- The other harts after a write: each is unchanged or has seen a foreign write (20_memory R49). -/
theorem State.hartAt_storeValue (s : State) (addr : Word) (w : Width) (v : BitVec w.bits) {g : Nat}
    (hg : g ≠ s.hartId) :
    (s.storeValue addr w v).hartAt g =
      match s.cfg.memoryModel with
      | .scInterleaving => (s.hartAt g).map (Hart.afterForeignWrite s.cfg addr.toNat w.bytes)
      | .rvwmo => s.hartAt g := by
  unfold State.storeValue
  cases s.cfg.memoryModel
  · exact State.hartAt_invalidateOthers { s with mem := memWrite s.mem addr.toNat w v } addr.toNat w.bytes hg
  · rfl

theorem hartAt_loadReservedEffect (w : Width) (rd rs1 : Reg) (aq rl : Bool) (s : State) {g : Nat}
    (hg : g ≠ s.hartId) : (loadReservedEffect w rd rs1 aq rl s).hartAt g = s.hartAt g :=
  State.hartAt_congr (s := s) (t := loadReservedEffect w rd rs1 aq rl s) rfl rfl hg

theorem hartAt_storeConditionalEffect (w : Width) (rd rs1 rs2 : Reg) (aq rl b : Bool) (s : State) {g : Nat}
    (hg : g ≠ s.hartId) :
    (storeConditionalEffect w rd rs1 rs2 aq rl b s).hartAt g =
      (if b then s.storeValue (s.address rs1) w (s.data w rs2) else s).hartAt g := by
  cases b <;> exact State.hartAt_congr (by simp [storeConditionalEffect]) (by simp [storeConditionalEffect])
    (by simpa using hg)

theorem hartAt_amoEffect (op : AmoOp) (w : Width) (rd rs1 rs2 : Reg) (aq rl : Bool) (s : State) {g : Nat}
    (hg : g ≠ s.hartId) :
    (amoEffect op w rd rs1 rs2 aq rl s).hartAt g =
      (s.storeValue (s.address rs1) w (op.apply (s.loadValue (s.address rs1) w) (s.data w rs2))).hartAt g :=
  State.hartAt_congr (by simp [amoEffect]) (by simp [amoEffect]) (by simpa using hg)

/-! ### Every completed instruction -/

/-- What every completed instruction does: parameters, hart identifier, fault record and refusal marks stay, the pc
advances, one register is written, and every other hart is unchanged or has seen a foreign write. -/
theorem exec_control {i : Instr} {s t : State} (h : exec i s = .next t) :
    t.cfg = s.cfg ∧ t.hartId = s.hartId ∧ t.hart.fault = s.hart.fault ∧
      t.hart.refusal = s.hart.refusal ∧ t.refusal = s.refusal ∧ t.hart.pc = nextPc s.cfg s.hart.pc ∧
      (∃ rd v, t.hart.regs = (s.hart.writeX s.cfg.xlen rd v).regs) ∧
      ∀ g, g ≠ s.hartId → t.hartAt g = s.hartAt g ∨
        ∃ a n, t.hartAt g = (s.hartAt g).map (Hart.afterForeignWrite s.cfg a n) := by
  have others : ∀ (addr : Word) (w : Width) (v : BitVec w.bits) (g : Nat), g ≠ s.hartId →
      (s.storeValue addr w v).hartAt g = s.hartAt g ∨
        ∃ a n, (s.storeValue addr w v).hartAt g = (s.hartAt g).map (Hart.afterForeignWrite s.cfg a n) := by
    intro addr w v g hg
    rw [s.hartAt_storeValue addr w v hg]
    cases s.cfg.memoryModel
    · exact .inr ⟨_, _, rfl⟩
    · exact .inl rfl
  cases exec_next h with
  | load w rd rs1 aq rl ad ck =>
    refine ⟨rfl, rfl, by simp [loadReservedEffect], by simp [loadReservedEffect], rfl, by simp [loadReservedEffect],
      ⟨rd, s.cfg.xlen.sext (s.loadValue (s.address rs1) w), ?_⟩, fun g hg => .inl ?_⟩
    · simp only [loadReservedEffect, State.retire_hart, State.writeX_hart, State.setReservation_hart,
        State.setReservation_cfg, Hart.writeX]
      split <;> rfl
    · exact hartAt_loadReservedEffect _ _ _ _ _ _ hg
  | conditional w rd rs1 rs2 aq rl ad ck =>
    generalize s.scSucceeds (s.address rs1) w = b
    refine ⟨?_, ?_, ?_, ?_, ?_, ?_, ⟨rd, s.scCode b, ?_⟩, fun g hg => ?_⟩
    · cases b <;> simp [storeConditionalEffect]
    · cases b <;> simp [storeConditionalEffect]
    · cases b <;> simp [storeConditionalEffect]
    · cases b <;> simp [storeConditionalEffect]
    · cases b <;> simp [storeConditionalEffect]
    · cases b <;> simp [storeConditionalEffect]
    · cases b <;> simp only [storeConditionalEffect, State.retire_hart, State.writeX_hart,
        State.setReservation_hart, State.setReservation_cfg, if_true, State.storeValue_hart,
        State.storeValue_cfg, Bool.false_eq_true, if_false, Hart.writeX] <;> split <;> rfl
    · rw [hartAt_storeConditionalEffect _ _ _ _ _ _ _ _ hg]
      cases b
      · exact .inl rfl
      · exact others _ _ _ g hg
  | amo op w rd rs1 rs2 aq rl ad ck =>
    refine ⟨by simp [amoEffect], by simp [amoEffect], by simp [amoEffect], by simp [amoEffect], by simp [amoEffect],
      by simp [amoEffect],
      ⟨rd, s.cfg.xlen.sext (s.loadValue (s.address rs1) w), by simp [amoEffect]⟩, fun g hg => ?_⟩
    rw [hartAt_amoEffect _ _ _ _ _ _ _ _ hg]
    exact others _ _ _ g hg

/-- A reservation another hart still holds after a write was held before it and is not touched (20_memory R49). -/
theorem held_after_storeValue {s : State} (hm : s.cfg.memoryModel = .scInterleaving) {addr : Word} {w : Width}
    {v : BitVec w.bits} {g : Nat} (hg : g ≠ s.hartId) {x : Hart} {r : Reservation}
    (hx : (s.storeValue addr w v).hartAt g = some x) (hr : x.res = some r) :
    s.cfg.touches r.addr.toNat addr.toNat w.bytes = false ∧
      ∃ y, s.hartAt g = some y ∧ y.res = some r := by
  rw [s.hartAt_storeValue addr w v hg, hm, Option.map_eq_some_iff] at hx
  obtain ⟨y, hy, rfl⟩ := hx
  unfold Hart.afterForeignWrite at hr
  split at hr
  · rename_i hn
    simp [hn] at hr
  · rename_i q hq
    split at hr
    · simp at hr
    · rename_i ht
      rw [hq] at hr
      cases hr
      exact ⟨by simpa using ht, y, hy, hq⟩

/-- The event of a completed instruction under `SC_INTERLEAVING`: which reservation its hart holds after it, which
the other harts still hold, and what a successful store-conditional had reserved. -/
theorem exec_event {s t : State} {i : Instr} (hm : s.cfg.memoryModel = .scInterleaving)
    (h : exec i s = .next t) :
    ∃ e, t.history = e :: s.history ∧ e.hart = s.hartId ∧
      (∀ r, t.hart.res = some r → (s.hart.res = some r ∧ e.kind = .amo) ∨
        (e.kind = .loadReserved ∧
          e.load.any (fun a => (a.addr == r.addr) && (a.size == r.size)) = true)) ∧
      (∀ g, g ≠ s.hartId → ∀ x, t.hartAt g = some x → ∀ r, x.res = some r →
        e.storesInto s.cfg r.addr = false ∧ ∃ y, s.hartAt g = some y ∧ y.res = some r) ∧
      (e.kind = .storeConditional → ∀ st, e.store = some st → ∃ r, s.hart.res = some r ∧
        ((r.addr = st.addr ∧ r.size = st.size) ∨
          s.cfg.covers r.addr.toNat st.addr.toNat st.size.bytes = true)) := by
  cases exec_next h with
  | load w rd rs1 aq rl ad ck =>
    refine ⟨_, rfl, rfl, fun r hr => .inr ?_, fun g hg x hx r hr => ?_, fun hk => nomatch hk⟩
    · simp only [loadReservedEffect, State.retire_hart, State.writeX_hart, Hart.writeX_res,
        State.setReservation_hart, Option.some.injEq] at hr
      subst hr
      simp [State.loadReservedEvent]
    · rw [hartAt_loadReservedEffect _ _ _ _ _ _ hg] at hx
      exact ⟨rfl, x, hx, hr⟩
  | conditional w rd rs1 rs2 aq rl ad ck =>
    refine ⟨s.storeConditionalEvent w rd rs1 rs2 aq rl (s.scSucceeds (s.address rs1) w), ?_, rfl,
      fun r hr => ?_, fun g hg x hx r hr => ?_, fun _ st hst => ?_⟩
    · cases s.scSucceeds (s.address rs1) w <;> simp [storeConditionalEffect]
    · simp [storeConditionalEffect] at hr
    · rw [hartAt_storeConditionalEffect _ _ _ _ _ _ _ _ hg] at hx
      cases hs : s.scSucceeds (s.address rs1) w <;> rw [hs] at hx
      · exact ⟨rfl, x, hx, hr⟩
      · have := held_after_storeValue hm hg hx hr
        exact ⟨by simpa [Event.storesInto, State.storeConditionalEvent] using this.1, this.2⟩
    · cases hs : s.scSucceeds (s.address rs1) w <;> rw [hs] at hst
      · cases hst
      · simp only [State.storeConditionalEvent, if_true, Option.some.injEq] at hst
        subst hst
        unfold State.scSucceeds at hs
        split at hs
        · cases hs
        · rename_i r hr
          refine ⟨r, hr, ?_⟩
          split at hs
          · rename_i hh
            exact .inl hh
          · split at hs
            · rename_i hh
              exact .inr hh
            · cases hs
  | amo op w rd rs1 rs2 aq rl ad ck =>
    refine ⟨s.amoEvent w rd rs1 rs2 aq rl (s.loadValue (s.address rs1) w)
      (op.apply (s.loadValue (s.address rs1) w) (s.data w rs2)), by simp [amoEffect], rfl,
      fun r hr => .inl ⟨by simpa [amoEffect] using hr, rfl⟩, fun g hg x hx r hr => ?_, fun hk => nomatch hk⟩
    rw [hartAt_amoEffect _ _ _ _ _ _ _ _ hg] at hx
    have := held_after_storeValue hm hg hx hr
    exact ⟨by simpa [Event.storesInto, State.amoEvent] using this.1, this.2⟩

/-- The values read and the memory after a completed instruction under `SC_INTERLEAVING`. -/
theorem exec_memory {s t : State} {i : Instr} (hm : s.cfg.memoryModel = .scInterleaving)
    (h : exec i s = .next t) :
    ∃ e, t.history = e :: s.history ∧
      (∀ a, e.load = some a → a.value = (memRead s.mem a.addr.toNat a.size).setWidth 64) ∧
      ((e.store = none ∧ t.mem = s.mem) ∨ ∃ (a : Word) (w : Width) (v : BitVec w.bits),
        e.store = some ⟨a, w, v.setWidth 64⟩ ∧ t.mem = memWrite s.mem a.toNat w v) := by
  cases exec_next h with
  | load w rd rs1 aq rl ad ck =>
    refine ⟨_, rfl, fun a ha => ?_, .inl ⟨rfl, rfl⟩⟩
    cases ha
    simp [State.loadValue, hm]
  | conditional w rd rs1 rs2 aq rl ad ck =>
    refine ⟨s.storeConditionalEvent w rd rs1 rs2 aq rl (s.scSucceeds (s.address rs1) w), ?_,
      fun a ha => (by cases ha), ?_⟩
    · cases s.scSucceeds (s.address rs1) w <;> simp [storeConditionalEffect]
    · cases s.scSucceeds (s.address rs1) w
      · exact .inl (by simp [storeConditionalEffect, State.storeConditionalEvent])
      · exact .inr ⟨s.address rs1, w, s.data w rs2, rfl,
          by simp [storeConditionalEffect, State.storeValue, hm]⟩
  | amo op w rd rs1 rs2 aq rl ad ck =>
    refine ⟨s.amoEvent w rd rs1 rs2 aq rl (s.loadValue (s.address rs1) w)
      (op.apply (s.loadValue (s.address rs1) w) (s.data w rs2)), by simp [amoEffect], fun a ha => ?_,
      .inr ⟨s.address rs1, w, _, rfl, by simp [amoEffect, State.storeValue, hm]⟩⟩
    cases ha
    simp [State.loadValue, hm]

/-! ### What the history says of a reservation -/

/-- The load-reserved that backs a reservation, and the events after it. -/
theorem reservedSince_split {c : Config} {g : Nat} {r : Reservation} :
    ∀ {l : List Event}, reservedSince c g r l = true →
      ∃ post lr pre, l = post ++ lr :: pre ∧ lr.hart = g ∧ lr.kind = .loadReserved ∧
        (lr.load.any fun a => (a.addr == r.addr) && (a.size == r.size)) = true ∧
        ∀ d ∈ post, (d.hart = g → d.kind = .amo) ∧ (d.hart ≠ g → d.storesInto c r.addr = false)
  | [], h => by simp [reservedSince] at h
  | e :: rest, h => by
    unfold reservedSince at h
    split at h
    · rename_i hg
      split at h
      · rename_i hk; exact ⟨[], e, rest, rfl, hg, hk, h, by simp⟩
      · cases h
      · rename_i hk
        obtain ⟨post, lr, pre, a, b, c1, d, f⟩ := reservedSince_split h
        exact ⟨e :: post, lr, pre, by simp [a], b, c1, d, by
          intro x hx
          rcases List.mem_cons.1 hx with rfl | hx
          · exact ⟨fun _ => hk, fun hn => absurd hg hn⟩
          · exact f x hx⟩
    · rename_i hg
      simp at h
      obtain ⟨post, lr, pre, a, b, c1, d, f⟩ := reservedSince_split h.2
      exact ⟨e :: post, lr, pre, by simp [a], b, c1, d, by
          intro x hx
          rcases List.mem_cons.1 hx with rfl | hx
          · exact ⟨fun hn => absurd hn hg, fun _ => h.1⟩
          · exact f x hx⟩

/-- What stands at each place of a history after `lr :: pre` reversed, `post` reversed and one event more. -/
theorem getElem?_split (post pre : List Event) (lr e : Event) (k : Nat) :
    ((post ++ lr :: pre).reverse ++ [e])[k]? =
      if k < pre.length then pre.reverse[k]?
      else if k = pre.length then some lr
      else if k < pre.length + 1 + post.length then post.reverse[k - pre.length - 1]?
      else if k = pre.length + 1 + post.length then some e else none := by
  simp only [List.reverse_append, List.reverse_cons, List.append_assoc]
  split
  · rw [List.getElem?_append_left (by simpa)]
  · rw [List.getElem?_append_right (by simp; omega)]
    simp only [List.length_reverse, List.singleton_append]
    split
    · simp [*]
    · obtain ⟨j, hj⟩ : ∃ j, k - pre.length = j + 1 := ⟨k - pre.length - 1, by omega⟩
      rw [hj, List.getElem?_cons_succ]
      split
      · rw [List.getElem?_append_left (by simp; omega)]
        congr 1
      · rw [List.getElem?_append_right (by simp; omega)]
        split
        · simp [show j - post.length = 0 by omega]
        · simp
          omega

/-- The load-reserved that backs a reservation is the latest of its hart before the next event. -/
theorem latestBefore_of_split {post pre : List Event} {lr e : Event} (hk : lr.kind = .loadReserved)
    (hl : lr.hart = e.hart) (hp : ∀ d ∈ post, d.hart = e.hart → d.kind = .amo) :
    latestBefore ((post ++ lr :: pre).reverse ++ [e]) (post ++ lr :: pre).reverse.length
      (·.kind == .loadReserved) = some pre.length := by
  have hlen : (post ++ lr :: pre).reverse.length = pre.length + (1 + post.length) := by
    simp
    omega
  have hget := getElem?_split post pre lr e
  rw [hlen]
  generalize (post ++ lr :: pre).reverse ++ [e] = h at hget
  have hsame : ∀ k, sameHart h k (pre.length + (1 + post.length)) =
      (h[k]?.map fun d => d.hart == e.hart).getD false := by
    intro k
    have : h[pre.length + (1 + post.length)]? = some e := by
      rw [hget]
      simp
      omega
    unfold sameHart
    rw [this]
    cases h[k]? <;> rfl
  unfold latestBefore
  rw [List.range_add, List.range_add]
  simp only [List.map_append, List.filter_append, List.range_one, List.map_cons, List.map_nil, Nat.add_zero]
  rw [List.filter_cons_of_pos (by
    unfold eventBefore
    rw [hsame, hget]
    simp [hk, hl])]
  have hnil : ∀ l : List Nat, l = [] → ∀ a : List Nat, (a ++ ([pre.length] ++ l)).getLast? = some pre.length := by
    rintro _ rfl a
    simp
  refine hnil _ ?_ _
  simp only [List.filter_eq_nil_iff, List.mem_map, List.mem_range]
  rintro k ⟨j, ⟨i, hi, rfl⟩, rfl⟩
  unfold eventBefore
  rw [hsame, hget, if_neg (by omega), if_neg (by omega), if_pos (by omega)]
  have : post.reverse[pre.length + (1 + i) - pre.length - 1]? = some (post.reverse[i]'(by simpa)) := by
    rw [List.getElem?_eq_some_iff]
    refine ⟨by simp; omega, ?_⟩
    congr 1
    omega
  rw [this]
  have hm : post.reverse[i]'(by simpa) ∈ post := by
    rw [← List.mem_reverse]
    exact List.getElem_mem _
  generalize post.reverse[i]'(by simpa) = d at hm
  by_cases hh : d.hart = e.hart
  · simp [hp _ hm hh]
  · simp [hh]

/-- The bytes of a well-formed reservation lie in its reservation set (20_memory R51). -/
theorem inReservationSet_of_wf {c : Config} {r : Reservation} (hg : c.wfGranule = true)
    (hw : r.wf c = true) {k : Nat} (hk : k < r.size.bytes) :
    c.inReservationSet r.addr.toNat (r.addr.toNat + k) = true := by
  simp only [Reservation.wf, Bool.and_eq_true, aligned_iff] at hw
  obtain ⟨⟨h1, h2⟩, h3⟩ := hw
  simp only [Config.inReservationSet, beq_iff_eq]
  have hd : r.size.bytes ∣ c.granule := by
    unfold Config.granule
    simp only [Config.wfGranule, decide_eq_true_eq] at hg
    cases hs : r.size
    · show 4 ∣ _
      rw [show 4 = 2 ^ 2 by rfl]; apply Nat.pow_dvd_pow
      split at hg <;> omega
    · rw [hs] at h3
      simp [Config.admitsD] at h3
      rw [if_pos h3.1] at hg
      show 8 ∣ _
      rw [show 8 = 2 ^ 3 by rfl]; exact Nat.pow_dvd_pow _ hg
  obtain ⟨q, hq⟩ := hd
  obtain ⟨n, hn⟩ := Nat.dvd_of_mod_eq_zero h1
  have hpos : 0 < r.size.bytes := by cases r.size <;> decide
  rw [hq, hn, ← Nat.div_div_eq_div_mul, ← Nat.div_div_eq_div_mul]
  congr 1
  rw [Nat.mul_add_div hpos, Nat.div_eq_of_lt hk, Nat.mul_div_cancel_left _ hpos, Nat.add_zero]

end Sys2Proof.Machine
end

