-- ==== Sys2Proof/Laws/PerInstr.lean ====
section
/-!
SUPPORT. Statements made per instruction.
-/

namespace Sys2Proof.Laws.EncodedFormat

/-- The word of the instruction has the opcode of 30_encoding R72, the width field of its family (30_encoding R73,
42_rv64a R120) and ends in `11` (30_encoding R70). -/
def Statement (i : Instr) : Prop :=
  (encodeFields i).opcode = 0b0101111#7 ∧ (encodeFields i).funct3 = i.width.funct3 ∧
    (encodeFields i).opcode.extractLsb' 0 2 = 0b11#2

/-- The opcode ends in `11`. -/
theorem low_bits : amoOpcode.extractLsb' 0 2 = 0b11#2 := by decide

theorem lrW (rd rs1 : Reg) (aq rl : Bool) : Statement (.lrW rd rs1 aq rl) :=
  ⟨rfl, rfl, low_bits⟩

theorem scW (rd rs1 rs2 : Reg) (aq rl : Bool) :
    Statement (.scW rd rs1 rs2 aq rl) :=
  ⟨rfl, rfl, low_bits⟩

theorem amoswapW (rd rs1 rs2 : Reg) (aq rl : Bool) :
    Statement (.amoswapW rd rs1 rs2 aq rl) :=
  ⟨rfl, rfl, low_bits⟩

theorem amoaddW (rd rs1 rs2 : Reg) (aq rl : Bool) :
    Statement (.amoaddW rd rs1 rs2 aq rl) :=
  ⟨rfl, rfl, low_bits⟩

theorem amoxorW (rd rs1 rs2 : Reg) (aq rl : Bool) :
    Statement (.amoxorW rd rs1 rs2 aq rl) :=
  ⟨rfl, rfl, low_bits⟩

theorem amoandW (rd rs1 rs2 : Reg) (aq rl : Bool) :
    Statement (.amoandW rd rs1 rs2 aq rl) :=
  ⟨rfl, rfl, low_bits⟩

theorem amoorW (rd rs1 rs2 : Reg) (aq rl : Bool) :
    Statement (.amoorW rd rs1 rs2 aq rl) :=
  ⟨rfl, rfl, low_bits⟩

theorem amominW (rd rs1 rs2 : Reg) (aq rl : Bool) :
    Statement (.amominW rd rs1 rs2 aq rl) :=
  ⟨rfl, rfl, low_bits⟩

theorem amomaxW (rd rs1 rs2 : Reg) (aq rl : Bool) :
    Statement (.amomaxW rd rs1 rs2 aq rl) :=
  ⟨rfl, rfl, low_bits⟩

theorem amominuW (rd rs1 rs2 : Reg) (aq rl : Bool) :
    Statement (.amominuW rd rs1 rs2 aq rl) :=
  ⟨rfl, rfl, low_bits⟩

theorem amomaxuW (rd rs1 rs2 : Reg) (aq rl : Bool) :
    Statement (.amomaxuW rd rs1 rs2 aq rl) :=
  ⟨rfl, rfl, low_bits⟩

theorem lrD (rd rs1 : Reg) (aq rl : Bool) : Statement (.lrD rd rs1 aq rl) :=
  ⟨rfl, rfl, low_bits⟩

theorem scD (rd rs1 rs2 : Reg) (aq rl : Bool) :
    Statement (.scD rd rs1 rs2 aq rl) :=
  ⟨rfl, rfl, low_bits⟩

theorem amoswapD (rd rs1 rs2 : Reg) (aq rl : Bool) :
    Statement (.amoswapD rd rs1 rs2 aq rl) :=
  ⟨rfl, rfl, low_bits⟩

theorem amoaddD (rd rs1 rs2 : Reg) (aq rl : Bool) :
    Statement (.amoaddD rd rs1 rs2 aq rl) :=
  ⟨rfl, rfl, low_bits⟩

theorem amoxorD (rd rs1 rs2 : Reg) (aq rl : Bool) :
    Statement (.amoxorD rd rs1 rs2 aq rl) :=
  ⟨rfl, rfl, low_bits⟩

theorem amoandD (rd rs1 rs2 : Reg) (aq rl : Bool) :
    Statement (.amoandD rd rs1 rs2 aq rl) :=
  ⟨rfl, rfl, low_bits⟩

theorem amoorD (rd rs1 rs2 : Reg) (aq rl : Bool) :
    Statement (.amoorD rd rs1 rs2 aq rl) :=
  ⟨rfl, rfl, low_bits⟩

theorem amominD (rd rs1 rs2 : Reg) (aq rl : Bool) :
    Statement (.amominD rd rs1 rs2 aq rl) :=
  ⟨rfl, rfl, low_bits⟩

theorem amomaxD (rd rs1 rs2 : Reg) (aq rl : Bool) :
    Statement (.amomaxD rd rs1 rs2 aq rl) :=
  ⟨rfl, rfl, low_bits⟩

theorem amominuD (rd rs1 rs2 : Reg) (aq rl : Bool) :
    Statement (.amominuD rd rs1 rs2 aq rl) :=
  ⟨rfl, rfl, low_bits⟩

theorem amomaxuD (rd rs1 rs2 : Reg) (aq rl : Bool) :
    Statement (.amomaxuD rd rs1 rs2 aq rl) :=
  ⟨rfl, rfl, low_bits⟩

end Sys2Proof.Laws.EncodedFormat
end

