-- ==== Sys2Proof/Tests/Slice0.lean ====
section
/-!
SUPPORT. The model's own tests. Every expected value is copied from the tables of 95_test_vectors (named in
each test) or from a worked example of an instruction rule, or written out bit by bit from an encoding table.
-/

namespace Sys2Proof.Machine.Tests

/-- The conventions of 95_test_vectors: MEM is `0x1000 .. 0x2FFF`, granule 4, address-misaligned. -/
def vecConfig (x : Xlen) : Config :=
  { Config.reset with xlen := x, admitD := x == .rv64, regions := [⟨0x1000, 0x2000⟩], granuleLog2 := 2 }

/-- A hart at `pc = 0x100` with the given registers set and no reservation. -/
def vecHart (x : Xlen) (rs : List (Reg × Word)) : Hart :=
  rs.foldl (fun h p => h.writeX x p.1 p.2) { Hart.reset (vecConfig x) [] with pc := 0x100 }

/-- One hart, the given registers set and the given words in memory. -/
def vec (x : Xlen) (rs : List (Reg × Word)) (ws : List (Nat × BitVec 32)) : State :=
  { State.launch (vecConfig x) [] [] (ws.foldl (fun m p => memWrite m p.1 .word p.2) []) with
    hart := vecHart x rs }

/-- A doubleword in memory. -/
def withDoubleword (s : State) (a : Nat) (v : BitVec 64) : State :=
  { s with mem := memWrite s.mem a .doubleword v }

/-- The hart's reservation set. -/
def withRes (s : State) (addr : Word) (w : Width) : State :=
  s.setReservation (some ⟨addr, w⟩)

/-- What a test looks at in a next state. -/
def after {α : Type} (r : Result) (f : State → α) : Option α :=
  match r with
  | .next t => some (f t)
  | .fault _ => none
  | .refused _ => none

/-- The fault of an outcome. -/
def faultOf (r : Result) : Option Fault :=
  match r with
  | .next _ => none
  | .fault f => some f
  | .refused _ => none

/-- `W[a]`. -/
def wordAt (s : State) (a : Nat) : BitVec 32 := memRead s.mem a .word

/-- `D[a]`. -/
def doublewordAt (s : State) (a : Nat) : BitVec 64 := memRead s.mem a .doubleword

/-! ### Decode: one word per row, written out from the encoding tables (V-ENC, 42_rv64a R120) -/

theorem test_decode_lr_w : decode tableConfig 0b00010_0_0_00000_01010_010_01100_01011_11#32 =
    .ok (.lrW 12 10 false false) := by decide
theorem test_decode_sc_w : decode tableConfig 0b00011_1_0_01011_01010_010_01100_01011_11#32 =
    .ok (.scW 12 10 11 true false) := by decide
theorem test_decode_amoswap_w : decode tableConfig 0b00001_0_1_01011_01010_010_01100_01011_11#32 =
    .ok (.amoswapW 12 10 11 false true) := by decide
theorem test_decode_amoadd_w : decode tableConfig 0b00000_1_1_01011_01010_010_01100_01011_11#32 =
    .ok (.amoaddW 12 10 11 true true) := by decide
theorem test_decode_amoxor_w : decode tableConfig 0b00100_0_0_01011_01010_010_01100_01011_11#32 =
    .ok (.amoxorW 12 10 11 false false) := by decide
theorem test_decode_amoand_w : decode tableConfig 0b01100_0_0_01011_01010_010_01100_01011_11#32 =
    .ok (.amoandW 12 10 11 false false) := by decide
theorem test_decode_amoor_w : decode tableConfig 0b01000_0_0_01011_01010_010_01100_01011_11#32 =
    .ok (.amoorW 12 10 11 false false) := by decide
theorem test_decode_amomin_w : decode tableConfig 0b10000_0_0_01011_01010_010_01100_01011_11#32 =
    .ok (.amominW 12 10 11 false false) := by decide
theorem test_decode_amomax_w : decode tableConfig 0b10100_0_0_01011_01010_010_01100_01011_11#32 =
    .ok (.amomaxW 12 10 11 false false) := by decide
theorem test_decode_amominu_w : decode tableConfig 0b11000_0_0_01011_01010_010_01100_01011_11#32 =
    .ok (.amominuW 12 10 11 false false) := by decide
theorem test_decode_amomaxu_w : decode tableConfig 0b11100_1_1_11111_11111_010_11111_01011_11#32 =
    .ok (.amomaxuW 31 31 31 true true) := by decide
theorem test_decode_lr_d : decode tableConfig 0b00010_0_0_00000_01010_011_00101_01011_11#32 =
    .ok (.lrD 5 10 false false) := by decide
theorem test_decode_sc_d : decode tableConfig 0b00011_0_0_01011_01010_011_00110_01011_11#32 =
    .ok (.scD 6 10 11 false false) := by decide
theorem test_decode_amoswap_d : decode tableConfig 0b00001_1_1_01011_01010_011_01100_01011_11#32 =
    .ok (.amoswapD 12 10 11 true true) := by decide
theorem test_decode_amoadd_d : decode tableConfig 0b00000_0_0_01011_01010_011_01100_01011_11#32 =
    .ok (.amoaddD 12 10 11 false false) := by decide
theorem test_decode_amoxor_d : decode tableConfig 0b00100_0_0_01011_01010_011_01100_01011_11#32 =
    .ok (.amoxorD 12 10 11 false false) := by decide
theorem test_decode_amoand_d : decode tableConfig 0b01100_0_0_01011_01010_011_01100_01011_11#32 =
    .ok (.amoandD 12 10 11 false false) := by decide
theorem test_decode_amoor_d : decode tableConfig 0b01000_0_0_01011_01010_011_01100_01011_11#32 =
    .ok (.amoorD 12 10 11 false false) := by decide
theorem test_decode_amomin_d : decode tableConfig 0b10000_0_0_01011_01010_011_01100_01011_11#32 =
    .ok (.amominD 12 10 11 false false) := by decide
theorem test_decode_amomax_d : decode tableConfig 0b10100_0_0_01011_01010_011_01100_01011_11#32 =
    .ok (.amomaxD 12 10 11 false false) := by decide
theorem test_decode_amominu_d : decode tableConfig 0b11000_0_0_01011_01010_011_01100_01011_11#32 =
    .ok (.amominuD 12 10 11 false false) := by decide
theorem test_decode_amomaxu_d : decode tableConfig 0b11100_0_0_01011_01010_011_01100_01011_11#32 =
    .ok (.amomaxuD 12 10 11 false false) := by decide

/-- V-ENC: the words the tables print in hexadecimal. -/
theorem test_encode_hex :
    encode (.lrW 12 10 false false) = 0x1005262F ∧ encode (.scW 12 10 11 true false) = 0x1CB5262F ∧
      encode (.amoswapW 12 10 11 false true) = 0x0AB5262F ∧
      encode (.amomaxuW 31 31 31 true true) = 0xE7FFAFAF ∧
      encode (.amoswapD 12 10 11 true true) = 0x0EB5362F := by decide

/-- V-REF-1 to V-REF-12: the words the decoder refuses, each by its name. -/
theorem test_decode_refusals :
    decode tableConfig 0x101522AF = .error .lrWithNonzeroRs2 ∧
      decode tableConfig 0x28B5262F = .error .unknownFunct5 ∧
      decode tableConfig 0x00B5062F = .error .unknownWidth ∧
      decode tableConfig 0x00B5762F = .error .unknownWidth ∧
      decode (vecConfig .rv32) 0x00B5362F = .error .doublewordFormNotAdmitted ∧
      decode tableConfig 0x00000013 = .error .notAnAtomic ∧
      decode tableConfig 0xFFFFFFFF = .error .notAnAtomic := by decide

/-- 20_memory R40: program bytes are little-endian. -/
theorem test_decode_bytes : decodeBytes tableConfig [0x2F, 0x26, 0xB5, 0x18, 0x77] =
    .ok (.scW 12 10 11 false false, [0x77]) := by decide

/-- 30_encoding R80, R81: the two conventions of the assembler text. -/
theorem test_assembler_text :
    (Instr.scW 6 10 11 false true).sourceText = "sc.w x6,x10,x11" ∧
      (Instr.scW 6 10 11 false true).toolchainText = "sc.w.rl t1, a1, (a0)" ∧
      (Instr.amoswapW 5 10 6 true false).toolchainText = "amoswap.w.aq t0, t1, (a0)" := by decide

/-! ### Well-formedness: an ill-formed term for each check -/

theorem test_wf_instr : (Instr.lrD 5 10 false false).wf (vecConfig .rv32) = false ∧
    (Instr.lrD 5 10 false false).wf (vecConfig .rv64) = true ∧
    (Instr.lrW 5 10 false false).wf (vecConfig .rv32) = true := by decide
theorem test_wf_admitD : ({ vecConfig .rv32 with admitD := true }).wfAdmitD = false := by decide
theorem test_wf_granule : ({ vecConfig .rv32 with granuleLog2 := 1 }).wfGranule = false ∧
    (vecConfig .rv64).wfGranule = false ∧ (vecConfig .rv32).wfGranule = true := by decide
theorem test_wf_failCodes :
    ({ vecConfig .rv32 with scFailCodes := .oneOf 1 [0] }).wfFailCodes = false ∧
      ({ vecConfig .rv32 with scFailCodes := .oneOf 0x100000000 [] }).wfFailCodes = false := by decide
theorem test_wf_resetPc : ({ vecConfig .rv32 with resetPc := 0x102 }).wfResetPc = false ∧
    ({ vecConfig .rv32 with resetPc := 0x100000000 }).wfResetPc = false := by decide
theorem test_wf_regions :
    ({ vecConfig .rv32 with regions := [⟨0xFFFFFFFF, 2⟩] }).wfRegions = false := by decide
theorem test_wf_program :
    ({ vecConfig .rv32 with program := [(0x102, 0)] }).wfProgram = false ∧
      ({ vecConfig .rv32 with program := [(0x1000, 0)] }).wfProgram = false ∧
      ({ vecConfig .rv32 with program := [(0xFFFFFFFE, 0)] }).wfProgram = false ∧
      ({ vecConfig .rv32 with program := [(0x100, 0), (0x100, 1)] }).wfProgram = false := by decide
theorem test_wf_reset : Config.reset.wf = true ∧ State.reset.wf = true := by decide

/-! ### LR/SC (95_test_vectors section 3) -/

/-- V-LRSC-2, on both widths. -/
theorem test_lr_w_signs :
    after (exec (.lrW 5 10 false false) (vec .rv64 [(10, 0x1000)] [(0x1000, 0x80000001)]))
        (fun t => (t.readX 5, t.hart.res, t.hart.pc)) =
      some (0xFFFFFFFF80000001, some ⟨0x1000, .word⟩, 0x104) ∧
    after (exec (.lrW 5 10 false false) (vec .rv32 [(10, 0x1000)] [(0x1000, 0x80000001)]))
        (fun t => t.readX 5) = some 0x80000001 := by decide
/-- V-LRSC-4: `rd = rs1`. -/
theorem test_lr_w_same_register :
    after (exec (.lrW 10 10 true true) (vec .rv32 [(10, 0x1000)] [(0x1000, 0x1004)]))
        (fun t => (t.readX 10, t.hart.res)) = some (0x1004, some ⟨0x1000, .word⟩) := by decide
/-- V-LRSC-7: misalignment is reported before the missing byte. -/
theorem test_lr_w_misaligned_first :
    faultOf (exec (.lrW 5 10 false false) (vec .rv32 [(10, 0x2FFE)] [])) =
      some (.exception ⟨.loadAddressMisaligned, 0x2FFE, 0x100⟩) := by decide
/-- V-LRSC-10 and V-LRSC-20: success stores the low 32 bits only. -/
theorem test_sc_w_success :
    after (exec (.scW 6 10 11 false false) (withRes (vec .rv64 [(10, 0x1000), (11, 0xDEADBEEF00000002)]
        [(0x1000, 0), (0x1004, 0x55555555)]) 0x1000 .word))
        (fun t => (wordAt t 0x1000, wordAt t 0x1004, t.readX 6, t.hart.res)) =
      some (0x00000002, 0x55555555, 0, none) := by decide
/-- V-LRSC-12: another word outside the reservation set, granule 4: no write. -/
theorem test_sc_w_other_word :
    after (exec (.scW 6 13 11 false false)
        (withRes (vec .rv32 [(13, 0x1004), (11, 5)] []) 0x1000 .word))
        (fun t => (wordAt t 0x1004, t.hart.res)) = some (0, none) := by decide
/-- V-LRSC-16: the check precedes the reservation test. -/
theorem test_sc_w_misaligned :
    faultOf (exec (.scW 6 10 11 false false)
        (withRes (vec .rv32 [(10, 0x1002)] []) 0x1000 .word)) =
      some (.exception ⟨.storeAMOAddressMisaligned, 0x1002, 0x100⟩) := by decide
/-- V-D-1. -/
theorem test_lr_d :
    after (exec (.lrD 5 10 false false)
        (withDoubleword (vec .rv64 [(10, 0x1000)] []) 0x1000 0x8000000000000001))
        (fun t => (t.readX 5, t.hart.res)) =
      some (0x8000000000000001, some ⟨0x1000, .doubleword⟩) := by decide
/-- V-D-2: the bytes of a doubleword, lowest address first. -/
theorem test_sc_d_bytes :
    after (exec (.scD 6 10 11 false false)
        (withRes (vec .rv64 [(10, 0x1000), (11, 0x1122334455667788)] []) 0x1000 .doubleword))
        (fun t => (memByte t.mem 0x1000, memByte t.mem 0x1001, memByte t.mem 0x1007, t.readX 6)) =
      some (0x88, 0x77, 0x11, 0) := by decide
/-- V-D-3: after an `lr.w`, granule 4: outside the reservation set. -/
theorem test_sc_d_after_lr_w :
    after (exec (.scD 6 10 11 false false)
        (withRes (vec .rv64 [(10, 0x1000), (11, 5)] []) 0x1000 .word))
        (fun t => (doublewordAt t 0x1000, t.hart.res)) = some (0, none) := by decide

/-! ### AMOs (95_test_vectors section 4, 42_rv64a) -/

/-- The memory word at `0x2000` and `a2` after a word AMO with `a0 = 0x2000` and `a1 = src`. -/
def amoVec (i : Instr) (x : Xlen) (old : BitVec 32) (src : Word) : Option (BitVec 32 × Word) :=
  after (exec i (vec x [(10, 0x2000), (11, src)] [(0x2000, old)])) fun t => (wordAt t 0x2000, t.readX 12)

/-- The doubleword at `0x2000` and `a2` after a doubleword AMO with `a0 = 0x2000` and `a1 = src`. -/
def amoVecD (i : Instr) (old : BitVec 64) (src : Word) : Option (BitVec 64 × Word) :=
  after (exec i (withDoubleword (vec .rv64 [(10, 0x2000), (11, src)] []) 0x2000 old))
    fun t => (doublewordAt t 0x2000, t.readX 12)

/-- V-AMO-1. -/
theorem test_amoswap_w :
    amoVec (.amoswapW 12 10 11 false false) .rv32 5 3 = some (3, 5) := by decide
/-- V-AMO-2: `rd = rs2`. -/
theorem test_amoswap_w_exchange :
    after (exec (.amoswapW 11 10 11 false false)
        (vec .rv64 [(10, 0x2000), (11, 0xFFFFFFFF00000003)] [(0x2000, 0x80000005)]))
        (fun t => (wordAt t 0x2000, t.readX 11)) = some (3, 0xFFFFFFFF80000005) := by decide
/-- V-AMO-4 and V-AMO-5: wrap. -/
theorem test_amoadd_w :
    amoVec (.amoaddW 12 10 11 false false) .rv64 0x7FFFFFFF 1 = some (0x80000000, 0x7FFFFFFF) ∧
      amoVec (.amoaddW 12 10 11 false false) .rv64 0xFFFFFFFF 1 =
        some (0, 0xFFFFFFFFFFFFFFFF) := by decide
/-- V-AMO-11. -/
theorem test_amoxor_w :
    amoVec (.amoxorW 12 10 11 false false) .rv64 0xFF00FF00 0x0FF00FF0 =
      some (0xF0F0F0F0, 0xFFFFFFFFFF00FF00) := by decide
/-- V-AMO-13. -/
theorem test_amoand_w :
    amoVec (.amoandW 12 10 11 false false) .rv32 0xFF00FF00 0x0FF00FF0 =
      some (0x0F000F00, 0xFF00FF00) := by decide
/-- V-AMO-15. -/
theorem test_amoor_w :
    amoVec (.amoorW 12 10 11 false false) .rv32 0xFF00FF00 0x0FF00FF0 =
      some (0xFFF0FFF0, 0xFF00FF00) := by decide
/-- V-AMO-16: `rd = rs1 = rs2`. -/
theorem test_amoor_w_same_register :
    after (exec (.amoorW 10 10 10 false false) (vec .rv32 [(10, 0x2000)] [(0x2000, 0xF)]))
        (fun t => (wordAt t 0x2000, t.readX 10)) = some (0x200F, 0xF) := by decide
/-- V-AMO-17 and V-AMO-18. -/
theorem test_amomin_w :
    amoVec (.amominW 12 10 11 false false) .rv32 1 0xFFFFFFFF = some (0xFFFFFFFF, 1) ∧
      amoVec (.amominW 12 10 11 false false) .rv64 0x80000000 0x7FFFFFFF =
        some (0x80000000, 0xFFFFFFFF80000000) := by decide
/-- V-AMO-19 and V-AMO-26. -/
theorem test_amomax_w :
    amoVec (.amomaxW 12 10 11 false false) .rv32 1 0xFFFFFFFF = some (1, 1) ∧
      amoVec (.amomaxW 12 10 11 false false) .rv64 5 0x180000000 = some (5, 5) := by decide
/-- V-AMO-21 and V-AMO-23: sign extension although the comparison is unsigned. -/
theorem test_amominu_w :
    amoVec (.amominuW 12 10 11 false false) .rv32 1 0xFFFFFFFF = some (1, 1) ∧
      amoVec (.amominuW 12 10 11 false false) .rv64 0x80000000 0x7FFFFFFF =
        some (0x7FFFFFFF, 0xFFFFFFFF80000000) := by decide
/-- V-AMO-22 and V-AMO-27. -/
theorem test_amomaxu_w :
    amoVec (.amomaxuW 12 10 11 false false) .rv32 1 0xFFFFFFFF = some (0xFFFFFFFF, 1) ∧
      amoVec (.amomaxuW 12 10 11 false false) .rv64 5 0x180000000 = some (0x80000000, 5) := by decide
/-- 42_rv64a R124. -/
theorem test_amoswap_d :
    amoVecD (.amoswapD 12 10 11 true true) 5 0xFFFFFFFF00000003 = some (0xFFFFFFFF00000003, 5) := by
  decide
/-- 42_rv64a R125: the carry crosses bit 31. -/
theorem test_amoadd_d :
    amoVecD (.amoaddD 12 10 11 false false) 0xFFFFFFFF 1 = some (0x100000000, 0xFFFFFFFF) := by decide
/-- 42_rv64a R126. -/
theorem test_amoxor_d :
    amoVecD (.amoxorD 12 10 11 false false) 0xFF00FF00FF00FF00 0x0FF00FF00FF00FF0 =
      some (0xF0F0F0F0F0F0F0F0, 0xFF00FF00FF00FF00) := by decide
/-- 42_rv64a R127. -/
theorem test_amoand_d :
    amoVecD (.amoandD 12 10 11 false false) 0xFF00FF00FF00FF00 0x0FF00FF00FF00FF0 =
      some (0x0F000F000F000F00, 0xFF00FF00FF00FF00) := by decide
/-- 42_rv64a R128. -/
theorem test_amoor_d :
    amoVecD (.amoorD 12 10 11 false false) 0xFF00FF00FF00FF00 0x0FF00FF00FF00FF0 =
      some (0xFFF0FFF0FFF0FFF0, 0xFF00FF00FF00FF00) := by decide
/-- 42_rv64a R129. -/
theorem test_amomin_d :
    amoVecD (.amominD 12 10 11 false false) 1 0xFFFFFFFFFFFFFFFF = some (0xFFFFFFFFFFFFFFFF, 1) := by
  decide
/-- 42_rv64a R130. -/
theorem test_amomax_d :
    amoVecD (.amomaxD 12 10 11 false false) 1 0xFFFFFFFFFFFFFFFF = some (1, 1) := by decide
/-- 42_rv64a R131. -/
theorem test_amominu_d :
    amoVecD (.amominuD 12 10 11 false false) 1 0xFFFFFFFFFFFFFFFF = some (1, 1) := by decide
/-- 42_rv64a R132. -/
theorem test_amomaxu_d :
    amoVecD (.amomaxuD 12 10 11 false false) 1 0xFFFFFFFFFFFFFFFF = some (0xFFFFFFFFFFFFFFFF, 1) := by
  decide
/-- V-AMO-41 and V-D-9: the store/AMO kind; a multiple of 4 is not enough for a doubleword. -/
theorem test_amo_faults :
    faultOf (exec (.amoswapW 12 10 11 false false) (vec .rv32 [(10, 0x3000)] [])) =
        some (.exception ⟨.storeAMOAccessFault, 0x3000, 0x100⟩) ∧
      faultOf (exec (.amoaddD 12 10 11 false false) (vec .rv64 [(10, 0x2004)] [])) =
        some (.exception ⟨.storeAMOAddressMisaligned, 0x2004, 0x100⟩) := by decide

/-! ### Two harts (V-LRSC-30 to V-LRSC-35, V-AMO-44) -/

/-- Hart 0 steps, with the reservation `valid(0x1000, 4)` held by hart 1. -/
def twoHarts (g : Nat) : State :=
  { vec .rv32 [(10, 0x1004), (11, 0xBB)] [(0x1000, 1)] with
    cfg := { vecConfig .rv32 with granuleLog2 := g }
    upper := [{ vecHart .rv32 [(10, 0x1000)] with res := some ⟨0x1000, .word⟩ }] }

/-- V-LRSC-35: a write to the next word ends the reservation with granule 64, not with granule 4. -/
theorem test_foreign_write_granule :
    after (exec (.amoaddW 12 10 11 false false) (twoHarts 2)) (fun t => t.upper.map Hart.res) =
        some [some ⟨0x1000, .word⟩] ∧
      after (exec (.amoaddW 12 10 11 false false) (twoHarts 6)) (fun t => t.upper.map Hart.res) =
        some [none] := by decide
/-- V-LRSC-33: a failed store-conditional ends nobody's reservation, whatever the granule. -/
theorem test_failed_sc_invalidates_nobody :
    after (exec (.scW 6 10 11 false false) (twoHarts 6)) (fun t => t.upper.map Hart.res) =
      some [some ⟨0x1000, .word⟩] := by decide
/-- 20_memory R50: the environment's step on hart 1. -/
theorem test_environment_step :
    after (step { twoHarts 2 with schedule := [.loseReservation 1] })
      (fun t => (t.upper.map Hart.res, t.hart.pc)) = some ([none], 0x100) := by decide

/-! ### Steps -/

/-- A state about to run one word of a hart at `0x100`. -/
def aboutToRun (s : State) (w : InstrWord) : State :=
  { s with cfg := { s.cfg with program := [(0x100, w)], endPc := [0x104] }, schedule := [.execute 0] }

/-- P1, first row: `amoadd.w t0, t1, (a0)`, fetched and run; the hart has then ended. -/
theorem test_step_runs_word :
    after (step (aboutToRun (vec .rv32 [(10, 0x1000), (6, 1)] [(0x1000, 0x7FFFFFFF)]) 0x006522AF))
        (fun t => (wordAt t 0x1000, t.readX 5, t.hart.pc, t.hart.canStep t.cfg)) =
      some (0x80000000, 0x7FFFFFFF, 0x104, false) := by decide
/-- V-AMO-40: the fault is recorded, and the hart takes no further step. -/
theorem test_step_records_fault :
    after (step (aboutToRun (vec .rv32 [(10, 0x2002)] []) 0x00B5262F))
        (fun t => (t.hart.fault, t.hart.pc, t.hart.canStep t.cfg)) =
      some (some ⟨.storeAMOAddressMisaligned, 0x2002, 0x100⟩, 0x100, false) := by decide
/-- The outcome is a refusal with this reason. -/
def refusedWith (r : Result) (why : Refusal) : Bool :=
  match r with
  | .refused x => x == why
  | .next _ => false
  | .fault _ => false
/-- V-REF-13 and V-REF-10, met by a step: the refusal is marked in the hart and in the state. -/
theorem test_step_marks_refusal :
    after (step { aboutToRun (vec .rv32 [] []) 0x00000013 with hart :=
        { vecHart .rv32 [] with pc := 0x200 } })
        (fun t => (t.hart.refusal, t.refusal, t.hart.pc, t.hart.canStep t.cfg)) =
      some (some .pcOutsideProgram, some .pcOutsideProgram, 0x200, false) ∧
    after (step (aboutToRun (vec .rv32 [] []) 0x00000013)) (fun t => (t.hart.refusal, t.refusal)) =
      some (some (.undecodable .notAnAtomic), some (.undecodable .notAnAtomic)) := by decide
/-- 60_exceptions R158: after hart 0 was refused its turn is skipped and hart 1 steps. -/
theorem test_refusal_stops_one_hart :
    after (step ((({ aboutToRun (twoHarts 2) 0x006522AF with schedule := [.execute 0, .execute 1] } : State)).markRefused
        .pcOutsideProgram)) (fun t => (t.hartId, t.hart.pc, t.lower.map Hart.pc, t.refusal)) =
      some (1, 0x104, [0x100], some .pcOutsideProgram) := by decide
/-- 70_reset R179: a stopped machine says why: refused, faulted, or its run over. -/
theorem test_step_stopped :
    refusedWith (step ((aboutToRun (vec .rv32 [] []) 0x13).markRefused .pcOutsideProgram)) .pcOutsideProgram =
        true ∧
      faultOf (step ((aboutToRun (vec .rv32 [] []) 0x13).recordFault ⟨.loadAccessFault, 0, 0x100⟩)) =
        some (.exception ⟨.loadAccessFault, 0, 0x100⟩) ∧
      faultOf (step { aboutToRun (vec .rv32 [] []) 0x13 with hart := { vecHart .rv32 [] with pc := 0x104 } }) =
        some .runOver := by decide
/-- The words of all rows, all free bits 0, run as the first instruction after reset. -/
theorem test_every_row_runs :
    ([0x1000202F, 0x1800202F, 0x0800202F, 0x0000202F, 0x2000202F, 0x6000202F, 0x4000202F, 0x8000202F,
      0xA000202F, 0xC000202F, 0xE000202F, 0x1000302F, 0x1800302F, 0x0800302F, 0x0000302F, 0x2000302F,
      0x6000302F, 0x4000302F, 0x8000302F, 0xA000302F, 0xC000302F, 0xE000302F].all fun w =>
      (decodeTableWord 32 w).isSome
        && (after (step (State.reset.withFetchWord 32 w)) fun t => t.hart.pc) == some 0x80000004) =
      true := by decide
/-- V-RST-1: the first store-conditional after reset writes nothing. -/
theorem test_reset_sc_fails :
    after (step (State.reset.withFetchWord 32 0x18B5202F)) (fun t => (t.mem, t.hart.res)) =
      some ([], none) := by decide

/-! ### The weak memory model -/

/-- One event of a litmus test: a word AMO of a hart. -/
def amoEvent (g : Nat) (rd rs2 : Reg) (aq rl : Bool) (addr : Word) (old new : BitVec 64) : Event :=
  ⟨g, .amo, rd, 10, some rs2, aq, rl, some ⟨addr, .word, old⟩, some ⟨addr, .word, new⟩⟩

/-- V-AMO-45 under RVWMO: two increments of one word. -/
def twoIncrements (first second : BitVec 64) : List Event :=
  [amoEvent 0 12 11 false false 0x2000 first (first + 1),
    amoEvent 1 12 11 false false 0x2000 second (second + 1)]

/-- The second increment sees the first. -/
theorem test_rvwmo_increments :
    explains [] (twoIncrements 0 1) [⟨0, false⟩, ⟨0, true⟩, ⟨1, false⟩, ⟨1, true⟩] = true := by decide
/-- No order explains two increments that both read 0 (20_memory R46, R58). -/
theorem test_rvwmo_no_lost_increment :
    (opsOf (twoIncrements 0 0)).permutations'.any (explains [] (twoIncrements 0 0)) = false := by decide

/-! ### Forward progress (20_memory R53) -/

/-- `lr.w t0, (a0)`, `addi t0, t0, 1`, `sc.w t1, t0, (a0)`, `bnez t1, -12` at `0x100`. -/
def retryLoop : LrscLoop :=
  ⟨0x100, 0x100522AF, [0x00128293], 0x1855232F, [0xFE031AE3]⟩

/-- PROGRAM holds a loop's words. -/
def loopConfig (l : LrscLoop) : Config :=
  { vecConfig .rv64 with program := (List.range l.words.length).map (fun k => l.base + 4 * k) |>.zip l.words }

/-- The loop meets the constraints where the claim counts its two base words as plain. -/
theorem test_retry_loop_constrained :
    retryLoop.Constrained ⟨fun w => [0x00128293, 0xFE031AE3].contains w, fun _ => false, fun _ => true⟩
      (loopConfig retryLoop) := by
  refine ⟨by decide, ⟨by decide, fun k w h => ?_⟩, ⟨.lrW 5 10 false false, .scW 6 10 5 false false, by decide⟩,
    fun w h => ?_, fun _ _ => rfl⟩
  · match k, h with
    | 0, h | 1, h | 2, h | 3, h => cases h; rfl
    | k + 4, h => cases h
  · obtain rfl | rfl : w = 0x00128293 ∨ w = 0xFE031AE3 := by simpa [retryLoop] using h
    all_goals decide

/-- With an AMO in place of the `addi` it does not, whatever the claim counts as plain. -/
theorem test_amo_breaks_constraints (p : ProgressTerms) :
    ¬ { retryLoop with between := [0x006522AF] }.Constrained p (vecConfig .rv64) := fun h =>
  absurd (h.2.2.2.1 0x006522AF (by decide)).2 (by decide)

/-- With `j -4` in place of the `addi` it does not, where the claim counts that word as a backward jump. -/
theorem test_backward_jump_breaks_constraints (p : ProgressTerms) (c : Config)
    (hp : p.backwardJump 0xFFDFF06F = true) : ¬ { retryLoop with between := [0xFFDFF06F] }.Constrained p c := fun h =>
  Bool.noConfusion (hp.symm.trans (h.2.2.2.2 0xFFDFF06F (List.mem_singleton.2 rfl)))

/-! ### Witnesses: a concrete state and operands for the hypotheses of each statement

Each theorem below is named after the statement it serves (or the shape several statements share, named in its
comment), and shows all hypotheses of it met together. -/

/-- The outcome is a next state. -/
def goesOn (r : Result) : Bool :=
  (after r fun _ => ()).isSome

theorem next_of_goesOn {r : Result} (h : goesOn r = true) : ∃ t, r = .next t := by
  cases r with
  | next t => exact ⟨t, rfl⟩
  | fault f => cases h
  | refused q => cases h

/-- `amoadd.w t0, t1, (a0)` about to run at `0x100`. -/
def runningAmo : State :=
  aboutToRun (vec .rv64 [(10, 0x1000), (6, 1)] []) 0x006522AF

/-- A word AMO on a misaligned address about to run at `0x100`. -/
def runningFault : State :=
  aboutToRun (vec .rv64 [(10, 0x1002)] []) 0x006522AF

/-- With the schedule used up, one hart able to step and no reservation held, the drawn turn is that hart's. -/
theorem nextTurn_of_one {s : State} {t : Turn} (hs : s.schedule = []) (h : s.enabledTurns = [t]) :
    s.nextTurn = some (t, { s with draws := s.draws + 1 }) := by
  cases s
  cases hs
  simp [State.nextTurn, h, Nat.mod_one]

/-- Hypotheses of `StepRunsDecodedInstruction`, on a scheduled turn and on a drawn one. -/
theorem witness_step_runs :
    (∃ v u, runningAmo.nextTurn = some (.execute 0, v) ∧ v.focus 0 = some u ∧
      programWord u.cfg.program u.hart.pc.toNat = some 0x006522AF ∧
      decode u.cfg 0x006522AF = .ok (.amoaddW 5 10 6 false false)) ∧
    ∃ v u, State.nextTurn { runningAmo with schedule := [] } = some (.execute 0, v) ∧ v.focus 0 = some u ∧
      programWord u.cfg.program u.hart.pc.toNat = some 0x006522AF ∧
      decode u.cfg 0x006522AF = .ok (.amoaddW 5 10 6 false false) :=
  ⟨⟨{ runningAmo with schedule := [] }, { runningAmo with schedule := [] }, rfl, rfl, rfl, rfl⟩,
    _, _, nextTurn_of_one rfl (by decide), rfl, rfl, rfl⟩

/-- Hypotheses of `StepRefusesWhatItCannotRun`, and of its clauses: a pc outside PROGRAM just after END_PC, a word that
does not decode; no refusal marked before, and one marked. -/
theorem witness_step_refuses :
    (∃ v u, State.nextTurn { aboutToRun (vec .rv32 [] []) 0x13 with hart := { vecHart .rv32 [] with pc := 0x108 } } =
        some (.execute 0, v) ∧ v.focus 0 = some u ∧
      programWord u.cfg.program u.hart.pc.toNat = none) ∧
    (∃ v u, State.nextTurn { aboutToRun (vec .rv32 [] []) 0x13 with refusal := some .pcOutsideProgram } =
        some (.execute 0, v) ∧ v.focus 0 = some u ∧
      programWord u.cfg.program u.hart.pc.toNat = some 0x13 ∧ decode u.cfg 0x13 = .error .notAnAtomic) ∧
    (aboutToRun (vec .rv32 [] []) 0x13).refusal = none :=
  ⟨⟨_, _, rfl, rfl, rfl⟩, ⟨_, _, rfl, rfl, rfl, rfl⟩, rfl⟩

/-- Hypotheses of `EnvironmentEndsReservation`, on the hart that is not in focus. -/
theorem witness_environment :
    (∃ h, (twoHarts 2).hartAt 1 = some h ∧ h.res = some ⟨0x1000, .word⟩) ∧
      ∃ v, State.nextTurn { twoHarts 2 with schedule := [.loseReservation 1] } = some (.loseReservation 1, v) :=
  ⟨⟨_, rfl, rfl⟩, _, rfl⟩

/-- Hypotheses of `RaisingInstructionHasNoEffect`. -/
theorem witness_raising : ∃ v u, runningFault.nextTurn = some (.execute 0, v) ∧ v.focus 0 = some u ∧
    u.fetch = .ok (.amoaddW 5 10 6 false false) ∧
    exec (.amoaddW 5 10 6 false false) u =
      .fault (.exception ⟨.storeAMOAddressMisaligned, 0x1002, 0x100⟩) :=
  ⟨_, _, rfl, rfl, rfl, rfl⟩

/-- Hypotheses of `StoppedHartTakesNoStep`: hart 0 has ended, faulted or been refused, and hart 1 steps. -/
theorem witness_stopped :
    ∀ h ∈ [{ vecHart .rv32 [] with pc := 0x104 }, { vecHart .rv32 [] with fault := some ⟨.loadAccessFault, 0, 0x100⟩ },
        { vecHart .rv32 [] with refusal := some .pcOutsideProgram }],
      h.canStep (aboutToRun (twoHarts 2) 0x006522AF).cfg = false ∧
        goesOn (step { aboutToRun (twoHarts 2) 0x006522AF with hart := h, schedule := [.execute 1] }) = true := by
  decide

/-- Hypotheses of the clauses of `NextTurnIsEnabled`: an enabled turn at the head, one of a missing hart, one of a
faulted hart, one of a reservation not held, and no schedule. -/
theorem witness_next_turn :
    runningAmo.enabled (.execute 0) = true ∧ runningAmo.enabled (.execute 1) = false ∧
      State.enabled (runningAmo.recordFault ⟨.loadAccessFault, 0, 0x100⟩) (.execute 0) = false ∧
      runningAmo.enabled (.loseReservation 0) = false ∧ (twoHarts 2).enabled (.loseReservation 1) = true ∧
      (twoHarts 2).schedule = [] := by decide

/-- Hypotheses of the clauses of `StepsWhileATurnIsEnabled`: a state that goes on, and stopped states with a refusal,
with a fault and with neither. -/
theorem witness_stopped_machine :
    runningAmo.enabled (.execute 0) = true ∧
      State.enabledTurns (runningAmo.markRefused .pcOutsideProgram) = [] ∧
      State.enabledTurns (runningAmo.recordFault ⟨.loadAccessFault, 0, 0x100⟩) = [] ∧
      NothingRefused (runningAmo.recordFault ⟨.loadAccessFault, 0, 0x100⟩) ∧
      State.enabledTurns { runningAmo with hart := { runningAmo.hart with pc := 0x104 } } = [] ∧
      RunOver { runningAmo with hart := { runningAmo.hart with pc := 0x104 } } :=
  ⟨by decide, by decide, by decide, ⟨rfl, by decide⟩, by decide, by decide, by unfold NoFaultRecorded; decide, rfl,
    by decide⟩

/-- Hypotheses of `EveryRunEnds`, with a program of one instruction. -/
theorem witness_run :
    (State.reset.withFetchWord 32 0x006522AF).cfg.wf = true ∧
      (State.reset.withFetchWord 32 0x006522AF).wf = true := by decide

/-- Hypotheses of `DecodeOfEncode` and `MatchAndMask`, for both widths. -/
theorem witness_wf : (Instr.amomaxuW 31 31 31 true true).wf tableConfig = true ∧
    (Instr.scD 31 0 31 true true).wf tableConfig = true := by decide

/-- The clauses of `DecodeIsTotal`: a word of each kind. -/
theorem witness_decode :
    encode (.lrW 12 10 false false) = 0x1005262F ∧ (Instr.lrW 12 10 false false).wf tableConfig = true ∧
      (0x2F : InstrWord).extractLsb' 0 7 = 0b0101111#7 ∧ (0x302F : InstrWord).extractLsb' 12 3 = 0b011#3 ∧
      (vecConfig .rv32).admitsD = false ∧ (0x202F : InstrWord).extractLsb' 12 3 = 0b010#3 ∧
      tableConfig.admitsD = true := by decide

/-- Clauses of `ResetLeaves`: a second hart with register values of its own. -/
theorem witness_reset :
    ((State.launch (vecConfig .rv32) [0, 1] [[0, 2]] []).hartAt 1).map (fun h => h.readX .rv32 1) = some 2 := by
  decide

/-- Clauses of `RegisterZeroIsHardwired`: `rd = 0`, `rs1 = 0` with address 0 in MEM, and a fault with `rs1 = 0`. -/
theorem witness_register_zero :
    goesOn (exec (.amoaddW 0 10 6 false false) runningAmo) = true ∧
      goesOn (exec (.amoaddW 5 0 6 false false) State.reset) = true ∧
      faultOf (exec (.amoaddW 5 0 6 false false) runningAmo) =
        some (.exception ⟨.storeAMOAccessFault, 0, 0x100⟩) := by decide

/-- Hypotheses of `CompletedInstructionAdvancesPc`, `LoadReservedRegisters` and `ParametersNeverChange`, the pc at the
last place of the address space. -/
theorem witness_completes :
    (∃ t, exec (.lrW 5 10 false false) { runningAmo with
      hart := { runningAmo.hart with pc := 0xFFFFFFFFFFFFFFFC } } = .next t) ∧
    (∃ t, step runningAmo = .next t) ∧ (Instr.lrW 5 10 false false).isLoadReserved = true :=
  ⟨next_of_goesOn (by decide), next_of_goesOn (by decide), rfl⟩

/-- Hypotheses of `MemoryIsLittleEndian`, and its boundary bytes. -/
theorem witness_memory : Memory.wf (memWrite [] 0x1000 .doubleword 0x1122334455667788) = true ∧
    7 < Width.doubleword.bytes ∧ 3 < Width.word.bytes := by decide

/-- Hypotheses of `MisalignedAddressRaises`: a load-reserved and an AMO, a word and a doubleword off by 4. -/
theorem witness_misaligned :
    (Instr.lrW 5 10 false false).wf runningFault.cfg = true ∧
      (runningFault.readX 10).toNat % Width.word.bytes ≠ 0 ∧
      (Instr.amoaddD 5 13 6 false false).wf (vecConfig .rv64) = true ∧
      ((vec .rv64 [(13, 0x1004)] []).readX 13).toNat % Width.doubleword.bytes ≠ 0 := by decide

/-- Hypotheses of `AddressOutsideMemRaises`: only the last byte of the word is outside. -/
theorem witness_outside :
    (Instr.scW 5 10 6 false false).wf (vecConfig .rv64) = true ∧
      ((vec .rv64 [(10, 0x1000)] []).readX 10).toNat % Width.word.bytes = 0 ∧
      ∃ k < Width.word.bytes, { vecConfig .rv64 with regions := [⟨0x1000, 3⟩] }.inMem (0x1000 + k) = false :=
  ⟨by decide, by decide, 3, by decide, by decide⟩

/-- Hypotheses of `FaultsAreAddressExceptions`, of both kinds. -/
theorem witness_faults :
    exec (.lrW 5 10 false false) runningFault =
        .fault (.exception ⟨.loadAddressMisaligned, 0x1002, 0x100⟩) ∧
      exec (.scW 5 10 6 false false) (vec .rv64 [(10, 0x3000)] []) =
        .fault (.exception ⟨.storeAMOAccessFault, 0x3000, 0x100⟩) :=
  ⟨rfl, rfl⟩

/-- Hypotheses of `DoublewordFormsRefusedUnlessAdmitted`. -/
theorem witness_doubleword : (Instr.lrD 5 10 false false).width = .doubleword ∧
    (vec .rv32 [] []).cfg.admitsD = false := by decide

/-- Hypotheses of the clauses of `ReservationSetIsAlignedBlock`: the smallest granules. -/
theorem witness_granule :
    8 ≤ { vecConfig .rv64 with granuleLog2 := 3 }.granule ∧ 0x1008 % 8 = 0 ∧ (vecConfig .rv32).granule = 4 := by
  decide

/-- Hypotheses of `MandatoryInvalidation`, and of its clauses: an AMO, a load-reserved, a store-conditional that fails
and one that succeeds. -/
theorem witness_invalidation :
    (twoHarts 6).cfg.memoryModel = .scInterleaving ∧ (twoHarts 6).cfg.wfFailCodes = true ∧
      ([(Instr.amoaddW 12 10 11 false false, twoHarts 6), (.lrW 12 10 false false, twoHarts 6),
          (.scW 6 10 11 false false, twoHarts 6),
          (.scW 6 10 11 false false, withRes (twoHarts 6) 0x1004 .word)].map fun p =>
        after (exec p.1 p.2) fun t => (t.history.map Event.kind, t.history.map fun e => e.store.isSome)) =
      [some ([.amo], [true]), some ([.loadReserved], [false]), some ([.storeConditional], [false]),
        some ([.storeConditional], [true])] := by decide

/-- Hypotheses of `LrWResult` and of the nine `Amo…WResult` (at the last word of MEM). -/
theorem witness_word : Memory.wf (vec .rv64 [(10, 0x2FFC)] []).mem = true ∧
    (vec .rv64 [(10, 0x2FFC)] []).cfg.memoryModel = .scInterleaving ∧
    DataInMem (vec .rv64 [(10, 0x2FFC)] []) ((vec .rv64 [(10, 0x2FFC)] []).readX 10) .word :=
  ⟨by decide, by decide, by decide, by decide⟩

/-- Hypotheses of `LrDResult` and of the nine `Amo…DResult` (at the last doubleword of MEM). -/
theorem witness_doubleword_access : (vec .rv64 [(10, 0x2FF8)] []).cfg.admitsD = true ∧
    Memory.wf (vec .rv64 [(10, 0x2FF8)] []).mem = true ∧
    (vec .rv64 [(10, 0x2FF8)] []).cfg.memoryModel = .scInterleaving ∧
    DataInMem (vec .rv64 [(10, 0x2FF8)] []) ((vec .rv64 [(10, 0x2FF8)] []).readX 10) .doubleword :=
  ⟨by decide, by decide, by decide, by decide, by decide⟩

/-- Hypotheses of `StoreConditionalResult`, and of its clauses: case (a); case (c) without a reservation; case (c)
with the neighbouring word reserved, granule 4. Case (b), granule 16, meets neither clause. -/
theorem witness_store_conditional :
    (vecConfig .rv64).wfFailCodes = true ∧ DataInMem (vec .rv64 [(10, 0x1004)] []) 0x1004 .word ∧
      (withRes (vec .rv64 [(10, 0x1004)] []) 0x1004 .word).hart.res =
        some ⟨(vec .rv64 [(10, 0x1004)] []).readX 10, .word⟩ ∧
      (vec .rv64 [(10, 0x1004)] []).hart.res = none ∧
      (∃ i < Width.word.bytes, (0x1004 + i) / (vecConfig .rv64).granule ≠ 0x1000 / (vecConfig .rv64).granule) ∧
      ∀ i < Width.word.bytes, (0x1004 + i) / { vecConfig .rv64 with granuleLog2 := 4 }.granule =
        0x1000 / { vecConfig .rv64 with granuleLog2 := 4 }.granule :=
  ⟨by decide, ⟨by decide, by decide⟩, by decide, by decide, ⟨0, by decide, by decide⟩, by decide⟩

/-- A machine under `RVWMO`. -/
def weak : State :=
  { runningAmo with cfg := { runningAmo.cfg with memoryModel := .rvwmo } }

/-- Hypotheses of `LoadReservedUnderRvwmo`, `StoreConditionalUnderRvwmo` (its clauses as in
`witness_store_conditional`), `AmoUnderRvwmo` and `RvwmoStepsLeaveMemory`. -/
theorem witness_rvwmo : weak.cfg.memoryModel = .rvwmo ∧ weak.cfg.admitsD = true ∧
    weak.cfg.wfFailCodes = true ∧ DataInMem weak (weak.readX 10) .word ∧
    DataInMem weak (weak.readX 10) .doubleword ∧ ∃ t, step weak = .next t :=
  ⟨by decide, by decide, by decide, ⟨by decide, by decide⟩, ⟨by decide, by decide⟩,
    next_of_goesOn (by decide)⟩

/-- Hypotheses of `ReleaseAcquireMessagePassing`: the new flag seen, and then the new data. -/
theorem witness_message_passing : 0x1000 + 4 ≤ 0x1004 ∧ (1 : BitVec 32) ≠ memRead [] 0x1004 .word ∧ Admitted []
    [⟨0, .amo, 0, 10, some 11, false, false, some ⟨0x1000, .word, 0⟩, some ⟨0x1000, .word, 7⟩⟩,
      ⟨0, .amo, 0, 12, some 13, false, true, some ⟨0x1004, .word, 0⟩, some ⟨0x1004, .word, 1⟩⟩,
      ⟨1, .loadReserved, 5, 12, none, true, false, some ⟨0x1004, .word, 1⟩, none⟩,
      ⟨1, .loadReserved, 6, 10, none, false, false, some ⟨0x1000, .word, 7⟩, none⟩] :=
  ⟨by decide, by decide, [⟨0, false⟩, ⟨0, true⟩, ⟨1, false⟩, ⟨1, true⟩, ⟨2, false⟩, ⟨3, false⟩], by decide⟩

/-- The same shape without its two bits is admitted with the old data: hart 1's second read comes first. -/
theorem test_message_passing_unordered : Admitted []
    [⟨0, .amo, 0, 10, some 11, false, false, some ⟨0x1000, .word, 0⟩, some ⟨0x1000, .word, 7⟩⟩,
      ⟨0, .amo, 0, 12, some 13, false, false, some ⟨0x1004, .word, 0⟩, some ⟨0x1004, .word, 1⟩⟩,
      ⟨1, .loadReserved, 5, 12, none, false, false, some ⟨0x1004, .word, 1⟩, none⟩,
      ⟨1, .loadReserved, 6, 10, none, false, false, some ⟨0x1000, .word, 0⟩, none⟩] :=
  ⟨[⟨3, false⟩, ⟨0, false⟩, ⟨0, true⟩, ⟨1, false⟩, ⟨1, true⟩, ⟨2, false⟩], by decide⟩

/-- Hypotheses of `OtherHartsOnlyLoseReservations` and `OtherHartsCannotBeRead`. -/
theorem witness_other_harts : 1 ≠ (twoHarts 6).hartId ∧
    (twoHarts 6).hartAt 1 = some { vecHart .rv32 [(10, 0x1000)] with res := some ⟨0x1000, .word⟩ } ∧
    (∃ t, exec (.amoaddW 12 10 11 false false) (twoHarts 6) = .next t) ∧
    ([] : List Hart).length = (twoHarts 6).lower.length :=
  ⟨by decide, by decide, next_of_goesOn (by decide), rfl⟩

/-- Hypotheses of `StepKeepsStateWellFormed`, on a step that writes memory. -/
theorem witness_wf_step : runningAmo.wf = true ∧ ∃ t, step runningAmo = .next t :=
  ⟨by decide, next_of_goesOn (by decide)⟩

/-- Hypotheses of `ResetIsWellFormed`, with a byte of memory. -/
theorem witness_reset_wf : (vecConfig .rv64).wfResetPc = true ∧ Memory.wf [(0x2FFF, 1)] = true ∧
    ∀ p ∈ ([(0x2FFF, 1)] : Memory), (vecConfig .rv64).inMem p.1 = true := by decide

/-- A hart that holds the reservation its load-reserved registered, about to run `sc.w t1, a1, (a0)`. -/
def reservedHart : State :=
  { aboutToRun (withRes (vec .rv64 [(10, 0x1000)] []) 0x1000 .word) 0x18B5232F with
    history := [⟨0, .loadReserved, 5, 10, none, false, false, some ⟨0x1000, .word, 0⟩, none⟩] }

/-- Hypotheses of `LrScPairsStayAtomic`. -/
theorem witness_lrsc : reservedHart.cfg.memoryModel = .scInterleaving ∧ LrScInv reservedHart ∧
    ∃ t, step reservedHart = .next t := by
  refine ⟨by decide, ⟨⟨trivial, trivial⟩, fun g h r hg hr => ?_⟩, next_of_goesOn (by decide)⟩
  cases g with
  | zero =>
    cases hg
    cases hr
    decide
  | succ n => cases hg

/-- Hypotheses of `ScHistoriesMeetRvwmoAxioms`: the same state, its history explained from empty memory. -/
theorem witness_explained :
    { reservedHart.cfg with granuleLog2 := 3 }.wf = true ∧
      { reservedHart with cfg := { reservedHart.cfg with granuleLog2 := 3 } }.wf = true ∧
      LrScInv { reservedHart with cfg := { reservedHart.cfg with granuleLog2 := 3 } } ∧
      ScExplained [] { reservedHart with cfg := { reservedHart.cfg with granuleLog2 := 3 } } ∧
      ∃ t, step { reservedHart with cfg := { reservedHart.cfg with granuleLog2 := 3 } } = .next t := by
  refine ⟨by decide, by decide, ⟨⟨trivial, trivial⟩, fun g h r hg hr => ?_⟩, ⟨by decide, fun x => rfl⟩,
    next_of_goesOn (by decide)⟩
  cases g with
  | zero =>
    cases hg
    cases hr
    decide
  | succ n => cases hg

end Sys2Proof.Machine.Tests
end

section

namespace Sys2Proof.Machine

/-- An `XLEN`-bit value fits its 64-bit container (log 10). -/
theorem Xlen.bits_le (x : Xlen) : x.bits ≤ 64 := by
  cases x <;> decide

/-- The next pc counts modulo `2^XLEN`: cutting the sum to its 64-bit container first loses nothing (10_state R26). -/
theorem nextPc_toNat (c : Config) (pc : Word) : (nextPc c pc).toNat = (pc.toNat + 4) % 2 ^ c.xlen.bits := by
  have hdvd : 2 ^ c.xlen.bits ∣ 2 ^ 64 := Nat.pow_dvd_pow 2 (Xlen.bits_le c.xlen)
  calc (nextPc c pc).toNat
      = (pc.toNat + 4) % 2 ^ 64 % 2 ^ c.xlen.bits := Xlen.wrap_toNat c.xlen (pc + 4)
    _ = (pc.toNat + 4) % 2 ^ c.xlen.bits := Nat.mod_mod_of_dvd _ hdvd

/-- Settles O12: every effect of a completed instruction leaves the hart's pc at `nextPc` (`exec_control`). -/
theorem completedInstructionAdvancesPc : Obligations.CompletedInstructionAdvancesPc := by
  intro i s t h
  obtain ⟨-, -, -, -, -, hpc, -, -⟩ := exec_control h
  exact (congrArg BitVec.toNat hpc).trans (nextPc_toNat s.cfg s.hart.pc)

end Sys2Proof.Machine

end

section

namespace Sys2Proof.Machine

/-! ### The state after reset (10_state R34) -/

/-- The harts after reset, in the order of their identifiers: one for each list of register values. -/
@[simp] theorem State.harts_launch (c : Config) (x : List Word) (xs : List (List Word)) (m : Memory) :
    (State.launch c x xs m).harts = (x :: xs).map (Hart.reset c) := rfl

theorem State.hartAt_launch (c : Config) (x : List Word) (xs : List (List Word)) (m : Memory) (g : Nat) :
    (State.launch c x xs m).hartAt g = (x :: xs)[g]?.map (Hart.reset c) := by
  simp only [State.hartAt, State.harts_launch, List.getElem?_map]

/-- A register other than register 0 reads the value given for it, as an `XLEN`-bit value. -/
theorem Hart.readX_reset (c : Config) (x : List Word) {r : Reg} (hr : r ≠ 0) :
    (Hart.reset c x).readX c.xlen r = c.xlen.wrap (x.getD r.toNat 0) := by
  have hn : r.toNat ≠ 0 := fun h => hr (BitVec.eq_of_toNat_eq h)
  rw [Hart.readX, if_neg hr]
  simp [Hart.reset, hn]

/-- Settles O10: every hart after reset is a `Hart.reset`, whose registers read as given (`Hart.readX_reset`). -/
theorem resetLeaves : Obligations.ResetLeaves := by
  intro c x xs m
  refine ⟨fun h hh => ?harts, by simp, fun g y hy => ?registers, rfl, rfl, rfl, rfl,
    Config.reset, resetRegisters, [], [], rfl⟩
  case harts =>
    rw [State.harts_launch] at hh
    obtain ⟨y, -, rfl⟩ := List.mem_map.mp hh
    exact ⟨Hart.readX_zero _ _, rfl, rfl, rfl, rfl⟩
  case registers =>
    have hg : (State.launch c x xs m).hartAt g = some (Hart.reset c y) := by
      rw [State.hartAt_launch, hy, Option.map_some]
    exact ⟨Hart.reset c y, hg, fun _ hr => Hart.readX_reset c y hr⟩

end Sys2Proof.Machine

end

section

namespace Sys2Proof.Machine

/-! ### Bytes and words (20_memory R40, R41) -/

/-- A number read from `n` bytes is an `n`-byte number. -/
theorem memReadNat_lt (m : Memory) (a : Nat) : ∀ n, memReadNat m a n < 256 ^ n
  | 0 => by simp [memReadNat]
  | n + 1 => by
    have hbyte : (memByte m a).toNat < 256 := (memByte m a).isLt
    have hrest : memReadNat m (a + 1) n < 256 ^ n := memReadNat_lt m (a + 1) n
    rw [memReadNat, Nat.pow_succ]
    omega

/-- A value read loses nothing of the number its bytes spell. -/
theorem memRead_toNat (m : Memory) (a : Nat) (w : Width) :
    (memRead m a w).toNat = memReadNat m a w.bytes := by
  rw [memRead, BitVec.toNat_ofNat, ← Width.pow_bytes, Nat.mod_eq_of_lt (memReadNat_lt m a w.bytes)]

/-- Reading `n + k` bytes is reading `n` of them and, above these, the other `k`. -/
theorem memReadNat_add (m : Memory) (k : Nat) : ∀ (n a : Nat),
    memReadNat m a (n + k) = memReadNat m a n + 256 ^ n * memReadNat m (a + n) k
  | 0, a => by simp [memReadNat]
  | n + 1, a => by
    rw [Nat.succ_add, memReadNat, memReadNat_add m k n (a + 1), memReadNat,
      show a + 1 + n = a + (n + 1) by omega, Nat.pow_succ]
    ring

/-- A doubleword is its two words, the one at the lower address low. -/
theorem memRead_doubleword (m : Memory) (a : Nat) :
    memRead m a .doubleword = memRead m (a + 4) .word ++ memRead m a .word := by
  apply BitVec.eq_of_toNat_eq
  have hlow : memReadNat m a 4 < 2 ^ 32 := memReadNat_lt m a 4
  have hsplit : memReadNat m a 8 = memReadNat m a 4 + 2 ^ 32 * memReadNat m (a + 4) 4 := by
    simpa using memReadNat_add m 4 4 a
  calc (memRead m a .doubleword).toNat
      = memReadNat m a 4 + 2 ^ 32 * memReadNat m (a + 4) 4 :=
        (memRead_toNat m a .doubleword).trans hsplit
    _ = 2 ^ 32 * memReadNat m (a + 4) 4 ||| memReadNat m a 4 := by
        rw [Nat.add_comm, Nat.two_pow_add_eq_or_of_lt hlow]
    _ = (memRead m (a + 4) .word ++ memRead m a .word).toNat := by
        rw [BitVec.toNat_append, memRead_toNat, memRead_toNat, Nat.shiftLeft_eq, Nat.mul_comm]
        rfl

/-- The bytes of a value are those of its 64-bit container: no access is wider. -/
theorem extractByte_setWidth {w : Width} (v : BitVec w.bits) {i : Nat} (hi : i < w.bytes) :
    (v.setWidth 64).extractLsb' (8 * i) 8 = v.extractLsb' (8 * i) 8 := by
  have hbytes : w.bytes ≤ 8 := by cases w <;> decide
  exact BitVec.extractLsb'_setWidth_of_le (by omega)

/-- A write puts byte `i` of the value at place `i`. -/
theorem memByte_memWrite_inside {m : Memory} (hm : Memory.wf m = true) (a : Nat) {w : Width}
    (v : BitVec w.bits) {i : Nat} (hi : i < w.bytes) :
    memByte (memWrite m a w v) (a + i) = v.extractLsb' (8 * i) 8 := by
  rw [memWrite, memByte_memWriteNat _ _ _ _ hm, if_pos (by omega), Nat.add_sub_cancel_left,
    ← extractByte_setWidth v hi, setWidth_byte]

/-- Settles O13: the laws of memory, byte by byte (`memRead_byte`, `memByte_memWrite_inside`), and
`memRead_doubleword`. -/
theorem memoryIsLittleEndian : Obligations.MemoryIsLittleEndian := by
  intro m a w v hm
  refine ⟨fun i hi => ?read, fun i hi => memByte_memWrite_inside hm a v hi,
    fun b hb => memByte_memWrite_outside hm a b w v hb, memWrite_wf hm a w v, memRead_doubleword m a⟩
  case read => exact (extractByte_setWidth _ hi).symm.trans (memRead_byte w hi)

end Sys2Proof.Machine

end

section

namespace Sys2Proof

/-- The kind of access an instruction makes (60_exceptions R143). -/
def Instr.accessKind (i : Instr) : Machine.AccessKind :=
  if i.isLoadReserved then .load else .storeAMO

end Sys2Proof

namespace Sys2Proof.Machine

/-! ### The exceptions of an address (20_memory R43, R44) -/

/-- Where the `.d` forms are admitted, a `.d` meaning is its body. -/
theorem whenAdmitted_of_admitsD {s : State} (h : s.cfg.admitsD = true) (body : State → Result) :
    whenAdmitted s body = body s :=
  if_pos h

theorem loadReserved_raises {w : Width} {rd rs1 : Reg} {aq rl : Bool} {s : State} {cause : Cause}
    (h : checkAccess s.cfg .load (s.address rs1) w = some cause) :
    loadReserved w rd rs1 aq rl s = raise cause (s.address rs1) s := by
  simp only [loadReserved, h]

theorem storeConditional_raises {w : Width} {rd rs1 rs2 : Reg} {aq rl : Bool} {s : State} {cause : Cause}
    (h : checkAccess s.cfg .storeAMO (s.address rs1) w = some cause) :
    storeConditional w rd rs1 rs2 aq rl s = raise cause (s.address rs1) s := by
  simp only [storeConditional, h]

theorem amo_raises {op : AmoOp} {w : Width} {rd rs1 rs2 : Reg} {aq rl : Bool} {s : State} {cause : Cause}
    (h : checkAccess s.cfg .storeAMO (s.address rs1) w = some cause) :
    amo op w rd rs1 rs2 aq rl s = raise cause (s.address rs1) s := by
  simp only [amo, h]

/-- A well-formed instruction raises what the checks of its own access report. -/
theorem exec_raises {i : Instr} {s : State} {cause : Cause} (hw : i.wf s.cfg = true)
    (hc : checkAccess s.cfg i.accessKind (s.readX i.rs1) i.width = some cause) :
    exec i s = raise cause (s.readX i.rs1) s := by
  cases i
  case lrW => exact loadReserved_raises hc
  case scW => exact storeConditional_raises hc
  case lrD => exact (whenAdmitted_of_admitsD hw _).trans (loadReserved_raises hc)
  case scD => exact (whenAdmitted_of_admitsD hw _).trans (storeConditional_raises hc)
  case amoswapW | amoaddW | amoxorW | amoandW | amoorW | amominW | amomaxW | amominuW | amomaxuW =>
    exact amo_raises hc
  all_goals exact (whenAdmitted_of_admitsD hw _).trans (amo_raises hc)

/-- Settles O14: misalignment is what the checks report first (`checkAccess_misaligned`, `exec_raises`). -/
theorem misalignedAddressRaises : Obligations.MisalignedAddressRaises := by
  intro i s hw hmis
  have halign : aligned (s.readX i.rs1) i.width = false :=
    Bool.eq_false_iff.2 fun h => hmis (aligned_iff.1 h)
  refine (exec_raises hw (checkAccess_misaligned halign)).trans ?_
  rw [raise, Instr.accessKind]
  cases s.cfg.misalignedCause <;> cases i.isLoadReserved <;> rfl

/-- Settles O15: on an aligned address the checks report a byte outside MEM (`checkAccess_outside`,
`exec_raises`). -/
theorem addressOutsideMemRaises : Obligations.AddressOutsideMemRaises := by
  rintro i s hw halign ⟨k, hk, hout⟩
  have hadmits : s.cfg.admits (s.readX i.rs1).toNat i.width.bytes = false :=
    Bool.eq_false_iff.2 fun hin => Bool.eq_false_iff.1 hout (Config.admits_iff.1 hin k hk)
  refine (exec_raises hw (checkAccess_outside (aligned_iff.2 halign) hadmits)).trans ?_
  rw [raise, Instr.accessKind]
  cases i.isLoadReserved <;> rfl

end Sys2Proof.Machine

end

section

namespace Sys2Proof.Machine

/-! ### Reservations (20_memory R48, R51) -/

theorem Config.inReservationSet_iff {c : Config} {a b : Nat} :
    c.inReservationSet a b = true ↔ b / c.granule = a / c.granule := by
  simp [Config.inReservationSet]

/-- A power of two up to the granule divides it, as the granule is a power of two. -/
theorem Config.two_pow_dvd_granule {c : Config} {k : Nat} (h : 2 ^ k ≤ c.granule) : 2 ^ k ∣ c.granule :=
  Nat.pow_dvd_pow 2 ((Nat.pow_le_pow_iff_right Nat.one_lt_two).1 h)

/-- The bytes of an aligned access lie in one block whenever the access size divides the granule: the quotient by
the access size is already the same for all of them. -/
theorem Config.inReservationSet_of_dvd {c : Config} {a n i : Nat} (hg : n ∣ c.granule) (ha : n ∣ a)
    (hi : i < n) : c.inReservationSet a (a + i) = true := by
  rw [Config.inReservationSet_iff]
  have hquot : (a + i) / n = a / n := by
    rw [Nat.add_div_of_dvd_right ha, Nat.div_eq_of_lt hi, Nat.add_zero]
  obtain ⟨q, hq⟩ := hg
  rw [hq, ← Nat.div_div_eq_div_mul, ← Nat.div_div_eq_div_mul, hquot]

/-- Settles O18: both access sizes are powers of two, so they divide a granule they do not exceed
(`Config.inReservationSet_of_dvd`). -/
theorem reservationSetIsAlignedBlock : Obligations.ReservationSetIsAlignedBlock := by
  intro c a n
  refine ⟨fun b => Config.inReservationSet_iff, fun hn hle ha i hi => ?contains, fun hg ha b => ?word⟩
  case contains =>
    have hdvd : n ∣ c.granule := by
      rcases hn with rfl | rfl
      · exact Config.two_pow_dvd_granule (k := 2) hle
      · exact Config.two_pow_dvd_granule (k := 3) hle
    exact Config.inReservationSet_of_dvd hdvd (Nat.dvd_of_mod_eq_zero ha) hi
  case word =>
    rw [Config.inReservationSet_iff, hg]
    omega

/-- The reservation after a load-reserved is its own address and size (40_lr_sc R91). -/
@[simp] theorem loadReservedEffect_res (w : Width) (rd rs1 : Reg) (aq rl : Bool) (s : State) :
    (loadReservedEffect w rd rs1 aq rl s).hart.res = some ⟨s.readX rs1, w⟩ := by
  simp [loadReservedEffect, State.address]

theorem loadReserved_next_res {w : Width} {rd rs1 : Reg} {aq rl : Bool} {s t : State}
    (h : loadReserved w rd rs1 aq rl s = .next t) : t.hart.res = some ⟨s.readX rs1, w⟩ := by
  rcases loadReserved_cases w rd rs1 aq rl s with ⟨-, he⟩ | ⟨cause, -, he⟩ <;> rw [he] at h <;> cases h
  exact loadReservedEffect_res w rd rs1 aq rl s

/-- Settles O19: a load-reserved that completes has the effect of one (`loadReserved_next_res`). -/
theorem loadReservedRegisters : Obligations.LoadReservedRegisters := by
  intro i s t hlr h
  cases i
  case lrW => exact loadReserved_next_res h
  case lrD => exact loadReserved_next_res (whenAdmitted_next h).2
  all_goals cases hlr

end Sys2Proof.Machine

end

section

namespace Sys2Proof

/-! ### The "funct5 map" (30_encoding R74, 42_rv64a R120) -/

/-- The eleven values of bits 31-27. -/
def amoFunct5s : List (BitVec 5) :=
  [0b00010#5, 0b00011#5, 0b00001#5, 0b00000#5, 0b00100#5, 0b01100#5, 0b01000#5, 0b10000#5, 0b10100#5,
    0b11000#5, 0b11100#5]

/-- The map of a width: the part of the decoder after the checks of opcode and width. -/
def Width.decodeForm : Width → Fields → Except DecodeRefusal Instr
  | .word => decodeWordForm
  | .doubleword => decodeDoublewordForm

theorem Width.funct3_injective : Function.Injective Width.funct3 := by
  intro x y h
  revert h
  cases x <;> cases y <;> decide

/-- An instruction is well formed where the forms of its width are admitted. -/
theorem Instr.wf_iff {c : Config} {i : Instr} :
    i.wf c = true ↔ (i.width = .doubleword → c.admitsD = true) := by
  rw [Instr.wf]
  cases i.width <;> simp

theorem encodeFields_funct5_mem (i : Instr) : (encodeFields i).funct5 ∈ amoFunct5s := by
  cases i <;> simp [encodeFields, amoFunct5s]

theorem Instr.isLoadReserved_iff_funct5 (i : Instr) :
    i.isLoadReserved = true ↔ (encodeFields i).funct5 = 0b00010#5 := by
  cases i <;> simp [encodeFields, Instr.isLoadReserved]

theorem encodeFields_rs2_of_isLoadReserved {i : Instr} (h : i.isLoadReserved = true) :
    (encodeFields i).rs2 = 0b00000#5 := by
  cases i
  case lrW | lrD => rfl
  all_goals cases h

theorem decodeForm_encodeFields (i : Instr) : i.width.decodeForm (encodeFields i) = .ok i := by
  cases i <;> rfl

theorem decodeForm_lrWithNonzeroRs2 (x : Width) {f : Fields} (h5 : f.funct5 = 0b00010#5)
    (h2 : f.rs2 ≠ 0b00000#5) : x.decodeForm f = .error .lrWithNonzeroRs2 := by
  cases x <;> exact (if_pos h5).trans (if_neg h2)

theorem decodeForm_unknownFunct5 (x : Width) {f : Fields} (h5 : f.funct5 ∉ amoFunct5s) :
    x.decodeForm f = .error .unknownFunct5 := by
  simp only [amoFunct5s, List.mem_cons, List.not_mem_nil, or_false, not_or] at h5
  cases x
  case word => simp only [Width.decodeForm, decodeWordForm, h5, if_false]
  case doubleword => simp only [Width.decodeForm, decodeDoublewordForm, h5, if_false]

/-- On fields that neither refusal of the map applies to, it answers the instruction with these fields. -/
theorem exists_decodeForm_ok {x : Width} {f : Fields} (hop : f.opcode = amoOpcode) (h3 : f.funct3 = x.funct3)
    (h5 : f.funct5 ∈ amoFunct5s) (hlr : f.funct5 = 0b00010#5 → f.rs2 = 0b00000#5) :
    ∃ i, x.decodeForm f = .ok i ∧ encodeFields i = f := by
  obtain ⟨f5, aq, rl, rs2, rs1, f3, rd, op⟩ := f
  dsimp only at hop h3 h5 hlr
  subst hop h3
  simp only [amoFunct5s, List.mem_cons, List.not_mem_nil, or_false] at h5
  rcases h5 with rfl | h5
  · obtain rfl := hlr rfl
    cases x <;> exact ⟨_, rfl, rfl⟩
  · rcases h5 with rfl | rfl | rfl | rfl | rfl | rfl | rfl | rfl | rfl | rfl <;> cases x <;>
      exact ⟨_, rfl, rfl⟩

/-! ### What the decoder answers (30_encoding R78) -/

/-- The answer to a word by the steps of 30_encoding R78: each with what the word's fields say. -/
inductive DecodeAnswer (c : Config) (w : InstrWord) : Except DecodeRefusal Instr → Prop
  | ok {i : Instr} (henc : encode i = w) (hwf : i.wf c = true) : DecodeAnswer c w (.ok i)
  | notAnAtomic (hop : (fieldsOf w).opcode ≠ amoOpcode) : DecodeAnswer c w (.error .notAnAtomic)
  | lrWithNonzeroRs2 {x : Width} (hop : (fieldsOf w).opcode = amoOpcode)
      (h3 : (fieldsOf w).funct3 = x.funct3) (ha : x = .doubleword → c.admitsD = true)
      (h5 : (fieldsOf w).funct5 = 0b00010#5) (h2 : (fieldsOf w).rs2 ≠ 0b00000#5) :
      DecodeAnswer c w (.error .lrWithNonzeroRs2)
  | unknownFunct5 {x : Width} (hop : (fieldsOf w).opcode = amoOpcode)
      (h3 : (fieldsOf w).funct3 = x.funct3) (ha : x = .doubleword → c.admitsD = true)
      (h5 : (fieldsOf w).funct5 ∉ amoFunct5s) : DecodeAnswer c w (.error .unknownFunct5)
  | doublewordFormNotAdmitted (hop : (fieldsOf w).opcode = amoOpcode)
      (h3 : (fieldsOf w).funct3 = Width.doubleword.funct3) (ha : c.admitsD = false) :
      DecodeAnswer c w (.error .doublewordFormNotAdmitted)
  | unknownWidth (hop : (fieldsOf w).opcode = amoOpcode)
      (h3 : ∀ x : Width, (fieldsOf w).funct3 ≠ x.funct3) : DecodeAnswer c w (.error .unknownWidth)

/-- On an atomic of an admitted width the decoder answers by that width's map. -/
theorem decode_eq_decodeForm {c : Config} {w : InstrWord} {x : Width} (hop : (fieldsOf w).opcode = amoOpcode)
    (h3 : (fieldsOf w).funct3 = x.funct3) (ha : x = .doubleword → c.admitsD = true) :
    decode c w = x.decodeForm (fieldsOf w) := by
  rw [decode, if_neg (not_not_intro hop), h3]
  cases x
  case word => rfl
  case doubleword => simp [Width.funct3, Width.decodeForm, ha rfl]

theorem decode_encode {c : Config} {i : Instr} (hwf : i.wf c = true) : decode c (encode i) = .ok i := by
  have hf : fieldsOf (encode i) = encodeFields i := fieldsOf_assemble (encodeFields i)
  rw [decode_eq_decodeForm (x := i.width) (hf ▸ encodeFields_opcode i) (hf ▸ encodeFields_funct3 i)
    (Instr.wf_iff.1 hwf), hf, decodeForm_encodeFields]

theorem DecodeAnswer.decode_eq {c : Config} {w : InstrWord} {r : Except DecodeRefusal Instr}
    (h : DecodeAnswer c w r) : decode c w = r := by
  cases h with
  | ok henc hwf => exact henc ▸ decode_encode hwf
  | notAnAtomic hop => exact if_pos hop
  | lrWithNonzeroRs2 hop h3 ha h5 h2 =>
    exact (decode_eq_decodeForm hop h3 ha).trans (decodeForm_lrWithNonzeroRs2 _ h5 h2)
  | unknownFunct5 hop h3 ha h5 =>
    exact (decode_eq_decodeForm hop h3 ha).trans (decodeForm_unknownFunct5 _ h5)
  | doublewordFormNotAdmitted hop h3 ha => simp [decode, hop, h3, ha, Width.funct3]
  | unknownWidth hop h3 => simp [decode, hop, h3]

/-- R78 is total: each word has an answer. -/
theorem exists_decodeAnswer (c : Config) (w : InstrWord) : ∃ r, DecodeAnswer c w r := by
  by_cases hop : (fieldsOf w).opcode = amoOpcode
  case neg => exact ⟨_, .notAnAtomic hop⟩
  by_cases h3 : ∃ x : Width, (fieldsOf w).funct3 = x.funct3
  case neg => exact ⟨_, .unknownWidth hop (not_exists.1 h3)⟩
  obtain ⟨x, h3⟩ := h3
  by_cases ha : x = .doubleword → c.admitsD = true
  case neg =>
    obtain ⟨rfl, hno⟩ := Classical.not_imp.1 ha
    exact ⟨_, .doublewordFormNotAdmitted hop h3 (Bool.eq_false_iff.2 hno)⟩
  by_cases h5 : (fieldsOf w).funct5 ∈ amoFunct5s
  case neg => exact ⟨_, .unknownFunct5 hop h3 ha h5⟩
  by_cases hlr : (fieldsOf w).funct5 = 0b00010#5 → (fieldsOf w).rs2 = 0b00000#5
  case neg =>
    obtain ⟨h5, h2⟩ := Classical.not_imp.1 hlr
    exact ⟨_, .lrWithNonzeroRs2 hop h3 ha h5 h2⟩
  obtain ⟨i, -, hf⟩ := exists_decodeForm_ok hop h3 h5 hlr
  have hx : i.width = x := Width.funct3_injective ((encodeFields_funct3 i).symm.trans (hf ▸ h3))
  exact ⟨_, .ok (by rw [encode, hf, assemble_fieldsOf]) (Instr.wf_iff.2 (hx ▸ ha))⟩

theorem decode_eq_iff {c : Config} {w : InstrWord} {r : Except DecodeRefusal Instr} :
    decode c w = r ↔ DecodeAnswer c w r := by
  refine ⟨fun h => ?_, DecodeAnswer.decode_eq⟩
  obtain ⟨r', h'⟩ := exists_decodeAnswer c w
  exact h ▸ h'.decode_eq ▸ h'

theorem decode_ok_iff {c : Config} {w : InstrWord} {i : Instr} :
    decode c w = .ok i ↔ encode i = w ∧ i.wf c = true :=
  decode_eq_iff.trans ⟨fun | .ok henc hwf => ⟨henc, hwf⟩, fun ⟨henc, hwf⟩ => .ok henc hwf⟩

/-- Settles O8: each clause reads off what the fields say in one answer of R78 (`decode_eq_iff`). -/
theorem decodeIsTotal : Obligations.DecodeIsTotal := by
  intro c w
  refine ⟨fun i => decode_ok_iff, ?opcode, fun hop => ⟨?admitted, ?width, fun hx => ?map⟩, ?four⟩
  case opcode => exact decode_eq_iff.trans ⟨fun | .notAnAtomic hop => hop, .notAnAtomic⟩
  case admitted =>
    exact decode_eq_iff.trans ⟨fun | .doublewordFormNotAdmitted _ h3 ha => ⟨h3, ha⟩,
      fun ⟨h3, ha⟩ => .doublewordFormNotAdmitted hop h3 ha⟩
  case width =>
    exact decode_eq_iff.trans ⟨fun | .unknownWidth _ h3 => ⟨h3 .word, h3 .doubleword⟩,
      fun ⟨hw, hd⟩ => .unknownWidth hop fun | .word => hw | .doubleword => hd⟩
  case map =>
    obtain ⟨x, h3, ha⟩ :
        ∃ x : Width, (fieldsOf w).funct3 = x.funct3 ∧ (x = .doubleword → c.admitsD = true) := by
      rcases hx with h | ⟨h, ha⟩
      · exact ⟨.word, h, nofun⟩
      · exact ⟨.doubleword, h, fun _ => ha⟩
    exact ⟨decode_eq_iff.trans ⟨fun | .lrWithNonzeroRs2 _ _ _ h5 h2 => ⟨h5, h2⟩,
        fun ⟨h5, h2⟩ => .lrWithNonzeroRs2 hop h3 ha h5 h2⟩,
      decode_eq_iff.trans ⟨fun | .unknownFunct5 _ _ _ h5 => h5, .unknownFunct5 hop h3 ha⟩⟩
  case four => exact fun h => nomatch decode_eq_iff.1 h

/-! ### Match and mask (30_encoding R83) -/

/-- Two words' fields, bit by bit. -/
def Fields.and (f g : Fields) : Fields where
  funct5 := f.funct5 &&& g.funct5
  aq := f.aq && g.aq
  rl := f.rl && g.rl
  rs2 := f.rs2 &&& g.rs2
  rs1 := f.rs1 &&& g.rs1
  funct3 := f.funct3 &&& g.funct3
  rd := f.rd &&& g.rd
  opcode := f.opcode &&& g.opcode

theorem assemble_and_assemble (f g : Fields) : assemble f &&& assemble g = assemble (f.and g) := by
  simp only [Fields.and, assemble, ← BitVec.ofBool_and_ofBool, ← BitVec.and_append]

/-- The fields a mask covers: `funct5`, `funct3` and `opcode`, and `rs2` for a load-reserved. -/
def Instr.maskFields (i : Instr) : Fields where
  funct5 := BitVec.allOnes 5
  aq := false
  rl := false
  rs2 := if i.isLoadReserved then BitVec.allOnes 5 else 0#5
  rs1 := 0#5
  funct3 := BitVec.allOnes 3
  rd := 0#5
  opcode := BitVec.allOnes 7

theorem Instr.maskBits_eq_ite (i : Instr) :
    i.maskBits = if i.isLoadReserved then 0xF9F0707F#32 else 0xF800707F#32 := by
  cases i <;> rfl

theorem Instr.maskBits_eq_assemble (i : Instr) : i.maskBits = assemble i.maskFields := by
  rw [i.maskBits_eq_ite, Instr.maskFields]
  cases i.isLoadReserved <;> decide

theorem Instr.matchBits_eq_assemble (i : Instr) :
    i.matchBits = assemble ((encodeFields i).and i.maskFields) := by
  cases i <;> simp [encodeFields, Fields.and, Instr.maskFields, Instr.isLoadReserved, Instr.matchBits,
    assemble, amoOpcode, Width.funct3]

theorem encode_and_maskBits (i : Instr) : encode i &&& i.maskBits = i.matchBits := by
  rw [encode, i.maskBits_eq_assemble, assemble_and_assemble, i.matchBits_eq_assemble]

/-- The masked bits of a word are `i`'s match value when its fields agree with `i`'s where the mask
covers them. -/
theorem and_maskBits_eq_matchBits_iff {w : InstrWord} {i : Instr} :
    w &&& i.maskBits = i.matchBits ↔
      (fieldsOf w).opcode = amoOpcode ∧ (fieldsOf w).funct3 = i.width.funct3 ∧
      (fieldsOf w).funct5 = (encodeFields i).funct5 ∧
      (i.isLoadReserved = true → (fieldsOf w).rs2 = 0b00000#5) := by
  have hfields : w &&& i.maskBits = i.matchBits ↔
      (fieldsOf w).and i.maskFields = (encodeFields i).and i.maskFields := by
    rw [← assemble_fieldsOf w, i.maskBits_eq_assemble, i.matchBits_eq_assemble, assemble_and_assemble,
      fieldsOf_assemble]
    exact (Function.LeftInverse.injective fieldsOf_assemble).eq_iff
  rw [hfields, ← encodeFields_opcode i, ← encodeFields_funct3 i]
  cases hlr : i.isLoadReserved
  case false =>
    simp only [Fields.and, Instr.maskFields, hlr, Fields.mk.injEq,
      BitVec.and_allOnes, BitVec.and_zero, Bool.and_false, reduceIte, Bool.false_eq_true]
    tauto
  case true =>
    simp only [Fields.and, Instr.maskFields, hlr, encodeFields_rs2_of_isLoadReserved hlr, Fields.mk.injEq,
      BitVec.and_allOnes, BitVec.and_zero, Bool.and_false, reduceIte]
    tauto

/-- A word whose fields agree with a well-formed instruction's where the mask covers them is not refused. -/
theorem exists_decode_ok {c : Config} {w : InstrWord} {i : Instr} (hwf : i.wf c = true)
    (h : w &&& i.maskBits = i.matchBits) : ∃ j, decode c w = .ok j := by
  obtain ⟨hop, h3, h5, h2⟩ := and_maskBits_eq_matchBits_iff.1 h
  obtain ⟨j, hj, -⟩ := exists_decodeForm_ok hop h3 (h5 ▸ encodeFields_funct5_mem i)
    fun hlr => h2 (i.isLoadReserved_iff_funct5.2 (h5 ▸ hlr))
  exact ⟨j, (decode_eq_decodeForm hop h3 (Instr.wf_iff.1 hwf)).trans hj⟩

/-- Settles O7: a decoded word is the encoding of an instruction, whose own masked bits are its match value
(`decode_ok_iff`, `encode_and_maskBits`); conversely the masked bits fix all that the decoder looks at. -/
theorem matchAndMask : Obligations.MatchAndMask := by
  intro c w i hwf
  refine ⟨⟨?_, fun h => ?_⟩, i.maskBits_eq_ite, encode_and_maskBits i⟩
  · rintro ⟨j, hj, hmatch, hmask⟩
    obtain ⟨rfl, -⟩ := decode_ok_iff.1 hj
    rw [← hmatch, ← hmask, encode_and_maskBits]
  · obtain ⟨j, hj⟩ := exists_decode_ok hwf h
    obtain ⟨rfl, -⟩ := decode_ok_iff.1 hj
    obtain ⟨-, -, h5, -⟩ := and_maskBits_eq_matchBits_iff.1 h
    rw [encode, fieldsOf_assemble] at h5
    have hlr : j.isLoadReserved = i.isLoadReserved := by
      rw [Bool.eq_iff_iff, j.isLoadReserved_iff_funct5, i.isLoadReserved_iff_funct5, h5]
    have hmask : j.maskBits = i.maskBits := by rw [j.maskBits_eq_ite, i.maskBits_eq_ite, hlr]
    exact ⟨j, hj, by rw [← encode_and_maskBits, hmask, h], hmask⟩

end Sys2Proof

end

section

/-! ### The AMO operators (41_amo_w R101, 42_rv64a R121) -/

namespace Sys2Proof.Machine

/-- R111: the sum of the unsigned readings, wrapped to the width, is the addition of bit vectors. -/
@[simp] theorem AmoOp.apply_add {n : Nat} (t src : BitVec n) : AmoOp.add.apply t src = t + src :=
  BitVec.eq_of_toNat_eq (by rw [AmoOp.apply, BitVec.toNat_ofNat, BitVec.toNat_add])

end Sys2Proof.Machine

namespace Sys2Proof

open Sys2Proof.Machine

/-- Settles O24: the logical operators act bit by bit by the library's laws of bits, the sum is `AmoOp.apply_add`,
and the other five rows are the operator's own equations. -/
theorem amoOperatorTable : Obligations.AmoOperatorTable := by
  intro t src
  have hadd : (AmoOp.add.apply t src).toNat = (t.toNat + src.toNat) % 2 ^ 32 := by
    rw [AmoOp.apply_add, BitVec.toNat_add]
  exact ⟨rfl, hadd, fun _ _ => BitVec.getLsbD_xor, fun _ _ => BitVec.getLsbD_and,
    fun _ _ => BitVec.getLsbD_or, rfl, rfl, rfl, rfl⟩

end Sys2Proof

end

section

namespace Sys2Proof.Machine

/-! ### The faults of an instruction (60_exceptions R142, R143, R144) -/

/-- The checks of a kind report its address-misaligned exception or its access fault. -/
theorem checkAccess_cause {c : Config} {k : AccessKind} {addr : Word} {w : Width} {cause : Cause}
    (h : checkAccess c k addr w = some cause) :
    cause = k.misaligned .addressMisaligned ∨ cause = k.accessFault := by
  cases halign : aligned addr w with
  | false =>
    rw [checkAccess_misaligned halign] at h
    cases h
    cases c.misalignedCause with
    | addressMisaligned => exact .inl rfl
    | accessFault => exact .inr (by cases k <;> rfl)
  | true =>
    cases hadmits : c.admits addr.toNat w.bytes with
    | false =>
      rw [checkAccess_outside halign hadmits] at h
      cases h
      exact .inr rfl
    | true =>
      rw [checkAccess_eq_none_iff.2 ⟨halign, hadmits⟩] at h
      cases h

/-- A procedure that completes where its checks pass, and raises what they report otherwise, faults only
by that report. -/
theorem reported_of_fault {c : Config} {k : AccessKind} {addr : Word} {w : Width} {s t : State} {r : Result}
    {f : Fault}
    (hr : (checkAccess c k addr w = none ∧ r = .next t) ∨
      ∃ cause, checkAccess c k addr w = some cause ∧ r = raise cause addr s)
    (hf : r = .fault f) :
    ∃ cause, checkAccess c k addr w = some cause ∧ f = .exception ⟨cause, addr, s.hart.pc⟩ := by
  rcases hr with ⟨-, rfl⟩ | ⟨cause, hc, rfl⟩
  · cases hf
  · cases hf
    exact ⟨cause, hc, rfl⟩

/-- The converse of `exec_raises`: an instruction faults only by what the checks of its own access report. -/
theorem exec_fault_reported {i : Instr} {s : State} {f : Fault} (h : exec i s = .fault f) :
    ∃ cause, checkAccess s.cfg i.accessKind (s.readX i.rs1) i.width = some cause ∧
      f = .exception ⟨cause, s.readX i.rs1, s.hart.pc⟩ := by
  cases i
  case lrW => exact reported_of_fault (loadReserved_cases _ _ _ _ _ s) h
  case scW => exact reported_of_fault (storeConditional_cases _ _ _ _ _ _ s) h
  case lrD => exact reported_of_fault (loadReserved_cases _ _ _ _ _ s) (whenAdmitted_fault h).2
  case scD => exact reported_of_fault (storeConditional_cases _ _ _ _ _ _ s) (whenAdmitted_fault h).2
  case amoswapW | amoaddW | amoxorW | amoandW | amoorW | amominW | amomaxW | amominuW | amomaxuW =>
    exact reported_of_fault (amo_cases _ _ _ _ _ _ _ s) h
  all_goals exact reported_of_fault (amo_cases _ _ _ _ _ _ _ s) (whenAdmitted_fault h).2

/-- Settles O16: a fault is what the checks of the instruction's own access report (`exec_fault_reported`), one of
the two exceptions of its kind (`checkAccess_cause`). -/
theorem faultsAreAddressExceptions : Obligations.FaultsAreAddressExceptions := by
  intro i s e h
  obtain ⟨cause, hc, rfl⟩ := exec_fault_reported h
  refine ⟨cause, rfl, fun hlr => ?load, fun hlr => ?storeAMO⟩
  case load =>
    rw [Instr.accessKind, if_pos hlr] at hc
    rcases checkAccess_cause hc with rfl | rfl
    · exact .inl ⟨rfl, rfl⟩
    · exact .inr ⟨rfl, rfl⟩
  case storeAMO =>
    rw [Instr.accessKind, if_neg (Bool.eq_false_iff.1 hlr)] at hc
    rcases checkAccess_cause hc with rfl | rfl
    · exact .inl ⟨rfl, rfl⟩
    · exact .inr ⟨rfl, rfl⟩

end Sys2Proof.Machine

end

section

namespace Sys2Proof

/-! ### The encoder and the decoder agree (30_encoding R71 to R78) -/

/-- Settles O6: the decoder answers by the map of the instruction's width, which undoes the encoder's fields
(`decode_encode`). -/
theorem decodeOfEncode : Obligations.DecodeOfEncode :=
  fun _ _ hwf => decode_encode hwf

/-- Settles O9: each word, assembled bit by bit, is the encoding of an instruction the table admits
(`decode_ok_iff`). -/
theorem writtenOutWordsDecode : Obligations.WrittenOutWordsDecode :=
  ⟨decode_ok_iff.2 (by decide), decode_ok_iff.2 (by decide), decode_ok_iff.2 (by decide),
    decode_ok_iff.2 (by decide)⟩

end Sys2Proof

end

section

namespace Sys2Proof.Machine

/-! ### The normal form of a completed instruction

Every instruction that completes stores an optional value at its address, sets its reservation, writes one register
and retires with one event. -/

/-- The register fields and ordering bits of an instruction. -/
structure Operands where
  rd : Reg
  rs1 : Reg
  rs2 : Option Reg
  aq : Bool
  rl : Bool

/-- What a completed instruction of width `w` does: the kind of its event, the value read, the value stored, the
reservation its hart holds after it, and the value written to `rd`. -/
structure Completion (w : Width) where
  kind : EventKind
  read : Option (BitVec w.bits)
  write : Option (BitVec w.bits)
  res : Option Reservation
  value : Word

/-- The three shared procedures. -/
inductive Operation where
  | loadReserved
  | storeConditional (rs2 : Reg)
  | amo (op : AmoOp) (rs2 : Reg)

/-- What a store-conditional does, by its outcome (40_lr_sc R92). -/
def State.conditional (s : State) (w : Width) (rs2 : Reg) (success : Bool) : Completion w :=
  ⟨.storeConditional, none, if success then some (s.data w rs2) else none, none, s.scCode success⟩

/-- What a procedure does when its checks pass (40_lr_sc R91, R92, 41_amo_w R100). -/
def Operation.completion (w : Width) (addr : Word) (s : State) : Operation → Completion w
  | .loadReserved =>
    ⟨.loadReserved, some (s.loadValue addr w), none, some ⟨addr, w⟩, s.cfg.xlen.sext (s.loadValue addr w)⟩
  | .storeConditional rs2 => s.conditional w rs2 (s.scSucceeds addr w)
  | .amo op rs2 =>
    ⟨.amo, some (s.loadValue addr w), some (op.apply (s.loadValue addr w) (s.data w rs2)), s.hart.res,
      s.cfg.xlen.sext (s.loadValue addr w)⟩

/-- A write of some value, or none. -/
def State.storeOptional (s : State) (addr : Word) (w : Width) : Option (BitVec w.bits) → State
  | none => s
  | some v => s.storeValue addr w v

/-- The event of a completed instruction (20_memory R56). -/
def State.event (s : State) (o : Operands) {w : Width} (k : Completion w) : Event where
  hart := s.hartId
  kind := k.kind
  rd := o.rd
  rs1 := o.rs1
  rs2 := o.rs2
  aq := o.aq
  rl := o.rl
  load := k.read.map fun v => ⟨s.readX o.rs1, w, v.setWidth 64⟩
  store := k.write.map fun v => ⟨s.readX o.rs1, w, v.setWidth 64⟩

/-- The state after a completed instruction. -/
def State.commit (s : State) (o : Operands) {w : Width} (k : Completion w) : State :=
  (((s.storeOptional (s.readX o.rs1) w k.write).setReservation k.res).writeX o.rd k.value).retire (s.event o k)

end Sys2Proof.Machine

namespace Sys2Proof

open Sys2Proof.Machine

/-- The operands of an instruction (30_encoding R71). -/
def Instr.operands (i : Instr) : Operands :=
  ⟨i.rd, i.rs1, i.rs2, i.ordering.1, i.ordering.2⟩

/-- The procedure of an instruction. -/
def Instr.operation : Instr → Operation
  | .lrW .. | .lrD .. => .loadReserved
  | .scW _ _ rs2 _ _ | .scD _ _ rs2 _ _ => .storeConditional rs2
  | .amoswapW _ _ rs2 _ _ | .amoswapD _ _ rs2 _ _ => .amo .swap rs2
  | .amoaddW _ _ rs2 _ _ | .amoaddD _ _ rs2 _ _ => .amo .add rs2
  | .amoxorW _ _ rs2 _ _ | .amoxorD _ _ rs2 _ _ => .amo .xor rs2
  | .amoandW _ _ rs2 _ _ | .amoandD _ _ rs2 _ _ => .amo .and rs2
  | .amoorW _ _ rs2 _ _ | .amoorD _ _ rs2 _ _ => .amo .or rs2
  | .amominW _ _ rs2 _ _ | .amominD _ _ rs2 _ _ => .amo .min rs2
  | .amomaxW _ _ rs2 _ _ | .amomaxD _ _ rs2 _ _ => .amo .max rs2
  | .amominuW _ _ rs2 _ _ | .amominuD _ _ rs2 _ _ => .amo .minu rs2
  | .amomaxuW _ _ rs2 _ _ | .amomaxuD _ _ rs2 _ _ => .amo .maxu rs2

/-- What the instruction does when its checks pass. -/
def Instr.completion (i : Instr) (s : State) : Completion i.width :=
  i.operation.completion i.width (s.readX i.rs1) s

end Sys2Proof

namespace Sys2Proof.Machine

/-- A reservation that is held already is set to no effect. -/
theorem State.setReservation_self {s : State} {r : Option Reservation} (h : s.hart.res = r) :
    s.setReservation r = s := by
  subst h
  rfl

theorem storeConditionalEffect_eq_commit (w : Width) (rd rs1 rs2 : Reg) (aq rl success : Bool) (s : State) :
    storeConditionalEffect w rd rs1 rs2 aq rl success s =
      s.commit ⟨rd, rs1, some rs2, aq, rl⟩ (s.conditional w rs2 success) := by
  cases success <;> rfl

theorem amoEffect_eq_commit (op : AmoOp) (w : Width) (rd rs1 rs2 : Reg) (aq rl : Bool) (s : State) :
    amoEffect op w rd rs1 rs2 aq rl s =
      s.commit ⟨rd, rs1, some rs2, aq, rl⟩ ((Operation.amo op rs2).completion w (s.readX rs1) s) := by
  rw [State.commit, State.setReservation_self (by simp [State.storeOptional, Operation.completion])]
  rfl

theorem loadReserved_completes {w : Width} {rd rs1 : Reg} {aq rl : Bool} {s : State}
    (h : checkAccess s.cfg .load (s.readX rs1) w = none) :
    loadReserved w rd rs1 aq rl s =
      .next (s.commit ⟨rd, rs1, none, aq, rl⟩ (Operation.loadReserved.completion w (s.readX rs1) s)) := by
  simp only [loadReserved, State.address, h]
  rfl

theorem storeConditional_completes {w : Width} {rd rs1 rs2 : Reg} {aq rl : Bool} {s : State}
    (h : checkAccess s.cfg .storeAMO (s.readX rs1) w = none) :
    storeConditional w rd rs1 rs2 aq rl s =
      .next (s.commit ⟨rd, rs1, some rs2, aq, rl⟩
        ((Operation.storeConditional rs2).completion w (s.readX rs1) s)) := by
  simp only [storeConditional, State.address, h, storeConditionalEffect_eq_commit, Operation.completion]

theorem amo_completes {op : AmoOp} {w : Width} {rd rs1 rs2 : Reg} {aq rl : Bool} {s : State}
    (h : checkAccess s.cfg .storeAMO (s.readX rs1) w = none) :
    amo op w rd rs1 rs2 aq rl s =
      .next (s.commit ⟨rd, rs1, some rs2, aq, rl⟩ ((Operation.amo op rs2).completion w (s.readX rs1) s)) := by
  simp only [amo, State.address, h, amoEffect_eq_commit]

/-- A well-formed instruction whose checks pass completes. -/
theorem exec_completes {i : Instr} {s : State} (hw : i.wf s.cfg = true)
    (hc : checkAccess s.cfg i.accessKind (s.readX i.rs1) i.width = none) :
    exec i s = .next (s.commit i.operands (i.completion s)) := by
  cases i
  case lrW => exact loadReserved_completes hc
  case scW => exact storeConditional_completes hc
  case lrD => exact (whenAdmitted_of_admitsD hw _).trans (loadReserved_completes hc)
  case scD => exact (whenAdmitted_of_admitsD hw _).trans (storeConditional_completes hc)
  case amoswapW | amoaddW | amoxorW | amoandW | amoorW | amominW | amomaxW | amominuW | amomaxuW =>
    exact amo_completes hc
  all_goals exact (whenAdmitted_of_admitsD hw _).trans (amo_completes hc)

/-- An instruction that is not well formed is refused: it is a `.d` form where these are not admitted. -/
theorem exec_refused {i : Instr} {s : State} (hw : i.wf s.cfg = false) :
    exec i s = .refused (.undecodable .doublewordFormNotAdmitted) := by
  have hno : ¬ s.cfg.admitsD = true := fun h => Bool.eq_false_iff.1 hw (Instr.wf_iff.2 fun _ => h)
  cases i
  case lrW | scW | amoswapW | amoaddW | amoxorW | amoandW | amoorW | amominW | amomaxW | amominuW | amomaxuW =>
    cases hw
  all_goals exact if_neg hno

/-- Everything `exec` can answer. -/
inductive Executes (i : Instr) (s : State) : Result → Prop where
  | refused (hw : i.wf s.cfg = false) : Executes i s (.refused (.undecodable .doublewordFormNotAdmitted))
  | raised (hw : i.wf s.cfg = true) (cause : Cause)
      (hc : checkAccess s.cfg i.accessKind (s.readX i.rs1) i.width = some cause) :
      Executes i s (raise cause (s.readX i.rs1) s)
  | completed (hw : i.wf s.cfg = true) (hc : checkAccess s.cfg i.accessKind (s.readX i.rs1) i.width = none) :
      Executes i s (.next (s.commit i.operands (i.completion s)))

theorem exec_executes (i : Instr) (s : State) : Executes i s (exec i s) := by
  cases hw : i.wf s.cfg with
  | false => exact exec_refused hw ▸ .refused hw
  | true =>
    cases hc : checkAccess s.cfg i.accessKind (s.readX i.rs1) i.width with
    | none => exact exec_completes hw hc ▸ .completed hw hc
    | some cause => exact exec_raises hw hc ▸ .raised hw cause hc

/-- An instruction that answers a next state was well formed, its checks passed, and the state is its completion. -/
theorem exec_next_commit {i : Instr} {s t : State} (h : exec i s = .next t) :
    i.wf s.cfg = true ∧ checkAccess s.cfg i.accessKind (s.readX i.rs1) i.width = none ∧
      t = s.commit i.operands (i.completion s) := by
  have hx := h ▸ exec_executes i s
  generalize hr : Host.Outcome.next t = r at hx
  cases hx with
  | refused | raised => cases hr
  | completed hw hc => exact ⟨hw, hc, by cases hr; rfl⟩

end Sys2Proof.Machine

end

section

namespace Sys2Proof.Machine

/-! ### What a completion changes and leaves alone -/

section Frame

variable (s : State) (addr : Word) (w : Width)

@[simp] theorem State.storeOptional_none : s.storeOptional addr w none = s := rfl

@[simp] theorem State.storeOptional_cfg (v : Option (BitVec w.bits)) : (s.storeOptional addr w v).cfg = s.cfg := by
  cases v <;> simp [State.storeOptional]

@[simp] theorem State.storeOptional_hart (v : Option (BitVec w.bits)) : (s.storeOptional addr w v).hart = s.hart := by
  cases v <;> simp [State.storeOptional]

@[simp] theorem State.storeOptional_hartId (v : Option (BitVec w.bits)) :
    (s.storeOptional addr w v).hartId = s.hartId := by
  cases v <;> simp [State.storeOptional]

@[simp] theorem State.storeOptional_history (v : Option (BitVec w.bits)) :
    (s.storeOptional addr w v).history = s.history := by
  cases v <;> simp [State.storeOptional]

@[simp] theorem State.storeOptional_refusal (v : Option (BitVec w.bits)) :
    (s.storeOptional addr w v).refusal = s.refusal := by
  cases v <;> simp [State.storeOptional]

@[simp] theorem State.storeOptional_schedule (v : Option (BitVec w.bits)) :
    (s.storeOptional addr w v).schedule = s.schedule := by
  cases v <;> simp [State.storeOptional]

@[simp] theorem State.storeOptional_draws (v : Option (BitVec w.bits)) :
    (s.storeOptional addr w v).draws = s.draws := by
  cases v <;> simp [State.storeOptional]

variable {s addr w}

/-- Under `RVWMO` a store stands in the history alone (log 9). -/
theorem State.storeOptional_of_rvwmo (hm : s.cfg.memoryModel = .rvwmo) (v : Option (BitVec w.bits)) :
    s.storeOptional addr w v = s := by
  cases v
  · rfl
  · simp only [State.storeOptional, State.storeValue, hm]

theorem State.storeOptional_mem_of_scInterleaving (hm : s.cfg.memoryModel = .scInterleaving) (v : BitVec w.bits) :
    (s.storeOptional addr w (some v)).mem = memWrite s.mem addr.toNat w v := by
  simp [State.storeOptional, State.storeValue, hm]

/-- A foreign write filters the reservation by what it touches (20_memory R49). -/
theorem Hart.afterForeignWrite_eq (c : Config) (a n : Nat) (h : Hart) :
    h.afterForeignWrite c a n = { h with res := h.res.filter fun r => !c.touches r.addr.toNat a n } := by
  obtain ⟨regs, pc, res, fault, refusal⟩ := h
  cases res with
  | none => rfl
  | some r => cases ht : c.touches r.addr.toNat a n <;> simp [Hart.afterForeignWrite, Option.filter, ht]

/-- `h'` is the hart `h`, its reservation kept or lost. -/
structure Hart.MayLose (h h' : Hart) : Prop where
  regs : h'.regs = h.regs
  pc : h'.pc = h.pc
  fault : h'.fault = h.fault
  refusal : h'.refusal = h.refusal
  res : h'.res = h.res ∨ h'.res = none

theorem Hart.MayLose.refl (h : Hart) : h.MayLose h :=
  ⟨rfl, rfl, rfl, rfl, .inl rfl⟩

theorem Hart.mayLose_clear (h : Hart) : h.MayLose { h with res := none } :=
  ⟨rfl, rfl, rfl, rfl, .inr rfl⟩

theorem Hart.mayLose_afterForeignWrite (c : Config) (a n : Nat) (h : Hart) :
    h.MayLose (h.afterForeignWrite c a n) := by
  refine ⟨by simp, by simp, by simp, by simp, ?_⟩
  rw [h.afterForeignWrite_eq]
  cases h.res with
  | none => exact .inl rfl
  | some r => cases ht : c.touches r.addr.toNat a n <;> simp [Option.filter, ht]

/-- A store touches no other hart but for its reservation. -/
theorem State.storeOptional_others (s : State) (addr : Word) (w : Width) (v : Option (BitVec w.bits)) :
    ∃ f : Hart → Hart, (∀ h : Hart, h.MayLose (f h)) ∧ (s.storeOptional addr w v).lower = s.lower.map f ∧
      (s.storeOptional addr w v).upper = s.upper.map f := by
  cases v with
  | none => exact ⟨id, .refl, by simp, by simp⟩
  | some v =>
    cases hm : s.cfg.memoryModel with
    | rvwmo =>
      rw [State.storeOptional_of_rvwmo hm]
      exact ⟨id, .refl, by simp, by simp⟩
    | scInterleaving =>
      exact ⟨_, Hart.mayLose_afterForeignWrite s.cfg addr.toNat w.bytes,
        by simp [State.storeOptional, State.storeValue, hm], by simp [State.storeOptional, State.storeValue, hm]⟩

end Frame

section Commit

variable (s : State) (o : Operands) {w : Width} (k : Completion w)

@[simp] theorem State.commit_cfg : (s.commit o k).cfg = s.cfg := by
  simp [State.commit]

@[simp] theorem State.commit_hartId : (s.commit o k).hartId = s.hartId := by
  simp [State.commit]

@[simp] theorem State.commit_history : (s.commit o k).history = s.event o k :: s.history := by
  simp [State.commit]

@[simp] theorem State.commit_refusal : (s.commit o k).refusal = s.refusal := by
  simp [State.commit]

@[simp] theorem State.commit_schedule : (s.commit o k).schedule = s.schedule := by
  simp [State.commit]

@[simp] theorem State.commit_draws : (s.commit o k).draws = s.draws + 1 := by
  simp [State.commit]

@[simp] theorem State.commit_lower : (s.commit o k).lower = (s.storeOptional (s.readX o.rs1) w k.write).lower :=
  rfl

@[simp] theorem State.commit_upper : (s.commit o k).upper = (s.storeOptional (s.readX o.rs1) w k.write).upper :=
  rfl

@[simp] theorem State.commit_mem : (s.commit o k).mem = (s.storeOptional (s.readX o.rs1) w k.write).mem :=
  rfl

theorem State.commit_hart :
    (s.commit o k).hart =
      { ({ s.hart with res := k.res } : Hart).writeX s.cfg.xlen o.rd k.value with pc := nextPc s.cfg s.hart.pc } := by
  simp [State.commit]

@[simp] theorem State.commit_hart_res : (s.commit o k).hart.res = k.res := by
  simp [State.commit_hart]

@[simp] theorem State.commit_hart_pc : (s.commit o k).hart.pc = nextPc s.cfg s.hart.pc := by
  simp [State.commit_hart]

@[simp] theorem State.commit_hart_fault : (s.commit o k).hart.fault = s.hart.fault := by
  simp [State.commit_hart]

@[simp] theorem State.commit_hart_refusal : (s.commit o k).hart.refusal = s.hart.refusal := by
  simp [State.commit_hart]

theorem State.readX_commit (q : Reg) :
    (s.commit o k).readX q = if q = o.rd ∧ o.rd ≠ 0 then s.cfg.xlen.wrap k.value else s.readX q := by
  have hold : ((s.storeOptional (s.readX o.rs1) w k.write).setReservation k.res).readX q = s.readX q :=
    State.readX_congr (by simp) (by simp) q
  rw [State.commit, State.readX_retire, State.readX_writeX, hold]
  simp

theorem State.commit_pcAdvanced : PcAdvanced s (s.commit o k) := by
  rw [PcAdvanced, State.commit_hart_pc, nextPc_toNat]

theorem State.commit_controlKept : ControlKept s (s.commit o k) :=
  ⟨by simp, by simp, by simp, by simp, by simp, by simp⟩

variable {s k}

theorem State.commit_registerWritten (hv : s.cfg.xlen.fits k.value = true) :
    RegisterWritten o.rd k.value s (s.commit o k) := by
  intro q
  rw [State.readX_commit, Xlen.wrap_of_fits hv]

/-- Where nothing is stored, the other harts are as before. -/
theorem State.commit_othersKept (h : s.storeOptional (s.readX o.rs1) w k.write = s) : OthersKept s (s.commit o k) :=
  fun _ hg => State.hartAt_congr (by simp [h]) (by simp [h]) hg

/-- Under `SC_INTERLEAVING` the other harts see a store (20_memory R49). -/
theorem State.commit_othersSawWrite (hm : s.cfg.memoryModel = .scInterleaving) {v : BitVec w.bits}
    (hv : k.write = some v) : OthersSawWrite (s.readX o.rs1).toNat w.bytes s (s.commit o k) := by
  intro g hg
  have hcongr : (s.commit o k).hartAt g = (s.storeValue (s.readX o.rs1) w v).hartAt g :=
    State.hartAt_congr (by simp [hv, State.storeOptional]) (by simp [hv, State.storeOptional]) (by simpa using hg)
  rw [hcongr, s.hartAt_storeValue _ _ _ hg, hm]
  exact congrArg (fun f => (s.hartAt g).map f) (funext fun h => h.afterForeignWrite_eq _ _ _)

theorem State.commit_mem_of_write (hm : s.cfg.memoryModel = .scInterleaving) {v : BitVec w.bits}
    (hv : k.write = some v) : (s.commit o k).mem = memWrite s.mem (s.readX o.rs1).toNat w v := by
  rw [State.commit_mem, hv, State.storeOptional_mem_of_scInterleaving hm]

/-- Under `RVWMO` a completion leaves memory alone (log 9). -/
theorem State.commit_mem_of_rvwmo (hm : s.cfg.memoryModel = .rvwmo) : (s.commit o k).mem = s.mem := by
  rw [State.commit_mem, State.storeOptional_of_rvwmo hm]

/-- Under `RVWMO` a completion leaves the other harts alone (log 9). -/
theorem State.commit_othersKept_of_rvwmo (hm : s.cfg.memoryModel = .rvwmo) : OthersKept s (s.commit o k) :=
  State.commit_othersKept o (State.storeOptional_of_rvwmo hm _)

theorem State.commit_memoryKeptOutside (hm : s.cfg.memoryModel = .scInterleaving) (hwf : Memory.wf s.mem = true)
    {v : BitVec w.bits} (hv : k.write = some v) :
    MemoryKeptOutside (s.readX o.rs1).toNat w.bytes s (s.commit o k) := by
  intro b hb
  rw [State.commit_mem_of_write o hm hv, memByte_memWrite_outside hwf _ _ _ _ hb]

end Commit

/-! ### The values an instruction computes -/

@[simp] theorem Xlen.sext_fits {n : Nat} (x : Xlen) (v : BitVec n) : x.fits (x.sext v) = true :=
  Xlen.wrap_fits x _

theorem Xlen.fits_zero (x : Xlen) : x.fits 0 = true := by
  cases x <;> rfl

theorem Xlen.fits_one (x : Xlen) : x.fits 1 = true := by
  cases x <;> rfl

theorem Xlen.sext_word (x : Xlen) (v : BitVec 32) : x.sext v = extendWord x v := by
  cases x with
  | rv32 =>
    have hlow : (v.signExtend 64).setWidth 32 = v := by
      refine BitVec.eq_of_getLsbD_eq fun i hi => ?_
      rw [BitVec.getLsbD_setWidth, BitVec.getLsbD_signExtend, if_pos hi]
      simp [hi, show i < 64 by omega]
    exact congrArg (BitVec.setWidth 64) hlow
  | rv64 => rfl

theorem Config.xlen_of_admitsD {c : Config} (h : c.admitsD = true) : c.xlen = .rv64 := by
  simpa using (Bool.and_eq_true_iff.1 h).2

theorem Config.sext_doubleword {c : Config} (h : c.admitsD = true) (v : BitVec 64) : c.xlen.sext v = v := by
  rw [Config.xlen_of_admitsD h]
  exact BitVec.signExtend_eq v

theorem nonzeroCode_ne_zero (x : Xlen) (v : Word) : nonzeroCode x v ≠ 0 := by
  unfold nonzeroCode
  split
  · decide
  · assumption

theorem nonzeroCode_fits (x : Xlen) (v : Word) : x.fits (nonzeroCode x v) = true := by
  unfold nonzeroCode
  split
  · exact Xlen.fits_one x
  · exact Xlen.wrap_fits x v

/-- A drawn code of a list is a member of it. -/
theorem State.failCode_mem {s : State} {first : Word} {rest : List Word}
    (h : s.cfg.scFailCodes = .oneOf first rest) : s.failCode ∈ first :: rest := by
  simp only [State.failCode, h]
  have hlt : (Config.freeFailCode s.draws).toNat % (rest.length + 1) < (first :: rest).length :=
    Nat.mod_lt _ (Nat.succ_pos _)
  rw [List.getD_eq_getElem _ _ hlt]
  exact List.getElem_mem _

/-- The code of a failed store-conditional is a nonzero `XLEN`-bit value (40_lr_sc R92). -/
theorem State.failCode_legal {s : State} (h : s.cfg.wfFailCodes = true) :
    s.failCode ≠ 0 ∧ s.cfg.xlen.fits s.failCode = true := by
  cases hc : s.cfg.scFailCodes with
  | everyNonzero =>
    simp only [State.failCode, hc]
    exact ⟨nonzeroCode_ne_zero _ _, nonzeroCode_fits _ _⟩
  | oneOf first rest =>
    simp only [Config.wfFailCodes, hc, List.all_eq_true, Bool.and_eq_true, bne_iff_ne] at h
    exact h _ (State.failCode_mem hc)

theorem checkAccess_of_dataInMem {s : State} {addr : Word} {w : Width} (k : AccessKind) (h : DataInMem s addr w) :
    checkAccess s.cfg k addr w = none :=
  checkAccess_eq_none_iff.2 ⟨aligned_iff.2 h.1, Config.admits_iff.2 h.2⟩

/-- A store-conditional whose code is the failure code writes one of SC_FAIL_CODE to `rd` (40_lr_sc R92). -/
theorem State.commit_failCodeWritten {s : State} {o : Operands} {w : Width} {k : Completion w}
    (hf : s.cfg.wfFailCodes = true) (hv : k.value = s.failCode) : FailCodeWritten o.rd s (s.commit o k) := by
  obtain ⟨hne, hfits⟩ := State.failCode_legal hf
  exact ⟨s.failCode, hne, hfits, fun _ _ hc => State.failCode_mem hc,
    hv ▸ State.commit_registerWritten o (hv ▸ hfits)⟩

/-! ### When a store-conditional succeeds (20_memory R52) -/

theorem State.scSucceeds_of_reserved {s : State} {addr : Word} {w : Width} (h : s.hart.res = some ⟨addr, w⟩) :
    s.scSucceeds addr w = true := by
  simp [State.scSucceeds, h]

/-- Case (c): no reservation, or some byte of the access outside its set. -/
theorem State.scSucceeds_of_outside {s : State} {addr : Word} {w : Width} (h : OutsideReservation s addr w)
    (hne : s.hart.res ≠ some ⟨addr, w⟩) : s.scSucceeds addr w = false := by
  cases hr : s.hart.res with
  | none => simp [State.scSucceeds, hr]
  | some r =>
    obtain ⟨i, hi, hout⟩ := h r hr
    have hcov : s.cfg.covers r.addr.toNat addr.toNat w.bytes = false := by
      rw [Bool.eq_false_iff]
      intro hc
      simp only [Config.covers, List.all_eq_true, List.mem_range] at hc
      exact hout (Config.inReservationSet_iff.1 (hc i hi))
    have hcase : ¬ (r.addr = addr ∧ r.size = w) := by
      rintro ⟨rfl, rfl⟩
      exact hne hr
    simp [State.scSucceeds, hr, hcase, hcov]

theorem State.scSucceeds_of_none {s : State} {addr : Word} {w : Width} (h : s.hart.res = none) :
    s.scSucceeds addr w = false := by
  simp [State.scSucceeds, h]

end Sys2Proof.Machine

end

section

namespace Sys2Proof.Machine

/-! ### The facts of all instructions -/

/-- Settles O17: a `.d` form is not well formed where these are not admitted (`exec_refused`). -/
theorem doublewordFormsRefusedUnlessAdmitted : Obligations.DoublewordFormsRefusedUnlessAdmitted := by
  intro i s hd hno
  have hw : i.wf s.cfg = false := Bool.eq_false_iff.2 fun hw => Bool.eq_false_iff.1 hno (Instr.wf_iff.1 hw hd)
  exact exec_refused hw

/-- Settles O11: the laws of register reads and writes, and what the completion of an instruction writes and
records (`State.readX_commit`, `State.event`). -/
theorem registerZeroIsHardwired : Obligations.RegisterZeroIsHardwired := by
  intro s
  refine ⟨s.readX_zero, fun v => ?discard, fun r v hr => ⟨?same, fun q hq => ?other⟩, fun i t h hrd q => ?rd,
    fun i t h hrs1 => ?rs1, fun i f h hrs1 => ?tval⟩
  case discard => rw [State.writeX, Hart.writeX_zero]
  case same => rw [State.readX_writeX, if_pos ⟨rfl, hr⟩]
  case other => rw [State.readX_writeX, if_neg fun h => hq h.1]
  case rd =>
    obtain ⟨-, -, rfl⟩ := exec_next_commit h
    rw [State.readX_commit, if_neg fun h => h.2 hrd]
  case rs1 =>
    obtain ⟨-, -, rfl⟩ := exec_next_commit h
    have haddr : s.readX i.operands.rs1 = 0 := (congrArg s.readX hrs1).trans s.readX_zero
    refine ⟨_, State.commit_history .., fun a ha => ?_, fun a ha => ?_⟩
    · obtain ⟨v, -, rfl⟩ := Option.map_eq_some_iff.1 ha
      exact haddr
    · obtain ⟨v, -, rfl⟩ := Option.map_eq_some_iff.1 ha
      exact haddr
  case tval =>
    obtain ⟨cause, -, hf⟩ := exec_fault_reported h
    cases hf
    exact (congrArg s.readX hrs1).trans s.readX_zero

/-- The other harts after a completed instruction: each is unchanged but for a reservation it may lose. -/
theorem exec_others {i : Instr} {s t : State} (h : exec i s = .next t) :
    ∃ f : Hart → Hart, (∀ h : Hart, h.MayLose (f h)) ∧ t.lower = s.lower.map f ∧ t.upper = s.upper.map f := by
  obtain ⟨-, -, rfl⟩ := exec_next_commit h
  exact s.storeOptional_others _ _ _

/-- The harts but the one that steps, each changed in the same way. -/
theorem State.hartAt_of_map {s t : State} {f : Hart → Hart} (hl : t.lower = s.lower.map f)
    (hu : t.upper = s.upper.map f) {g : Nat} (hg : g ≠ s.hartId) : t.hartAt g = (s.hartAt g).map f := by
  have hid : t.hartId = s.hartId := by simp [State.hartId, hl]
  rcases Nat.lt_or_gt_of_ne hg with hlt | hgt
  · rw [t.hartAt_lower (hid ▸ hlt), s.hartAt_lower hlt, hl, List.getElem?_map]
  · rw [t.hartAt_upper (hid ▸ hgt), s.hartAt_upper hgt, hu, hid, List.getElem?_map]

/-- A hart that does not step may only lose its reservation. -/
theorem exec_mayLose {i : Instr} {s t : State} {g : Nat} {h : Hart} (hx : exec i s = .next t) (hg : g ≠ s.hartId)
    (hh : s.hartAt g = some h) : ∃ h', t.hartAt g = some h' ∧ h.MayLose h' := by
  obtain ⟨f, hf, hl, hu⟩ := exec_others hx
  exact ⟨f h, by rw [State.hartAt_of_map hl hu hg, hh, Option.map_some], hf h⟩

/-- Settles O49: a completed instruction lets another hart lose no more than its reservation (`exec_mayLose`). -/
theorem otherHartsOnlyLoseReservations : Obligations.OtherHartsOnlyLoseReservations := by
  intro i s t g h hg hh hx
  obtain ⟨h', hh', hlose⟩ := exec_mayLose hx hg hh
  exact ⟨h', hh', hlose.regs, hlose.pc, hlose.fault, hlose.refusal, hlose.res⟩

/-! ### Load-reserved (40_lr_sc R91, 42_rv64a R122) -/

/-- What a load-reserved does on an address that passes its checks, whatever the memory model. -/
theorem loadReserved_result {w : Width} {rd rs1 : Reg} {aq rl : Bool} {s : State}
    (hin : DataInMem s (s.readX rs1) w) :
    ∃ t, loadReserved w rd rs1 aq rl s = .next t ∧
      RegisterWritten rd (s.cfg.xlen.sext (s.loadValue (s.readX rs1) w)) s t ∧
      t.hart.res = some ⟨s.readX rs1, w⟩ ∧ PcAdvanced s t ∧ ControlKept s t ∧ t.mem = s.mem ∧ OthersKept s t ∧
      t.history = ⟨s.hartId, .loadReserved, rd, rs1, none, aq, rl,
        some ⟨s.readX rs1, w, (s.loadValue (s.readX rs1) w).setWidth 64⟩, none⟩ :: s.history :=
  ⟨_, loadReserved_completes (checkAccess_of_dataInMem .load hin),
    State.commit_registerWritten _ (Xlen.sext_fits _ _), State.commit_hart_res .., State.commit_pcAdvanced ..,
    State.commit_controlKept .., rfl, State.commit_othersKept _ rfl, State.commit_history ..⟩

theorem State.loadValue_of_scInterleaving {s : State} (hm : s.cfg.memoryModel = .scInterleaving) (addr : Word)
    (w : Width) : s.loadValue addr w = memRead s.mem addr.toNat w := by
  simp only [State.loadValue, hm]

/-- Settles O21: `loadReserved_result`, the value read being the word in memory. -/
theorem lrWResult : Obligations.LrWResult := by
  intro rd rs1 aq rl s hm hin
  have h := loadReserved_result (rd := rd) (aq := aq) (rl := rl) hin
  rw [State.loadValue_of_scInterleaving hm, Xlen.sext_word] at h
  exact h

/-- Settles O22: `loadReserved_result`, the value read being the doubleword in memory. -/
theorem lrDResult : Obligations.LrDResult := by
  intro rd rs1 aq rl s hd hm hin
  have h := loadReserved_result (rd := rd) (aq := aq) (rl := rl) hin
  rw [State.loadValue_of_scInterleaving hm, Config.sext_doubleword hd, BitVec.setWidth_eq] at h
  obtain ⟨t, ht, hrest⟩ := h
  exact ⟨t, (whenAdmitted_of_admitsD hd _).trans ht, hrest⟩

/-- Settles O44: `loadReserved_result`, with the value the oracle answers. -/
theorem loadReservedUnderRvwmo : Obligations.LoadReservedUnderRvwmo := by
  intro rd rs1 aq rl w s hd hm hin
  obtain ⟨t, ht, hrest⟩ := loadReserved_result (rd := rd) (aq := aq) (rl := rl) hin
  refine ⟨t, s.loadValue (s.readX rs1) w, ?_, hrest⟩
  cases w with
  | word => exact ht
  | doubleword => exact (whenAdmitted_of_admitsD (hd rfl) _).trans ht


/-! ### Store-conditional (20_memory R52, 40_lr_sc R92, 42_rv64a R123) -/

theorem storeConditional_conditional {w : Width} {rd rs1 rs2 : Reg} {aq rl : Bool} {s : State}
    (hin : DataInMem s (s.readX rs1) w) :
    storeConditional w rd rs1 rs2 aq rl s =
      .next (s.commit ⟨rd, rs1, some rs2, aq, rl⟩ (s.conditional w rs2 (s.scSucceeds (s.readX rs1) w))) :=
  storeConditional_completes (checkAccess_of_dataInMem .storeAMO hin)

/-- What a store-conditional writes to `rd` when it succeeds. -/
theorem conditional_true_registerWritten (s : State) (o : Operands) (w : Width) (rs2 : Reg) :
    RegisterWritten o.rd 0 s (s.commit o (s.conditional w rs2 true)) :=
  State.commit_registerWritten o (k := s.conditional w rs2 true) (Xlen.fits_zero _)

/-- What a store-conditional writes to `rd` when it fails. -/
theorem conditional_false_failCodeWritten {s : State} (o : Operands) (w : Width) (rs2 : Reg)
    (hf : s.cfg.wfFailCodes = true) : FailCodeWritten o.rd s (s.commit o (s.conditional w rs2 false)) :=
  State.commit_failCodeWritten hf rfl

theorem conditional_true_scSucceeded {w : Width} (rd rs1 rs2 : Reg) (aq rl : Bool) {s : State}
    (hm : s.cfg.memoryModel = .scInterleaving) (hwf : Memory.wf s.mem = true) :
    ScSucceeded w rd rs1 rs2 aq rl s (s.commit ⟨rd, rs1, some rs2, aq, rl⟩ (s.conditional w rs2 true)) := by
  refine ⟨?_, conditional_true_registerWritten _ _ _ _,
    State.commit_memoryKeptOutside ⟨rd, rs1, some rs2, aq, rl⟩ hm hwf rfl,
    State.commit_othersSawWrite ⟨rd, rs1, some rs2, aq, rl⟩ hm rfl, State.commit_history ..⟩
  rw [State.commit_mem_of_write _ hm rfl, memRead_memWrite hwf]
  rfl

theorem conditional_false_scFailed {w : Width} (rd rs1 rs2 : Reg) (aq rl : Bool) {s : State}
    (hf : s.cfg.wfFailCodes = true) :
    ScFailed rd rs1 rs2 aq rl s (s.commit ⟨rd, rs1, some rs2, aq, rl⟩ (s.conditional w rs2 false)) :=
  ⟨rfl, conditional_false_failCodeWritten _ _ _ hf, State.commit_othersKept _ rfl, State.commit_history ..⟩

/-- What a store-conditional of either size does under `SC_INTERLEAVING`: its outcome decides which of the two ways
it completes, and the three cases of R52 decide its outcome. -/
theorem storeConditionalSpec_of_exec {make : Reg → Reg → Reg → Bool → Bool → Instr} {w : Width}
    (hexec : ∀ (rd rs1 rs2 : Reg) (aq rl : Bool) (s : State), (w = .doubleword → s.cfg.admitsD = true) →
      exec (make rd rs1 rs2 aq rl) s = storeConditional w rd rs1 rs2 aq rl s) :
    StoreConditionalSpec make w := by
  intro rd rs1 rs2 aq rl s hd hwf hf hm hin
  have hsucc := conditional_true_scSucceeded (w := w) rd rs1 rs2 aq rl hm hwf
  have hfail := conditional_false_scFailed (w := w) rd rs1 rs2 aq rl hf
  refine ⟨_, (hexec _ _ _ _ _ s hd).trans (storeConditional_conditional hin), State.commit_hart_res ..,
    State.commit_pcAdvanced .., State.commit_controlKept .., ?_, fun hres => ?_, fun hout hne => ?_⟩
  · cases s.scSucceeds (s.readX rs1) w with
    | true => exact .inl hsucc
    | false => exact .inr hfail
  · rw [State.scSucceeds_of_reserved hres]
    exact hsucc
  · rw [State.scSucceeds_of_outside hout hne]
    exact hfail

/-- Settles O23: `storeConditionalSpec_of_exec` for the two sizes. -/
theorem storeConditionalResult : Obligations.StoreConditionalResult :=
  ⟨storeConditionalSpec_of_exec fun _ _ _ _ _ _ _ => rfl,
    storeConditionalSpec_of_exec fun _ _ _ _ _ _ hd => whenAdmitted_of_admitsD (hd rfl) _⟩

/-- Settles O45: the completion of a store-conditional, whose store leaves memory and the other harts alone under
`RVWMO` (`State.commit_mem_of_rvwmo`). -/
theorem storeConditionalUnderRvwmo : Obligations.StoreConditionalUnderRvwmo := by
  intro rd rs1 rs2 aq rl w s hd hf hm hin
  have hexec := storeConditional_conditional (rd := rd) (rs2 := rs2) (aq := aq) (rl := rl) hin
  refine ⟨s.commit ⟨rd, rs1, some rs2, aq, rl⟩ (s.conditional w rs2 (s.scSucceeds (s.readX rs1) w)),
    s.scSucceeds (s.readX rs1) w, ?exec, State.commit_hart_res .., State.commit_pcAdvanced ..,
    State.commit_controlKept .., State.commit_mem_of_rvwmo _ hm,
    State.commit_othersKept_of_rvwmo _ hm, fun hs => ?success, fun hs => ?failure,
    State.scSucceeds_of_reserved, State.scSucceeds_of_none, State.scSucceeds_of_outside, ?history⟩
  case exec =>
    cases w with
    | word => exact hexec
    | doubleword => exact (whenAdmitted_of_admitsD (hd rfl) _).trans hexec
  case success =>
    rw [hs]
    exact conditional_true_registerWritten s ⟨rd, rs1, some rs2, aq, rl⟩ w rs2
  case failure =>
    rw [hs]
    exact conditional_false_failCodeWritten ⟨rd, rs1, some rs2, aq, rl⟩ w rs2 hf
  case history =>
    rw [State.commit_history]
    cases s.scSucceeds (s.readX rs1) w <;> rfl

/-! ### AMOs (41_amo_w R100, 42_rv64a R121) -/

/-- What an AMO does under `SC_INTERLEAVING` on an address that passes its checks. -/
theorem amo_result {op : AmoOp} {w : Width} {rd rs1 rs2 : Reg} {aq rl : Bool} {s : State}
    (hwf : Memory.wf s.mem = true) (hm : s.cfg.memoryModel = .scInterleaving) (hin : DataInMem s (s.readX rs1) w) :
    ∃ t, amo op w rd rs1 rs2 aq rl s = .next t ∧
      memRead t.mem (s.readX rs1).toNat w = op.apply (memRead s.mem (s.readX rs1).toNat w) (s.data w rs2) ∧
      RegisterWritten rd (s.cfg.xlen.sext (memRead s.mem (s.readX rs1).toNat w)) s t ∧
      t.hart.res = s.hart.res ∧ PcAdvanced s t ∧ ControlKept s t ∧
      MemoryKeptOutside (s.readX rs1).toNat w.bytes s t ∧ OthersSawWrite (s.readX rs1).toNat w.bytes s t ∧
      t.history = ⟨s.hartId, .amo, rd, rs1, some rs2, aq, rl,
        some ⟨s.readX rs1, w, (memRead s.mem (s.readX rs1).toNat w).setWidth 64⟩,
        some ⟨s.readX rs1, w, (memRead t.mem (s.readX rs1).toNat w).setWidth 64⟩⟩ :: s.history := by
  have hexec := amo_completes (op := op) (rd := rd) (rs2 := rs2) (aq := aq) (rl := rl)
    (checkAccess_of_dataInMem .storeAMO hin)
  rw [Operation.completion, State.loadValue_of_scInterleaving hm] at hexec
  refine ⟨_, hexec, ?mem, State.commit_registerWritten _ (Xlen.sext_fits _ _), State.commit_hart_res ..,
    State.commit_pcAdvanced .., State.commit_controlKept ..,
    State.commit_memoryKeptOutside ⟨rd, rs1, some rs2, aq, rl⟩ hm hwf rfl,
    State.commit_othersSawWrite ⟨rd, rs1, some rs2, aq, rl⟩ hm rfl, ?history⟩
  case mem => rw [State.commit_mem_of_write _ hm rfl, memRead_memWrite hwf]
  case history =>
    rw [State.commit_mem_of_write _ hm rfl, memRead_memWrite hwf]
    exact State.commit_history ..

/-- What a word AMO of an operator does, where `f` is the operator on words. -/
theorem amoWordSpec_of_apply {make : Reg → Reg → Reg → Bool → Bool → Instr} {f : BitVec 32 → BitVec 32 → BitVec 32}
    (op : AmoOp) (hop : op.apply = f)
    (hexec : ∀ rd rs1 rs2 aq rl s, exec (make rd rs1 rs2 aq rl) s = amo op .word rd rs1 rs2 aq rl s) :
    AmoWordSpec make f := by
  subst hop
  intro rd rs1 rs2 aq rl s hwf hm hin
  have h := amo_result (op := op) (rd := rd) (rs2 := rs2) (aq := aq) (rl := rl) hwf hm hin
  rw [Xlen.sext_word, ← hexec] at h
  exact h

/-- What a doubleword AMO of an operator does, where `f` is the operator on doublewords. -/
theorem amoDoublewordSpec_of_apply {make : Reg → Reg → Reg → Bool → Bool → Instr}
    {f : BitVec 64 → BitVec 64 → BitVec 64} (op : AmoOp) (hop : op.apply = f)
    (hexec : ∀ rd rs1 rs2 aq rl s,
      exec (make rd rs1 rs2 aq rl) s = whenAdmitted s (amo op .doubleword rd rs1 rs2 aq rl)) :
    AmoDoublewordSpec make f := by
  subst hop
  intro rd rs1 rs2 aq rl s hd hwf hm hin
  have h := amo_result (op := op) (rd := rd) (rs2 := rs2) (aq := aq) (rl := rl) hwf hm hin
  have hdata : s.data .doubleword rs2 = s.readX rs2 := BitVec.setWidth_eq _
  rw [Config.sext_doubleword hd, hdata] at h
  simp only [BitVec.setWidth_eq] at h
  rw [hexec, whenAdmitted_of_admitsD hd]
  exact h

theorem AmoOp.apply_add_eq {n : Nat} : AmoOp.add.apply (n := n) = fun t src => t + src :=
  funext fun t => funext fun src => AmoOp.apply_add t src

/-- Settles O25: the operator `swap` is the register operand. -/
theorem amoswapWResult : Obligations.AmoswapWResult :=
  amoWordSpec_of_apply .swap rfl fun _ _ _ _ _ _ => rfl

/-- Settles O26: the operator `add` is the sum modulo 2^32 (`AmoOp.apply_add`). -/
theorem amoaddWResult : Obligations.AmoaddWResult :=
  amoWordSpec_of_apply .add AmoOp.apply_add_eq fun _ _ _ _ _ _ => rfl

/-- Settles O27: the operator `xor` is the bitwise exclusive or. -/
theorem amoxorWResult : Obligations.AmoxorWResult :=
  amoWordSpec_of_apply .xor rfl fun _ _ _ _ _ _ => rfl

/-- Settles O28: the operator `and` is the bitwise and. -/
theorem amoandWResult : Obligations.AmoandWResult :=
  amoWordSpec_of_apply .and rfl fun _ _ _ _ _ _ => rfl

/-- Settles O29: the operator `or` is the bitwise or. -/
theorem amoorWResult : Obligations.AmoorWResult :=
  amoWordSpec_of_apply .or rfl fun _ _ _ _ _ _ => rfl

/-- Settles O30: the operator `min` is the signed minimum. -/
theorem amominWResult : Obligations.AmominWResult :=
  amoWordSpec_of_apply .min rfl fun _ _ _ _ _ _ => rfl

/-- Settles O31: the operator `max` is the signed maximum. -/
theorem amomaxWResult : Obligations.AmomaxWResult :=
  amoWordSpec_of_apply .max rfl fun _ _ _ _ _ _ => rfl

/-- Settles O32: the operator `minu` is the unsigned minimum. -/
theorem amominuWResult : Obligations.AmominuWResult :=
  amoWordSpec_of_apply .minu rfl fun _ _ _ _ _ _ => rfl

/-- Settles O33: the operator `maxu` is the unsigned maximum. -/
theorem amomaxuWResult : Obligations.AmomaxuWResult :=
  amoWordSpec_of_apply .maxu rfl fun _ _ _ _ _ _ => rfl

/-- Settles O34: the operator `swap` is the register operand. -/
theorem amoswapDResult : Obligations.AmoswapDResult :=
  amoDoublewordSpec_of_apply .swap rfl fun _ _ _ _ _ _ => rfl

/-- Settles O35: the operator `add` is the sum modulo 2^64 (`AmoOp.apply_add`). -/
theorem amoaddDResult : Obligations.AmoaddDResult :=
  amoDoublewordSpec_of_apply .add AmoOp.apply_add_eq fun _ _ _ _ _ _ => rfl

/-- Settles O36: the operator `xor` is the bitwise exclusive or. -/
theorem amoxorDResult : Obligations.AmoxorDResult :=
  amoDoublewordSpec_of_apply .xor rfl fun _ _ _ _ _ _ => rfl

/-- Settles O37: the operator `and` is the bitwise and. -/
theorem amoandDResult : Obligations.AmoandDResult :=
  amoDoublewordSpec_of_apply .and rfl fun _ _ _ _ _ _ => rfl

/-- Settles O38: the operator `or` is the bitwise or. -/
theorem amoorDResult : Obligations.AmoorDResult :=
  amoDoublewordSpec_of_apply .or rfl fun _ _ _ _ _ _ => rfl

/-- Settles O39: the operator `min` is the signed minimum. -/
theorem amominDResult : Obligations.AmominDResult :=
  amoDoublewordSpec_of_apply .min rfl fun _ _ _ _ _ _ => rfl

/-- Settles O40: the operator `max` is the signed maximum. -/
theorem amomaxDResult : Obligations.AmomaxDResult :=
  amoDoublewordSpec_of_apply .max rfl fun _ _ _ _ _ _ => rfl

/-- Settles O41: the operator `minu` is the unsigned minimum. -/
theorem amominuDResult : Obligations.AmominuDResult :=
  amoDoublewordSpec_of_apply .minu rfl fun _ _ _ _ _ _ => rfl

/-- Settles O42: the operator `maxu` is the unsigned maximum. -/
theorem amomaxuDResult : Obligations.AmomaxuDResult :=
  amoDoublewordSpec_of_apply .maxu rfl fun _ _ _ _ _ _ => rfl

/-- What an AMO does under `RVWMO`, where `f` is its operator: it reads what the oracle answers. -/
theorem amoRvwmoSpec_of_apply {make : Reg → Reg → Reg → Bool → Bool → Instr} {w : Width}
    {f : BitVec w.bits → BitVec w.bits → BitVec w.bits} (op : AmoOp) (hop : op.apply = f)
    (hexec : ∀ (rd rs1 rs2 : Reg) (aq rl : Bool) (s : State), (w = .doubleword → s.cfg.admitsD = true) →
      exec (make rd rs1 rs2 aq rl) s = amo op w rd rs1 rs2 aq rl s) :
    AmoRvwmoSpec make w f := by
  subst hop
  intro rd rs1 rs2 aq rl s hd hm hin
  exact ⟨_, s.loadValue (s.readX rs1) w,
    (hexec _ _ _ _ _ s hd).trans (amo_completes (checkAccess_of_dataInMem .storeAMO hin)),
    State.commit_registerWritten _ (Xlen.sext_fits _ _), State.commit_hart_res .., State.commit_pcAdvanced ..,
    State.commit_controlKept .., State.commit_mem_of_rvwmo _ hm,
    State.commit_othersKept_of_rvwmo _ hm, State.commit_history ..⟩

theorem amoRvwmoSpec_word {make : Reg → Reg → Reg → Bool → Bool → Instr} {f : BitVec 32 → BitVec 32 → BitVec 32}
    (op : AmoOp) (hop : op.apply = f)
    (hexec : ∀ rd rs1 rs2 aq rl s, exec (make rd rs1 rs2 aq rl) s = amo op .word rd rs1 rs2 aq rl s) :
    AmoRvwmoSpec make .word f :=
  amoRvwmoSpec_of_apply op hop fun _ _ _ _ _ _ _ => hexec ..

theorem amoRvwmoSpec_doubleword {make : Reg → Reg → Reg → Bool → Bool → Instr}
    {f : BitVec 64 → BitVec 64 → BitVec 64} (op : AmoOp) (hop : op.apply = f)
    (hexec : ∀ rd rs1 rs2 aq rl s,
      exec (make rd rs1 rs2 aq rl) s = whenAdmitted s (amo op .doubleword rd rs1 rs2 aq rl)) :
    AmoRvwmoSpec make .doubleword f :=
  amoRvwmoSpec_of_apply op hop fun _ _ _ _ _ _ hd => (hexec ..).trans (whenAdmitted_of_admitsD (hd rfl) _)

/-- Settles O46: what an AMO does under `RVWMO`, for the nine operators on words and on doublewords. -/
theorem amoUnderRvwmo : Obligations.AmoUnderRvwmo :=
  ⟨amoRvwmoSpec_word .swap rfl fun _ _ _ _ _ _ => rfl,
    amoRvwmoSpec_word .add AmoOp.apply_add_eq fun _ _ _ _ _ _ => rfl,
    amoRvwmoSpec_word .xor rfl fun _ _ _ _ _ _ => rfl,
    amoRvwmoSpec_word .and rfl fun _ _ _ _ _ _ => rfl,
    amoRvwmoSpec_word .or rfl fun _ _ _ _ _ _ => rfl,
    amoRvwmoSpec_word .min rfl fun _ _ _ _ _ _ => rfl,
    amoRvwmoSpec_word .max rfl fun _ _ _ _ _ _ => rfl,
    amoRvwmoSpec_word .minu rfl fun _ _ _ _ _ _ => rfl,
    amoRvwmoSpec_word .maxu rfl fun _ _ _ _ _ _ => rfl,
    amoRvwmoSpec_doubleword .swap rfl fun _ _ _ _ _ _ => rfl,
    amoRvwmoSpec_doubleword .add AmoOp.apply_add_eq fun _ _ _ _ _ _ => rfl,
    amoRvwmoSpec_doubleword .xor rfl fun _ _ _ _ _ _ => rfl,
    amoRvwmoSpec_doubleword .and rfl fun _ _ _ _ _ _ => rfl,
    amoRvwmoSpec_doubleword .or rfl fun _ _ _ _ _ _ => rfl,
    amoRvwmoSpec_doubleword .min rfl fun _ _ _ _ _ _ => rfl,
    amoRvwmoSpec_doubleword .max rfl fun _ _ _ _ _ _ => rfl,
    amoRvwmoSpec_doubleword .minu rfl fun _ _ _ _ _ _ => rfl,
    amoRvwmoSpec_doubleword .maxu rfl fun _ _ _ _ _ _ => rfl⟩

end Sys2Proof.Machine

end

section

namespace Sys2Proof

open Sys2Proof.Machine

/-! ### Which instructions are which procedure -/

theorem Instr.isLoadReserved_iff_operation (i : Instr) : i.isLoadReserved = true ↔ i.operation = .loadReserved := by
  cases i <;> simp [Instr.isLoadReserved, Instr.operation]

theorem Instr.isStoreConditional_iff_operation (i : Instr) :
    i.isStoreConditional = true ↔ ∃ rs2, i.operation = .storeConditional rs2 := by
  cases i <;> simp [Instr.isStoreConditional, Instr.operation]

@[simp] theorem Instr.withOrdering_width (i : Instr) (aq rl : Bool) : (i.withOrdering aq rl).width = i.width := by
  cases i <;> rfl

@[simp] theorem Instr.withOrdering_operands (i : Instr) (aq rl : Bool) :
    (i.withOrdering aq rl).operands = { i.operands with aq := aq, rl := rl } := by
  cases i <;> rfl

@[simp] theorem Instr.withOrdering_rs1 (i : Instr) (aq rl : Bool) : (i.withOrdering aq rl).rs1 = i.rs1 :=
  congrArg Operands.rs1 (i.withOrdering_operands aq rl)

@[simp] theorem Instr.withOrdering_wf (i : Instr) (aq rl : Bool) (c : Config) :
    (i.withOrdering aq rl).wf c = i.wf c := by
  simp only [Instr.wf, Instr.withOrdering_width]

@[simp] theorem Instr.withOrdering_accessKind (i : Instr) (aq rl : Bool) :
    (i.withOrdering aq rl).accessKind = i.accessKind := by
  cases i <;> rfl

end Sys2Proof

namespace Sys2Proof.Machine

/-- The kind of event of a procedure (20_memory R56). -/
def Operation.kind : Operation → EventKind
  | .loadReserved => .loadReserved
  | .storeConditional _ => .storeConditional
  | .amo _ _ => .amo

@[simp] theorem Operation.completion_kind (w : Width) (addr : Word) (s : State) (o : Operation) :
    (o.completion w addr s).kind = o.kind := by
  cases o <;> rfl

theorem Operation.kind_eq_loadReserved {o : Operation} : o.kind = .loadReserved ↔ o = .loadReserved := by
  cases o <;> simp [Operation.kind]

theorem Operation.kind_eq_storeConditional {o : Operation} :
    o.kind = .storeConditional ↔ ∃ rs2, o = .storeConditional rs2 := by
  cases o <;> simp [Operation.kind]

/-- A load-reserved stores nothing. -/
theorem Operation.completion_write_of_loadReserved {o : Operation} (h : o.kind = .loadReserved) (w : Width)
    (addr : Word) (s : State) : (o.completion w addr s).write = none := by
  rw [Operation.kind_eq_loadReserved.1 h]
  rfl

/-- An AMO always stores. -/
theorem Operation.completion_write_of_amo {o : Operation} (h : o.kind = .amo) (w : Width) (addr : Word)
    (s : State) : (o.completion w addr s).write.isSome = true := by
  cases o
  case amo => rfl
  all_goals cases h

/-- What a store-conditional does is decided by its outcome. -/
theorem Instr.completion_of_isStoreConditional {i : Instr} (h : i.isStoreConditional = true) (s : State) :
    ∃ rs2, i.completion s = s.conditional i.width rs2 (s.scSucceeds (s.readX i.rs1) i.width) := by
  obtain ⟨rs2, ho⟩ := i.isStoreConditional_iff_operation.1 h
  exact ⟨rs2, by rw [Instr.completion, ho, Operation.completion]⟩

/-- A value keeps its bits in its 64-bit container. -/
theorem setWidth_container {w : Width} (v : BitVec w.bits) : (v.setWidth 64).setWidth w.bits = v := by
  have hbits : w.bits ≤ 64 := by cases w <;> decide
  rw [BitVec.setWidth_setWidth_of_le _ hbits, BitVec.setWidth_eq]

/-! ### The write of an instruction and the other harts (20_memory R49) -/

/-- Settles O20: the event of a completion names its write (`State.event`), which decides what becomes of memory and
the other harts; of a store-conditional it decides the code as well. -/
theorem mandatoryInvalidation : Obligations.MandatoryInvalidation := by
  intro i s t hm h
  obtain ⟨-, -, rfl⟩ := exec_next_commit h
  have hkind : (s.event i.operands (i.completion s)).kind = i.operation.kind :=
    i.operation.completion_kind i.width (s.readX i.rs1) s
  refine ⟨_, State.commit_history .., rfl, ?lr, ?sc, fun hk => ?amo, fun hk => ?load, fun hnone => ?kept,
    fun a ha => ?stored⟩
  case lr => rw [hkind, Operation.kind_eq_loadReserved, i.isLoadReserved_iff_operation]
  case sc => rw [hkind, Operation.kind_eq_storeConditional, i.isStoreConditional_iff_operation]
  case amo => exact Option.isSome_map.trans (Operation.completion_write_of_amo (hkind.symm.trans hk) ..)
  case load => exact Option.map_eq_none_iff.2 (Operation.completion_write_of_loadReserved (hkind.symm.trans hk) ..)
  case kept =>
    have hwrite : (i.completion s).write = none := Option.map_eq_none_iff.1 hnone
    have hsame : s.storeOptional (s.readX i.operands.rs1) i.width (i.completion s).write = s := by rw [hwrite]; rfl
    refine ⟨by rw [State.commit_mem, hsame], State.commit_othersKept _ hsame, fun hsc hf => ?_⟩
    obtain ⟨rs2, hk⟩ := Instr.completion_of_isStoreConditional hsc s
    rw [hk] at hwrite ⊢
    cases hs : s.scSucceeds (s.readX i.rs1) i.width with
    | true => simp [State.conditional, hs] at hwrite
    | false => exact conditional_false_failCodeWritten i.operands i.width rs2 hf
  case stored =>
    obtain ⟨v, hwrite, rfl⟩ := Option.map_eq_some_iff.1 ha
    refine ⟨rfl, rfl, ?_, State.commit_othersSawWrite _ hm hwrite, fun hsc => ?_⟩
    · rw [State.commit_mem_of_write _ hm hwrite, setWidth_container]
      rfl
    · obtain ⟨rs2, hk⟩ := Instr.completion_of_isStoreConditional hsc s
      rw [hk] at hwrite ⊢
      cases hs : s.scSucceeds (s.readX i.rs1) i.width with
      | true => exact conditional_true_registerWritten s i.operands i.width rs2
      | false => simp [State.conditional, hs] at hwrite

/-! ### The ordering bits (20_memory R55) -/

/-- With other ordering bits a completion differs in its event alone. -/
theorem State.commit_operands_ordering (s : State) (o : Operands) {w : Width} (k : Completion w) (aq rl : Bool) :
    s.commit { o with aq := aq, rl := rl } k =
      { s.commit o k with history := { s.event o k with aq := aq, rl := rl } :: s.history } := by
  simp [State.commit, State.retire, State.event, State.advancePc]

/-- The ordering bits of an instruction are no part of what it completes with. -/
theorem Instr.commit_withOrdering (i : Instr) (aq rl : Bool) (s : State) :
    s.commit (i.withOrdering aq rl).operands ((i.withOrdering aq rl).completion s) =
      s.commit { i.operands with aq := aq, rl := rl } (i.completion s) := by
  cases i <;> rfl

/-- Settles O43: the ordering bits are no part of what decides the answer of `exec`, and stand in the event of a
completion alone (`State.commit_operands_ordering`). -/
theorem orderingBitsChangeNoValue : Obligations.OrderingBitsChangeNoValue := by
  intro i aq rl s
  have hx := exec_executes i s
  generalize hr : exec i s = r at hx
  cases hx with
  | refused hw => exact exec_refused (by simpa using hw)
  | raised hw cause hc => exact (exec_raises (by simpa using hw) (by simpa using hc)).trans (by simp [raise])
  | completed hw hc =>
    refine (exec_completes (by simpa using hw) (by simpa using hc)).trans (congrArg Host.Outcome.next ?_)
    rw [Instr.commit_withOrdering, State.commit_operands_ordering, State.commit_history]

/-! ### The state of the other harts (10_state R33) -/

theorem State.storeOptional_mem_congr {s t : State} (hc : t.cfg = s.cfg) (hm : t.mem = s.mem) (addr : Word)
    (w : Width) (v : Option (BitVec w.bits)) :
    (t.storeOptional addr w v).mem = (s.storeOptional addr w v).mem := by
  cases v with
  | none => exact hm
  | some v =>
    cases hmodel : s.cfg.memoryModel with
    | rvwmo => rw [State.storeOptional_of_rvwmo hmodel, State.storeOptional_of_rvwmo (hc ▸ hmodel), hm]
    | scInterleaving =>
      rw [State.storeOptional_mem_of_scInterleaving hmodel,
        State.storeOptional_mem_of_scInterleaving (hc ▸ hmodel), hm]

/-- Settles O50: what an instruction checks and completes with reads no other hart, and the number of the harts
before its own gives its event the same name. -/
theorem otherHartsCannotBeRead : Obligations.OtherHartsCannotBeRead := by
  intro i s lower upper hlen
  have hx := exec_executes i s
  generalize hr : exec i s = r at hx
  cases hx with
  | refused hw => rw [exec_refused (s := { s with lower := lower, upper := upper }) hw]
  | raised hw cause hc =>
    rw [exec_raises (s := { s with lower := lower, upper := upper }) hw hc]
    exact rfl
  | completed hw hc =>
    rw [exec_completes (s := { s with lower := lower, upper := upper }) hw hc]
    have hid : State.hartId { s with lower := lower, upper := upper } = s.hartId := hlen
    have hk : i.completion { s with lower := lower, upper := upper } = i.completion s := by
      unfold Instr.completion
      cases i.operation <;> rfl
    refine ⟨?hart, ?mem, ?history, ?draws⟩
    case hart => rw [State.commit_hart, State.commit_hart, hk]
    case mem =>
      rw [State.commit_mem, State.commit_mem, hk]
      exact State.storeOptional_mem_congr (s := s) (t := { s with lower := lower, upper := upper }) rfl rfl ..
    case history =>
      rw [State.commit_history, State.commit_history, hk]
      simp only [State.event, hid]
      rfl
    case draws => rw [State.commit_draws, State.commit_draws]

end Sys2Proof.Machine

end

section

namespace Sys2Proof.Machine

/-! ### The turn that comes next (log 4) -/

/-- Which turns are enabled is decided by the parameters and the harts. -/
theorem State.enabled_congr {s t : State} (hc : t.cfg = s.cfg) (hh : t.harts = s.harts) : t.enabled = s.enabled := by
  funext a
  cases a <;> simp only [State.enabled, State.hartAt, hc, hh]

theorem State.nextTurn_head {s : State} {t : Turn} {rest : List Turn} (hs : s.schedule = t :: rest)
    (he : s.enabled t = true) : s.nextTurn = some (t, { s with schedule := rest }) := by
  have hdrop : (s.schedule.dropWhile fun t => !s.enabled t) = t :: rest := by
    rw [hs, List.dropWhile_cons_of_neg (by simp [he])]
  simp only [State.nextTurn, hdrop]

theorem State.nextTurn_skip {s : State} {t : Turn} {rest : List Turn} (hs : s.schedule = t :: rest)
    (he : s.enabled t = false) : s.nextTurn = State.nextTurn { s with schedule := rest } := by
  have hen : State.enabled { s with schedule := rest } = s.enabled := State.enabled_congr rfl rfl
  have hdrop : (s.schedule.dropWhile fun t => !s.enabled t) = rest.dropWhile fun t => !s.enabled t := by
    rw [hs, List.dropWhile_cons_of_pos (by simp [he])]
  have hturns : State.enabledTurns { s with schedule := rest } = s.enabledTurns := by
    simp only [State.enabledTurns, hen, State.harts]
  simp only [State.nextTurn, hdrop, hen, hturns]

theorem State.nextTurn_draw {s : State} {t : Turn} (hs : s.schedule = []) (he : s.enabled t = true) :
    ∃ u, s.nextTurn = some (u, { s with draws := s.draws + 1 }) := by
  have hmem : t ∈ s.enabledTurns := State.mem_enabledTurns.2 he
  cases hturns : s.enabledTurns with
  | nil => simp [hturns] at hmem
  | cons a l =>
    simp only [State.nextTurn, hs, List.dropWhile_nil, hturns]
    exact ⟨_, rfl⟩

theorem Hart.canStep_iff {c : Config} {h : Hart} :
    h.canStep c = true ↔ h.fault = none ∧ h.refusal = none ∧ h.pc ∉ c.endPc := by
  simp [Hart.canStep, Hart.ended, and_assoc]

/-- A machine that takes no turn answers why. -/
theorem step_of_nextTurn_none {s : State} (h : s.nextTurn = none) : step s = s.stopped := by
  simp only [step, h]

/-- Why a machine has stopped does not depend on the schedule. -/
theorem State.stopped_schedule (s : State) (l : List Turn) : State.stopped { s with schedule := l } = s.stopped :=
  rfl

/-- Settles O58: the schedule's head is taken, skipped or drawn for (`State.nextTurn_head`, `State.nextTurn_skip`,
`State.nextTurn_draw`). -/
theorem nextTurnIsEnabled : Obligations.NextTurnIsEnabled := by
  intro s
  refine ⟨fun g => ?execute, fun g => ?lose, fun t rest hs he => State.nextTurn_head hs he,
    fun t rest hs he => ?skip, fun t hs he => ?draw⟩
  case execute => simp only [State.enabled_execute, Hart.canStep_iff]
  case lose => simp only [State.enabled_loseReservation, Option.isSome_iff_exists, exists_and_left]
  case skip =>
    simp only [step, State.nextTurn_skip hs he, State.stopped_schedule]
  case draw =>
    obtain ⟨u, hu⟩ := State.nextTurn_draw hs he
    exact ⟨u, (State.nextTurn_some hu).1, hu⟩

/-! ### The hart whose turn it is -/

/-- `u` is the state before the step of hart `g`: `s` with that hart in focus and the turn `v` leaves. -/
structure Focused (s v : State) (g : Nat) (u : State) : Prop where
  harts : u.harts = s.harts
  hartId : u.hartId = g
  cfg : u.cfg = s.cfg
  mem : u.mem = s.mem
  history : u.history = s.history
  refusal : u.refusal = s.refusal
  schedule : u.schedule = v.schedule
  draws : u.draws = v.draws
  canStep : u.hart.canStep s.cfg = true

theorem State.focused_of_turn {s v u : State} {g : Nat} (ht : s.nextTurn = some (.execute g, v))
    (hf : v.focus g = some u) : Focused s v g u := by
  obtain ⟨u', hu', hc⟩ := State.focus_of_turn ht
  obtain rfl : u' = u := Option.some.inj (hu'.symm.trans hf)
  obtain ⟨-, l, n, rfl⟩ := State.nextTurn_some ht
  obtain ⟨hharts, hid, hcfg, hmem, hhist, href, hsch, hdraws, -⟩ := State.focus_eq hf
  exact ⟨hharts, hid, hcfg, hmem, hhist, href, hsch, hdraws, hcfg ▸ hc⟩

theorem Focused.hartAt {s v u : State} {g : Nat} (h : Focused s v g u) (k : Nat) : u.hartAt k = s.hartAt k :=
  State.hartAt_of_harts h.harts k

/-- A hart that cannot step is not the one whose turn it is. -/
theorem Focused.ne_of_stopped {s v u : State} {g : Nat} (h : Focused s v g u) {k : Nat} {x : Hart}
    (hx : s.hartAt k = some x) (hc : x.canStep s.cfg = false) : k ≠ u.hartId := by
  rintro rfl
  rw [← h.hartAt, State.hartAt_hartId] at hx
  cases hx
  simp [h.canStep] at hc

/-- The harts where only the one that steps has changed. -/
theorem State.hartAt_update {s t : State} {f : Hart → Hart} (hl : t.lower = s.lower) (hu : t.upper = s.upper)
    (hh : t.hart = f s.hart) (k : Nat) :
    t.hartAt k = (s.hartAt k).map fun h => if k = s.hartId then f h else h := by
  by_cases hk : k = s.hartId
  · subst hk
    have hid : t.hartId = s.hartId := by simp [State.hartId, hl]
    rw [← hid, State.hartAt_hartId, hid, State.hartAt_hartId, hh]
    simp
  · rw [State.hartAt_congr hl hu hk]
    simp [hk]

theorem State.hartAt_recordFault (s : State) (f : FaultRecord) (k : Nat) :
    (s.recordFault f).hartAt k =
      (s.hartAt k).map fun h => if k = s.hartId then { h with fault := some f } else h :=
  State.hartAt_update (s := s) (t := s.recordFault f) (f := fun h => { h with fault := some f }) rfl rfl rfl k

theorem State.hartAt_markRefused (s : State) (r : Refusal) (k : Nat) :
    (s.markRefused r).hartAt k =
      (s.hartAt k).map fun h => if k = s.hartId then { h with refusal := some r } else h :=
  State.hartAt_update (s := s) (t := s.markRefused r) (f := fun h => { h with refusal := some r }) rfl rfl rfl k

/-! ### Fetch -/

theorem State.fetch_of_decode {s : State} {w : InstrWord} {i : Instr}
    (hw : programWord s.cfg.program s.hart.pc.toNat = some w) (hd : decode s.cfg w = .ok i) : s.fetch = .ok i := by
  simp only [State.fetch, hw, hd]

theorem State.fetch_of_decode_error {s : State} {w : InstrWord} {q : DecodeRefusal}
    (hw : programWord s.cfg.program s.hart.pc.toNat = some w) (hd : decode s.cfg w = .error q) :
    s.fetch = .error (.undecodable q) := by
  simp only [State.fetch, hw, hd]

theorem State.fetch_outside {s : State} (hw : programWord s.cfg.program s.hart.pc.toNat = none) :
    s.fetch = .error .pcOutsideProgram := by
  simp only [State.fetch, hw]

theorem hartStep_of_fetch {s : State} {i : Instr} (h : s.fetch = .ok i) : hartStep s = exec i s := by
  simp only [hartStep, h]

theorem hartStep_of_fetch_error {s : State} {r : Refusal} (h : s.fetch = .error r) : hartStep s = .refused r := by
  simp only [hartStep, h]

/-! ### One step -/

/-- Settles O1: the step settles the outcome of the focused hart's step, which is that of the fetched instruction
(`step_execute`, `hartStep_of_fetch`). -/
theorem stepRunsDecodedInstruction : Obligations.StepRunsDecodedInstruction := by
  intro s v u g w i ht hf hw hd
  have hfoc := State.focused_of_turn ht hf
  have hstep : step s = settle u (exec i u) := by
    rw [step_execute ht hf, hartStep_of_fetch (State.fetch_of_decode hw hd)]
  exact ⟨⟨hfoc.harts, hfoc.hartId, hfoc.cfg, hfoc.mem, hfoc.history, hfoc.refusal⟩,
    fun t h => by rw [hstep, h, settle], fun f h => by rw [hstep, h, settle], fun r h => by rw [hstep, h, settle]⟩

/-- Settles O2: the fetch refuses by name, and the refusal is marked in the focused hart
(`State.hartAt_markRefused`). -/
theorem stepRefusesWhatItCannotRun : Obligations.StepRefusesWhatItCannotRun := by
  intro s v u g r ht hf hr
  have hfoc := State.focused_of_turn ht hf
  have hfetch : u.fetch = .error r := by
    rcases hr with ⟨hw, rfl⟩ | ⟨w, q, hw, hd, rfl⟩
    · exact State.fetch_outside hw
    · exact State.fetch_of_decode_error hw hd
  have hstep : step s = .next (u.markRefused r) := by
    rw [step_execute ht hf, hartStep_of_fetch_error hfetch, settle]
  have hmark : (u.markRefused r).refusal = s.refusal.or (some r) := by rw [State.markRefused_refusal, hfoc.refusal]
  refine ⟨(Hart.canStep_iff.1 hfoc.canStep).2.2, _, hstep, fun k => ?_, fun h => by rw [hmark, h]; rfl,
    fun q h => by rw [hmark, h]; rfl, hfoc.cfg, hfoc.mem, hfoc.history, hfoc.schedule, hfoc.draws⟩
  rw [State.hartAt_markRefused, hfoc.hartId, hfoc.hartAt]

@[simp] theorem State.loseReservation_hartId (s : State) (g : Nat) : (s.loseReservation g).hartId = s.hartId := by
  unfold State.loseReservation
  split
  · rfl
  · split
    · simp [State.hartId]
    · rfl

theorem step_loseReservation {s v : State} {g : Nat} (ht : s.nextTurn = some (.loseReservation g, v)) :
    step s = .next (v.loseReservation g) := by
  simp only [step, ht, takeTurn]

/-- Settles O3: the environment's step clears one reservation (`State.hartAt_loseReservation`). -/
theorem environmentEndsReservation : Obligations.EnvironmentEndsReservation := by
  intro s g h r hg hr
  refine ⟨State.enabled_loseReservation.2 ⟨h, hg, by simp [hr]⟩, fun v ht => ?_⟩
  obtain ⟨-, l, n, rfl⟩ := State.nextTurn_some ht
  exact ⟨_, step_loseReservation ht, State.hartAt_loseReservation _ g, State.loseReservation_hartId _ g, by simp,
    by simp, by simp, by simp, by simp, by simp⟩

/-- Settles O4: the fault of an instruction carries its hart's pc (`exec_fault_reported`) and is recorded in that
hart alone (`State.hartAt_recordFault`). -/
theorem raisingInstructionHasNoEffect : Obligations.RaisingInstructionHasNoEffect := by
  intro s v u g i f ht hf hfetch hx
  have hfoc := State.focused_of_turn ht hf
  have hstep : step s = .next (u.recordFault f) := by
    rw [step_execute ht hf, hartStep_of_fetch hfetch, hx, settle]
  obtain ⟨cause, -, hrec⟩ := exec_fault_reported hx
  cases hrec
  refine ⟨_, hstep, rfl, fun k => ?_, hfoc.cfg, hfoc.mem, hfoc.history, hfoc.refusal, hfoc.schedule, hfoc.draws⟩
  rw [State.hartAt_recordFault, hfoc.hartId, hfoc.hartAt]

/-! ### The three kinds of steps -/

/-- The environment's step changes one hart of the list. -/
theorem State.harts_loseReservation (s : State) (g : Nat) :
    (s.loseReservation g).harts = s.harts.modify g fun h => { h with res := none } := by
  refine List.ext_getElem? fun k => ?_
  have h := s.hartAt_loseReservation g k
  simp only [State.hartAt] at h
  rw [h, List.getElem?_modify]
  congr 1
  funext x
  simp [eq_comm]

/-- `t` is `s` after hart `g` has lost the reservation it held, but for the turn (20_memory R50). -/
structure EndsReservation (s : State) (g : Nat) (t : State) : Prop where
  held : s.enabled (.loseReservation g) = true
  harts : t.harts = s.harts.modify g fun h => { h with res := none }
  cfg : t.cfg = s.cfg
  mem : t.mem = s.mem
  history : t.history = s.history
  refusal : t.refusal = s.refusal

/-- `t` is `u` after the hart in focus has stopped: the fault its instruction raised is recorded, or a refusal
marked (60_exceptions R140). -/
inductive Stops (u : State) : State → Prop where
  | fault (i : Instr) (f : FaultRecord) (run : exec i u = .fault (.exception f)) : Stops u (u.recordFault f)
  | refuse (r : Refusal) : Stops u (u.markRefused r)

/-- What a hart that stops leaves alone. -/
structure StopFrame (u t : State) : Prop where
  lower : t.lower = u.lower
  upper : t.upper = u.upper
  cfg : t.cfg = u.cfg
  mem : t.mem = u.mem
  history : t.history = u.history
  regs : t.hart.regs = u.hart.regs
  pc : t.hart.pc = u.hart.pc
  res : t.hart.res = u.hart.res
  stopped : ∀ c, t.hart.canStep c = false

theorem Stops.frame {u t : State} (h : Stops u t) : StopFrame u t := by
  cases h <;> exact ⟨rfl, rfl, rfl, rfl, rfl, rfl, rfl, rfl, fun c => by simp [Hart.canStep]⟩

/-- Everything a step of the machine can do: the environment ends a reservation, or the hart whose turn it is stops
or completes an instruction. -/
inductive Moves (s t : State) : Prop where
  | ends (g : Nat) (h : EndsReservation s g t)
  | stops (v : State) (g : Nat) (u : State) (foc : Focused s v g u) (stop : Stops u t)
  | runs (v : State) (g : Nat) (u : State) (i : Instr) (foc : Focused s v g u) (fetch : u.fetch = .ok i)
      (run : exec i u = .next t)

theorem step_moves {s t : State} (h : step s = .next t) : Moves s t := by
  cases step_next h with
  | lose g v turn =>
    obtain ⟨he, l, n, rfl⟩ := State.nextTurn_some turn
    exact .ends g ⟨he, State.harts_loseReservation _ g, by simp, by simp, by simp, by simp⟩
  | refuse g v u r turn focus can run => exact .stops v g u (State.focused_of_turn turn focus) (.refuse r)
  | fault g v u i f turn focus can fetch run =>
    exact .stops v g u (State.focused_of_turn turn focus) (.fault i f run)
  | run g v u i t turn focus can fetch run => exact .runs v g u i (State.focused_of_turn turn focus) fetch run

/-- The harts after the environment's step. -/
theorem EndsReservation.hartAt {s t : State} {g : Nat} (h : EndsReservation s g t) (k : Nat) :
    t.hartAt k = (s.hartAt k).map fun x => if g = k then { x with res := none } else x := by
  rw [State.hartAt, h.harts, List.getElem?_modify]
  rfl

/-- The harts before and after the environment's step, with the one that loses its reservation between the others. -/
theorem EndsReservation.split {s t : State} {g : Nat} (h : EndsReservation s g t) :
    ∃ l₁ x l₂, s.harts = l₁ ++ x :: l₂ ∧ t.harts = l₁ ++ { x with res := none } :: l₂ ∧ x.res.isSome = true := by
  obtain ⟨x, hx, hres⟩ := State.enabled_loseReservation.1 h.held
  obtain ⟨hlt, -⟩ := List.getElem?_eq_some_iff.1 hx
  obtain ⟨l₁, y, l₂, hs, hlen, ht⟩ := List.exists_of_modify (fun h : Hart => { h with res := none }) hlt
  have hy : y = x := by
    rw [State.hartAt, hs, ← hlen] at hx
    simpa using hx
  exact ⟨l₁, x, l₂, hy ▸ hs, h.harts.trans (hy ▸ ht), hres⟩

theorem EndsReservation.mayLose {s t : State} {g k : Nat} {h : Hart} (he : EndsReservation s g t)
    (hk : s.hartAt k = some h) : ∃ h', t.hartAt k = some h' ∧ h.MayLose h' := by
  refine ⟨_, by rw [he.hartAt, hk]; rfl, ?_⟩
  split
  · exact h.mayLose_clear
  · exact .refl h

/-- A hart that cannot step may only lose its reservation. -/
theorem step_mayLose {s t : State} {g : Nat} {h : Hart} (hg : s.hartAt g = some h) (hc : h.canStep s.cfg = false)
    (hstep : step s = .next t) : ∃ h', t.hartAt g = some h' ∧ h.MayLose h' := by
  cases step_moves hstep with
  | ends k he => exact he.mayLose hg
  | stops v k u foc stop =>
    have hkeep := State.hartAt_congr stop.frame.lower stop.frame.upper (foc.ne_of_stopped hg hc)
    exact ⟨h, hkeep.trans ((foc.hartAt g).trans hg), .refl h⟩
  | runs v k u i foc fetch run => exact exec_mayLose run (foc.ne_of_stopped hg hc) ((foc.hartAt g).trans hg)

/-- Settles O5: a hart that cannot step is not the one whose turn it is (`step_mayLose`). -/
theorem stoppedHartTakesNoStep : Obligations.StoppedHartTakesNoStep := by
  intro s t g h hg hc hstep
  obtain ⟨h', hg', hlose⟩ := step_mayLose hg hc hstep
  exact ⟨h', hg', hlose.regs, hlose.pc, hlose.fault, hlose.refusal, hlose.res⟩

theorem State.length_harts (s : State) : s.harts.length = s.lower.length + (s.upper.length + 1) := by
  simp [State.harts]

/-- Settles O53: the parameters stay in each case of a step, and so does the number of harts before, at and after
the one that steps. -/
theorem parametersNeverChange : Obligations.ParametersNeverChange := by
  intro s t hstep
  cases step_moves hstep with
  | ends g he => exact ⟨he.cfg, by rw [he.harts, List.length_modify]⟩
  | stops v g u foc stop =>
    have hfr := stop.frame
    exact ⟨hfr.cfg.trans foc.cfg,
      by rw [← foc.harts, t.length_harts, u.length_harts, hfr.lower, hfr.upper]⟩
  | runs v g u i foc fetch run =>
    obtain ⟨hcfg, -⟩ := exec_control run
    obtain ⟨f, -, hl, hu⟩ := exec_others run
    exact ⟨hcfg.trans foc.cfg,
      by rw [← foc.harts, t.length_harts, u.length_harts, hl, hu, List.length_map, List.length_map]⟩

/-- Settles O47: of the cases of a step only a completed instruction adds an event, and its store leaves memory
alone (`State.commit_mem_of_rvwmo`). -/
theorem rvwmoStepsLeaveMemory : Obligations.RvwmoStepsLeaveMemory := by
  intro s t hm hstep
  cases step_moves hstep with
  | ends g he => exact ⟨he.mem, .inl he.history⟩
  | stops v g u foc stop => exact ⟨stop.frame.mem.trans foc.mem, .inl (stop.frame.history.trans foc.history)⟩
  | runs v g u i foc fetch run =>
    obtain ⟨-, -, rfl⟩ := exec_next_commit run
    exact ⟨(State.commit_mem_of_rvwmo _ (foc.cfg ▸ hm)).trans foc.mem,
      .inr ⟨_, foc.history ▸ State.commit_history ..⟩⟩

/-! ### When the machine goes on, and when it has stopped (70_reset R179, log 7) -/

/-- On its turn a hart completes the instruction it fetches, or stops. -/
theorem settle_hartStep (u : State) :
    (∃ i t, u.fetch = .ok i ∧ exec i u = .next t ∧ settle u (hartStep u) = .next t) ∨
      ∃ t, Stops u t ∧ settle u (hartStep u) = .next t := by
  rcases hartStep_cases u with ⟨i, hi, he⟩ | ⟨r, -, he⟩
  · rw [he]
    cases hx : exec i u with
    | next t => exact .inl ⟨i, t, hi, hx, rfl⟩
    | fault f =>
      obtain ⟨cause, -, rfl⟩ := exec_fault_reported hx
      exact .inr ⟨_, .fault i _ hx, rfl⟩
    | refused r => exact .inr ⟨_, .refuse r, rfl⟩
  · rw [he]
    exact .inr ⟨_, .refuse r, rfl⟩

theorem step_of_enabled {s : State} {a : Turn} (ha : s.enabled a = true) : ∃ t, step s = .next t := by
  cases ht : s.nextTurn with
  | none => simp [State.nextTurn_none.1 ht a] at ha
  | some p =>
    obtain ⟨b, v⟩ := p
    cases b with
    | loseReservation g => exact ⟨_, step_loseReservation ht⟩
    | execute g =>
      obtain ⟨u, hf, -⟩ := State.focus_of_turn ht
      rw [step_execute ht hf]
      rcases settle_hartStep u with ⟨i, t, -, -, h⟩ | ⟨t, -, h⟩ <;> exact ⟨t, h⟩

theorem step_of_not_enabled {s : State} (h : ∀ a, s.enabled a = false) : step s = s.stopped :=
  step_of_nextTurn_none (State.nextTurn_none.2 h)

/-- What becomes of the hart whose turn it is: it completes with its pc advanced, or stops. -/
theorem hart_after_turn {s v u : State} {g : Nat} (foc : Focused s v g u) :
    ∃ t h', settle u (hartStep u) = .next t ∧ t.hartAt g = some h' ∧
      ((h'.pc.toNat = (u.hart.pc.toNat + 4) % 2 ^ s.cfg.xlen.bits ∧ h'.fault = none ∧ h'.refusal = none) ∨
        (∃ f, h' = { u.hart with fault := some f }) ∨ ∃ r, h' = { u.hart with refusal := some r }) := by
  rcases settle_hartStep u with ⟨i, t, -, hx, hstep⟩ | ⟨t, hstop, hstep⟩
  · obtain ⟨-, -, rfl⟩ := exec_next_commit hx
    obtain ⟨hfault, hrefusal, -⟩ := Hart.canStep_iff.1 foc.canStep
    refine ⟨_, (u.commit i.operands (i.completion u)).hart, hstep, ?_,
      .inl ⟨?_, by simp [hfault], by simp [hrefusal]⟩⟩
    · rw [← foc.hartId, ← State.commit_hartId u i.operands (i.completion u), State.hartAt_hartId]
    · rw [← foc.cfg]
      exact State.commit_pcAdvanced ..
  · refine ⟨t, t.hart, hstep, ?_, .inr ?_⟩
    · rw [← foc.hartId, show u.hartId = t.hartId by simp [State.hartId, hstop.frame.lower], State.hartAt_hartId]
    · cases hstop with
      | fault i f run => exact .inl ⟨f, rfl⟩
      | refuse r => exact .inr ⟨r, rfl⟩

theorem nothingRefused_iff {s : State} :
    NothingRefused s ↔ s.refusal.or (s.harts.findSome? Hart.refusal) = none := by
  rw [NothingRefused, Option.or_eq_none_iff, List.findSome?_eq_none_iff]

theorem noFaultRecorded_iff {s : State} : NoFaultRecorded s ↔ s.harts.findSome? Hart.fault = none := by
  rw [NoFaultRecorded, List.findSome?_eq_none_iff]

/-- A stopped machine answers a marked refusal, that of the whole state before all others. -/
theorem State.stopped_of_refused {s : State} (h : ¬ NothingRefused s) :
    ∃ r, s.stopped = .refused r ∧ ∀ q, s.refusal = some q → r = q := by
  rw [nothingRefused_iff] at h
  obtain ⟨r, hr⟩ := Option.ne_none_iff_exists'.1 h
  refine ⟨r, by simp only [State.stopped, hr], fun q hq => ?_⟩
  rw [hq, Option.some_or] at hr
  exact (Option.some.inj hr).symm

theorem State.stopped_of_fault {s : State} (h : NothingRefused s) (hf : ¬ NoFaultRecorded s) :
    ∃ f, (∃ x ∈ s.harts, x.fault = some f) ∧ s.stopped = .fault (.exception f) := by
  rw [nothingRefused_iff] at h
  rw [noFaultRecorded_iff] at hf
  obtain ⟨f, hr⟩ := Option.ne_none_iff_exists'.1 hf
  exact ⟨f, List.exists_of_findSome?_eq_some hr, by simp only [State.stopped, h, hr]⟩

theorem State.stopped_eq_runOver_iff {s : State} :
    s.stopped = .fault .runOver ↔ NoFaultRecorded s ∧ NothingRefused s := by
  by_cases hr : NothingRefused s
  · by_cases hf : NoFaultRecorded s
    · have h := nothingRefused_iff.1 hr
      have h' := noFaultRecorded_iff.1 hf
      simp [State.stopped, h, h', hr, hf]
    · obtain ⟨f, -, h⟩ := State.stopped_of_fault hr hf
      simp [h, hf]
  · obtain ⟨r, h, -⟩ := State.stopped_of_refused hr
    simp [h, hr]

/-- Where no turn is enabled, a hart with no fault and no refusal has ended. -/
theorem ended_of_not_enabled {s : State} (h : ∀ a, s.enabled a = false) {x : Hart} (hx : x ∈ s.harts)
    (hf : x.fault = none) (hr : x.refusal = none) : x.ended s.cfg = true := by
  obtain ⟨g, hg⟩ := List.getElem?_of_mem hx
  by_contra hne
  have hen : s.enabled (.execute g) = true :=
    State.enabled_execute.2 ⟨x, hg, by simp [Hart.canStep, hf, hr, hne]⟩
  simp [h] at hen

/-- Settles O59: a turn that is enabled is taken (`step_of_enabled`, `hart_after_turn`), and a machine without one
answers by its marks (`State.stopped_of_refused`, `State.stopped_of_fault`, `State.stopped_eq_runOver_iff`). -/
theorem stepsWhileATurnIsEnabled : Obligations.StepsWhileATurnIsEnabled := by
  intro s
  refine ⟨⟨fun ⟨_, ha⟩ => step_of_enabled ha, fun ⟨t, ht⟩ => ?enabled⟩, fun g v ht => ?turn,
    fun hno => ⟨fun r hr => ?mark, fun ⟨x, hx, hr⟩ => ?refused, fun hr ⟨x, hx, hf⟩ => ?fault, ?runOver⟩⟩
  case enabled =>
    by_contra hno
    have hall : ∀ a, s.enabled a = false := fun a => Bool.eq_false_iff.2 fun ha => hno ⟨a, ha⟩
    exact State.stopped_ne_next s t ((step_of_not_enabled hall).symm.trans ht)
  case turn =>
    obtain ⟨u, hf, -⟩ := State.focus_of_turn ht
    have foc := State.focused_of_turn ht hf
    obtain ⟨t, h', hstep, hg, hcases⟩ := hart_after_turn foc
    refine ⟨u.hart, t, h', ?_, (step_execute ht hf).trans hstep, hg, hcases⟩
    rw [← foc.hartAt, ← foc.hartId, State.hartAt_hartId]
  case mark =>
    have hne : ¬ NothingRefused s := fun h => by simp [h.1] at hr
    obtain ⟨q, hq, hfirst⟩ := State.stopped_of_refused hne
    rw [step_of_not_enabled hno, hq, hfirst r hr]
  case refused =>
    have hne : ¬ NothingRefused s := fun h => by simp [h.2 x hx] at hr
    obtain ⟨r, h, -⟩ := State.stopped_of_refused hne
    exact ⟨r, (step_of_not_enabled hno).trans h⟩
  case fault =>
    have hne : ¬ NoFaultRecorded s := fun h => by simp [h x hx] at hf
    obtain ⟨f, hmem, h⟩ := State.stopped_of_fault hr hne
    exact ⟨f, hmem, (step_of_not_enabled hno).trans h⟩
  case runOver =>
    rw [step_of_not_enabled hno, State.stopped_eq_runOver_iff, RunOver]
    exact ⟨fun ⟨hf, hr⟩ => ⟨fun x hx => ended_of_not_enabled hno hx (hf x hx) (hr.2 x hx), hf, hr⟩, And.right⟩

end Sys2Proof.Machine

end

section

namespace Sys2Proof.Machine

/-! ### Well-formed states -/

theorem Hart.wf_iff {c : Config} {h : Hart} :
    h.wf c = true ↔ h.pcWf c = true ∧ h.regsWf c = true ∧ (∀ r, h.res = some r → r.wf c = true) ∧
      ∀ f, h.fault = some f → f.cause.raised = true ∧ f.epc = h.pc ∧ h.refusal = none := by
  simp [Hart.wf, Option.all_eq_true, and_assoc]

theorem State.wf_iff {s : State} :
    s.wf = true ↔ s.memWf = true ∧ (∀ h ∈ s.harts, h.wf s.cfg = true) ∧ s.marksWf = true := by
  simp [State.wf, and_assoc]

theorem State.memWf_iff {s : State} :
    s.memWf = true ↔ Memory.wf s.mem = true ∧ ∀ p ∈ s.mem, s.cfg.inMem p.1 = true := by
  simp [State.memWf]

theorem State.mem_harts {s : State} {h : Hart} : h ∈ s.harts ↔ h ∈ s.lower ∨ h = s.hart ∨ h ∈ s.upper := by
  simp [State.harts]

/-- Well-formedness is about the parameters, the harts, memory and the refusal mark. -/
theorem State.wf_congr {s t : State} (hc : t.cfg = s.cfg) (hh : t.harts = s.harts) (hm : t.mem = s.mem)
    (hr : t.refusal = s.refusal) : t.wf = s.wf := by
  simp only [State.wf, State.memWf, State.marksWf, hc, hh, hm, hr]

/-- The refusal marks are about the harts' marks and that of the whole state. -/
theorem State.marksWf_congr {s t : State} (hr : t.refusal = s.refusal)
    (hh : t.harts.map Hart.refusal = s.harts.map Hart.refusal) : t.marksWf = s.marksWf := by
  have hall : ∀ p : Option Refusal → Bool, (t.harts.all fun h => p h.refusal) = s.harts.all fun h => p h.refusal := by
    intro p
    have := congrArg (fun l => l.all p) hh
    simpa [List.all_map, Function.comp_def] using this
  have hany : ∀ p : Option Refusal → Bool, (t.harts.any fun h => p h.refusal) = s.harts.any fun h => p h.refusal := by
    intro p
    have := congrArg (fun l => l.any p) hh
    simpa [List.any_map, Function.comp_def] using this
  simp only [State.marksWf, hr]
  cases s.refusal with
  | none => exact hall Option.isNone
  | some r => exact hany fun o => o == some r

theorem Hart.MayLose.wf {c : Config} {h h' : Hart} (hl : h.MayLose h') (hw : h.wf c = true) : h'.wf c = true := by
  obtain ⟨hpc, hregs, hres, hfault⟩ := Hart.wf_iff.1 hw
  refine Hart.wf_iff.2 ⟨?_, ?_, fun r hr => ?_, fun f hf => ?_⟩
  · rwa [Hart.pcWf, hl.pc]
  · rwa [Hart.regsWf, hl.regs]
  · rcases hl.res with h | h
    · exact hres r (h ▸ hr)
    · simp [h] at hr
  · rw [hl.pc, hl.refusal]
    exact hfault f (hl.fault ▸ hf)

/-- The next pc is an `XLEN`-bit multiple of 4 again (10_state R25, R26). -/
theorem nextPc_wf {c : Config} {pc : Word} (h : pc.toNat % 4 = 0) :
    c.xlen.fits (nextPc c pc) = true ∧ (nextPc c pc).toNat % 4 = 0 := by
  refine ⟨Xlen.wrap_fits _ _, ?_⟩
  have hdvd : 4 ∣ 2 ^ c.xlen.bits := by cases c.xlen <;> decide
  rw [nextPc_toNat, Nat.mod_mod_of_dvd _ hdvd]
  omega

/-- A register write keeps register 0 zero and every register an `XLEN`-bit value (10_state R21, R22). -/
theorem Hart.writeX_regsWf {c : Config} {h : Hart} (hw : h.regsWf c = true) (r : Reg) (v : Word) :
    (h.writeX c.xlen r v).regsWf c = true := by
  unfold Hart.writeX
  split
  · exact hw
  · rename_i hr
    have hr0 : r.toNat ≠ 0 := fun h => hr (BitVec.eq_of_toNat_eq h)
    simp only [Hart.regsWf, Bool.and_eq_true, beq_iff_eq, List.all_eq_true, Vector.toList_set] at hw ⊢
    refine ⟨by rw [Vector.getElem_set_ne (h := hr0)]; exact hw.1, fun x hx => ?_⟩
    rcases List.mem_or_eq_of_mem_set hx with hx | rfl
    · exact hw.2 x hx
    · exact Xlen.wrap_fits _ _

/-- A load-reserved that passes its checks registers a well-formed reservation (20_memory R48). -/
theorem Reservation.wf_of_check {i : Instr} {s : State} {k : AccessKind} (hw : i.wf s.cfg = true)
    (hc : checkAccess s.cfg k (s.readX i.rs1) i.width = none) :
    Reservation.wf s.cfg ⟨s.readX i.rs1, i.width⟩ = true := by
  obtain ⟨halign, hadmits⟩ := checkAccess_eq_none_iff.1 hc
  have hd : ((i.width == .word) || s.cfg.admitsD) = true := by
    have := Instr.wf_iff.1 hw
    cases hwd : i.width with
    | word => rfl
    | doubleword => simp [this hwd]
  simp only [Reservation.wf, halign, hadmits, hd, Bool.and_self]

/-- Any reservation a completion leaves is the one held before, or the one of its own access. -/
theorem Instr.completion_res {i : Instr} {s : State} {r : Reservation} (h : (i.completion s).res = some r) :
    s.hart.res = some r ∨ r = ⟨s.readX i.rs1, i.width⟩ := by
  rw [Instr.completion] at h
  cases ho : i.operation with
  | loadReserved =>
    rw [ho] at h
    exact .inr (Option.some.inj h).symm
  | storeConditional rs2 => rw [ho] at h; cases h
  | amo op rs2 => rw [ho] at h; exact .inl h

section Completes

variable {i : Instr} {s : State}

/-- The hart that completes an instruction stays well formed. -/
theorem State.commit_hart_wf (hw : i.wf s.cfg = true)
    (hc : checkAccess s.cfg i.accessKind (s.readX i.rs1) i.width = none) (hh : s.hart.wf s.cfg = true)
    (hcan : s.hart.canStep s.cfg = true) : (s.commit i.operands (i.completion s)).hart.wf s.cfg = true := by
  obtain ⟨hpc, hregs, hres, -⟩ := Hart.wf_iff.1 hh
  refine Hart.wf_iff.2 ⟨?pc, ?regs, fun r hr => ?res, fun f hf => ?fault⟩
  case pc =>
    simp only [Hart.pcWf, Bool.and_eq_true, beq_iff_eq] at hpc
    obtain ⟨hfits, halign⟩ := nextPc_wf (c := s.cfg) hpc.2
    simp [Hart.pcWf, hfits, halign]
  case regs =>
    rw [State.commit_hart]
    exact Hart.writeX_regsWf (h := { s.hart with res := (i.completion s).res }) hregs _ _
  case res =>
    rw [State.commit_hart_res] at hr
    rcases Instr.completion_res hr with h | rfl
    · exact hres r h
    · exact Reservation.wf_of_check hw hc
  case fault =>
    rw [State.commit_hart_fault, (Hart.canStep_iff.1 hcan).1] at hf
    cases hf

/-- A completion keeps memory canonical and inside MEM. -/
theorem State.commit_memWf (hc : checkAccess s.cfg i.accessKind (s.readX i.rs1) i.width = none)
    (hm : s.memWf = true) : (s.commit i.operands (i.completion s)).memWf = true := by
  cases hmodel : s.cfg.memoryModel with
  | rvwmo => simpa only [State.memWf, State.commit_mem_of_rvwmo _ hmodel, State.commit_cfg] using hm
  | scInterleaving =>
    cases hwrite : (i.completion s).write with
    | none => simpa only [State.memWf, State.commit_mem, hwrite, State.storeOptional_none,
        State.commit_cfg] using hm
    | some v =>
      obtain ⟨hwf, hin⟩ := State.memWf_iff.1 hm
      rw [State.memWf_iff, State.commit_mem_of_write _ hmodel hwrite, State.commit_cfg]
      refine ⟨memWrite_wf hwf _ _ _, fun p hp => ?_⟩
      rcases mem_memWriteNat _ hp with hp | ⟨hlo, hhi⟩
      · exact hin p hp
      · have hbyte := Config.admits_iff.1 (checkAccess_eq_none_iff.1 hc).2
          (p.1 - (s.readX i.operands.rs1).toNat) (by omega)
        have hsum : (s.readX i.rs1).toNat + (p.1 - (s.readX i.operands.rs1).toNat) = p.1 := by
          show (s.readX i.operands.rs1).toNat + _ = _
          omega
        rwa [hsum] at hbyte

end Completes

/-- A completed instruction keeps a well-formed state well formed. -/
theorem exec_wf {i : Instr} {s t : State} (hs : s.wf = true) (hcan : s.hart.canStep s.cfg = true)
    (h : exec i s = .next t) : t.wf = true := by
  obtain ⟨hmem, hharts, hmarks⟩ := State.wf_iff.1 hs
  obtain ⟨f, hf, hl, hu⟩ := exec_others h
  obtain ⟨hw, hc, rfl⟩ := exec_next_commit h
  refine State.wf_iff.2 ⟨State.commit_memWf hc hmem, fun x hx => ?_, ?_⟩
  · rw [State.commit_cfg]
    rcases State.mem_harts.1 hx with hx | rfl | hx
    · obtain ⟨y, hy, rfl⟩ := List.mem_map.1 (hl ▸ hx)
      exact (hf y).wf (hharts y (State.mem_harts.2 (.inl hy)))
    · exact State.commit_hart_wf hw hc (hharts s.hart (State.mem_harts.2 (.inr (.inl rfl)))) hcan
    · obtain ⟨y, hy, rfl⟩ := List.mem_map.1 (hu ▸ hx)
      exact (hf y).wf (hharts y (State.mem_harts.2 (.inr (.inr hy))))
  · rw [State.marksWf_congr (State.commit_refusal ..) ?_]
    · exact hmarks
    · have hcomp : Hart.refusal ∘ f = Hart.refusal := funext fun y => (hf y).refusal
      simp only [State.harts, hl, hu, List.map_append, List.map_cons, List.map_map, hcomp, State.commit_hart_refusal]

/-- A refusal marked where the marks are right leaves them right: the first one stays that of a hart which is not the
one refused now. -/
theorem State.markRefused_marksWf {s : State} (hm : s.marksWf = true) (hn : s.hart.refusal = none) (r : Refusal) :
    (s.markRefused r).marksWf = true := by
  cases hr : s.refusal with
  | none => simp [State.marksWf, State.harts, hr]
  | some q =>
    simp only [State.marksWf, hr, List.any_eq_true, beq_iff_eq] at hm
    obtain ⟨x, hx, hq⟩ := hm
    simp only [State.marksWf, State.markRefused_refusal, hr, Option.some_or, List.any_eq_true, beq_iff_eq]
    refine ⟨x, State.mem_harts.2 ?_, hq⟩
    rcases State.mem_harts.1 hx with hx | rfl | hx
    · exact .inl hx
    · simp [hn] at hq
    · exact .inr (.inr hx)

theorem Cause.raised_of_check {c : Config} {k : AccessKind} {addr : Word} {w : Width} {cause : Cause}
    (h : checkAccess c k addr w = some cause) : cause.raised = true := by
  rcases checkAccess_cause h with rfl | rfl <;> cases k <;> rfl

/-- A hart that stops stays well formed. -/
theorem Stops.hart_wf {u t : State} (h : Stops u t) (hw : u.hart.wf u.cfg = true)
    (hcan : u.hart.canStep u.cfg = true) : t.hart.wf u.cfg = true := by
  obtain ⟨hpc, hregs, hres, -⟩ := Hart.wf_iff.1 hw
  obtain ⟨hnofault, hnorefusal, -⟩ := Hart.canStep_iff.1 hcan
  cases h with
  | fault i f run =>
    obtain ⟨cause, hc, hf⟩ := exec_fault_reported run
    cases hf
    refine Hart.wf_iff.2 ⟨hpc, hregs, hres, fun q hq => ?_⟩
    obtain rfl := Option.some.inj hq
    exact ⟨Cause.raised_of_check hc, rfl, hnorefusal⟩
  | refuse r =>
    refine Hart.wf_iff.2 ⟨hpc, hregs, hres, fun q hq => ?_⟩
    simp [hnofault] at hq

theorem Stops.marksWf {u t : State} (h : Stops u t) (hm : u.marksWf = true) (hcan : u.hart.canStep u.cfg = true) :
    t.marksWf = true := by
  cases h with
  | fault i f run =>
    rwa [State.marksWf_congr (s := u) (t := u.recordFault f) rfl (by simp [State.harts])]
  | refuse r => exact State.markRefused_marksWf hm (Hart.canStep_iff.1 hcan).2.1 r

theorem Stops.wf {u t : State} (h : Stops u t) (hu : u.wf = true) (hcan : u.hart.canStep u.cfg = true) :
    t.wf = true := by
  obtain ⟨hmem, hharts, hmarks⟩ := State.wf_iff.1 hu
  have hfr := h.frame
  refine State.wf_iff.2 ⟨by rwa [State.memWf, hfr.mem, hfr.cfg], fun x hx => ?_, h.marksWf hmarks hcan⟩
  rw [hfr.cfg]
  rcases State.mem_harts.1 hx with hx | rfl | hx
  · exact hharts x (State.mem_harts.2 (.inl (hfr.lower ▸ hx)))
  · exact h.hart_wf (hharts u.hart (State.mem_harts.2 (.inr (.inl rfl)))) hcan
  · exact hharts x (State.mem_harts.2 (.inr (.inr (hfr.upper ▸ hx))))

theorem EndsReservation.wf {s t : State} {g : Nat} (h : EndsReservation s g t) (hs : s.wf = true) : t.wf = true := by
  obtain ⟨hmem, hharts, hmarks⟩ := State.wf_iff.1 hs
  obtain ⟨l₁, x, l₂, hsplit, htsplit, -⟩ := h.split
  refine State.wf_iff.2 ⟨by rwa [State.memWf, h.mem, h.cfg], fun y hy => ?_, ?_⟩
  · rw [hsplit] at hharts
    rw [htsplit, List.mem_append, List.mem_cons] at hy
    rw [h.cfg]
    rcases hy with hy | rfl | hy
    · exact hharts y (by simp [hy])
    · exact x.mayLose_clear.wf (hharts x (by simp))
    · exact hharts y (by simp [hy])
  · rwa [State.marksWf_congr h.refusal (by simp [hsplit, htsplit])]

theorem Focused.wf {s v u : State} {g : Nat} (h : Focused s v g u) : u.wf = s.wf :=
  State.wf_congr h.cfg h.harts h.mem h.refusal

/-- Settles O51: each of the three kinds of steps keeps a well-formed state well formed (`EndsReservation.wf`,
`Stops.wf`, `exec_wf`). -/
theorem stepKeepsStateWellFormed : Obligations.StepKeepsStateWellFormed := by
  intro s t hs hstep
  cases step_moves hstep with
  | ends g h => exact h.wf hs
  | stops v g u foc stop => exact stop.wf (foc.wf ▸ hs) (foc.cfg ▸ foc.canStep)
  | runs v g u i foc fetch run => exact exec_wf (foc.wf ▸ hs) (foc.cfg ▸ foc.canStep) run

theorem Hart.reset_wf {c : Config} (hc : c.wfResetPc = true) (x : List Word) : (Hart.reset c x).wf c = true := by
  refine Hart.wf_iff.2 ⟨hc, ?_, nofun, nofun⟩
  simp only [Hart.regsWf, Bool.and_eq_true, beq_iff_eq, List.all_eq_true]
  refine ⟨by simp [Hart.reset], fun v hv => ?_⟩
  obtain ⟨i, -, rfl⟩ := List.mem_map.1 hv
  split
  · exact Xlen.fits_zero _
  · exact Xlen.wrap_fits _ _

/-- Settles O52: every hart after reset is well formed (`Hart.reset_wf`) and none is refused. -/
theorem resetIsWellFormed : Obligations.ResetIsWellFormed := by
  intro c x xs m hc hm hin
  refine State.wf_iff.2 ⟨State.memWf_iff.2 ⟨hm, hin⟩, fun h hh => ?_, ?_⟩
  · rw [State.harts_launch] at hh
    obtain ⟨y, -, rfl⟩ := List.mem_map.1 hh
    exact Hart.reset_wf hc y
  · have hnone : (State.launch c x xs m).refusal = none := rfl
    simp [State.marksWf, hnone, Hart.reset]

end Sys2Proof.Machine

end

section

namespace Sys2Proof.Machine

/-! ### The LR/SC guarantee (20_memory R47) -/

/-- The guarantee outlives a step that adds no event and registers no reservation. -/
theorem LrScInv.of_held {s t : State} (hc : t.cfg = s.cfg) (hh : t.history = s.history)
    (hres : ∀ g h r, t.hartAt g = some h → h.res = some r → ∃ y, s.hartAt g = some y ∧ y.res = some r)
    (hinv : LrScInv s) : LrScInv t := by
  obtain ⟨hpairs, hheld⟩ := hinv
  refine ⟨hc ▸ hh ▸ hpairs, fun g h r hg hr => ?_⟩
  obtain ⟨y, hy, hyr⟩ := hres g h r hg hr
  rw [hc, hh]
  exact hheld g y r hy hyr

theorem EndsReservation.lrScInv {s t : State} {g : Nat} (h : EndsReservation s g t) (hinv : LrScInv s) :
    LrScInv t := by
  refine hinv.of_held h.cfg h.history fun k x r hx hr => ?_
  rw [h.hartAt, Option.map_eq_some_iff] at hx
  obtain ⟨y, hy, rfl⟩ := hx
  refine ⟨y, hy, ?_⟩
  split at hr
  · cases hr
  · exact hr

theorem Stops.lrScInv {u t : State} (h : Stops u t) (hinv : LrScInv u) : LrScInv t := by
  have hfr := h.frame
  have hid : t.hartId = u.hartId := by simp [State.hartId, hfr.lower]
  refine hinv.of_held hfr.cfg hfr.history fun k x r hx hr => ?_
  by_cases hk : k = u.hartId
  · subst hk
    rw [← hid, State.hartAt_hartId] at hx
    obtain rfl := Option.some.inj hx
    exact ⟨u.hart, State.hartAt_hartId u, hfr.res ▸ hr⟩
  · exact ⟨x, (State.hartAt_congr hfr.lower hfr.upper hk).symm.trans hx, hr⟩

/-- A completed instruction keeps the guarantee: a store-conditional that succeeds had a reservation, which the
history backs, and every reservation held after it is backed by the history with its event (`exec_event`). -/
theorem exec_lrScInv {i : Instr} {s t : State} (hm : s.cfg.memoryModel = .scInterleaving) (hinv : LrScInv s)
    (h : exec i s = .next t) : LrScInv t := by
  obtain ⟨hpairs, hheld⟩ := hinv
  obtain ⟨hcfg, hid, -⟩ := exec_control h
  obtain ⟨e, hhist, hhart, hown, hothers, hsc⟩ := exec_event hm h
  have hbacked : ∀ r, s.hart.res = some r → reservedSince s.cfg s.hartId r s.history = true :=
    fun r => hheld s.hartId s.hart r (State.hartAt_hartId s)
  rw [LrScInv, hcfg, hhist]
  refine ⟨⟨?pair, hpairs⟩, fun g x r hx hr => ?held⟩
  case pair =>
    unfold Event.atomicAfter
    split
    · rename_i st hkind hstore
      obtain ⟨r, hr, hcov⟩ := hsc hkind st hstore
      exact ⟨r, hhart ▸ hbacked r hr, hcov⟩
    · trivial
  case held =>
    by_cases hg : g = s.hartId
    · subst hg
      rw [← hid, State.hartAt_hartId] at hx
      obtain rfl := Option.some.inj hx
      rw [reservedSince, if_pos hhart]
      rcases hown r hr with ⟨hr, hkind⟩ | ⟨hkind, hload⟩
      · rw [hkind]
        exact hbacked r hr
      · rw [hkind]
        exact hload
    · obtain ⟨hstore, y, hy, hyr⟩ := hothers g hg x hx r hr
      rw [reservedSince, if_neg fun he => hg (he.symm.trans hhart), hstore, hheld g y r hy hyr]
      rfl

theorem Focused.lrScInv {s v u : State} {g : Nat} (h : Focused s v g u) (hinv : LrScInv s) : LrScInv u :=
  hinv.of_held h.cfg h.history fun k x _ hx hr => ⟨x, (h.hartAt k).symm.trans hx, hr⟩

/-- Settles O54: each of the three kinds of steps keeps the guarantee (`EndsReservation.lrScInv`, `Stops.lrScInv`,
`exec_lrScInv`). -/
theorem lrScPairsStayAtomic : Obligations.LrScPairsStayAtomic := by
  intro s t hm hinv hstep
  cases step_moves hstep with
  | ends g h => exact h.lrScInv hinv
  | stops v g u foc stop => exact stop.lrScInv (foc.lrScInv hinv)
  | runs v g u i foc fetch run => exact exec_lrScInv (foc.cfg ▸ hm) (foc.lrScInv hinv) run

/-- Settles O55: after reset the history is empty and no hart holds a reservation. -/
theorem resetMeetsLrScInvariant : Obligations.ResetMeetsLrScInvariant := by
  intro c x xs m
  refine ⟨trivial, fun g h r hg hr => ?_⟩
  rw [State.hartAt_launch, Option.map_eq_some_iff] at hg
  obtain ⟨y, -, rfl⟩ := hg
  cases hr

/-! ### Histories under `SC_INTERLEAVING` are explained by their own order (20_memory R59) -/

theorem getElem?_reverse_split (post pre : List Event) (lr : Event) :
    (post ++ lr :: pre).reverse[pre.length]? = some lr := by
  simp

/-- What stands in a history after `lr` is one of the later events. -/
theorem mem_post_of_getElem? {post pre : List Event} {lr d : Event} {k : Nat} (hk : pre.length < k)
    (hd : (post ++ lr :: pre).reverse[k]? = some d) : d ∈ post := by
  obtain ⟨j, rfl⟩ := Nat.exists_eq_add_of_lt hk
  have hj : post.reverse[j]? = some d := by
    rw [← hd]
    simp [List.getElem?_append_right, Nat.add_assoc]
  exact List.mem_reverse.1 (List.mem_of_getElem? hj)

/-- An event whose store accesses a byte of a well-formed reservation stores into its reservation set. -/
theorem Event.storesInto_of_byte {c : Config} {r : Reservation} {d : Event} {st : Access} {k j : Nat}
    (hg : c.wfGranule = true) (hr : r.wf c = true) (hk : k < r.size.bytes) (hst : d.store = some st)
    (hj : j < st.size.bytes) (heq : st.addr.toNat + j = r.addr.toNat + k) : d.storesInto c r.addr = true := by
  simp only [Event.storesInto, hst, Config.touches, List.any_eq_true, List.mem_range]
  exact ⟨j, hj, heq ▸ inReservationSet_of_wf hg hr hk⟩

/-- Between a load-reserved that backs a reservation and the next event of its hart, no other hart's operation stores
to a byte of the reservation. -/
theorem sameHart_of_reservedSince {c : Config} {l : List Event} {e : Event} {r : Reservation} {i : Nat}
    (hg : c.wfGranule = true) (hr : r.wf c = true) (hsince : reservedSince c e.hart r l = true)
    (hlatest : latestBefore (l.reverse ++ [e]) l.reverse.length (·.kind == .loadReserved) = some i) {o : MemOp}
    (ho : o ∈ opsOf l.reverse) (hlt : i < o.event) (hstore : o.isStore = true) {x : Nat}
    (hx : x ∈ bytesOf l.reverse ⟨i, false⟩) (hox : accessesByte l.reverse o x = true) :
    sameHart l.reverse o.event i = true := by
  obtain ⟨post, lr, pre, rfl, hlr, hkind, hload, hpost⟩ := reservedSince_split hsince
  rw [latestBefore_of_split hkind hlr fun d hd => (hpost d hd).1] at hlatest
  obtain rfl := Option.some.inj hlatest
  have hevent : ∃ d, (post ++ lr :: pre).reverse[o.event]? = some d :=
    ⟨_, List.getElem?_eq_getElem (mem_opsOf_event ho)⟩
  obtain ⟨d, hd⟩ := hevent
  by_cases hsame : d.hart = e.hart
  · simp only [sameHart, hd, getElem?_reverse_split, hsame, hlr, beq_self_eq_true]
  · exfalso
    have hno := (hpost d (mem_post_of_getElem? hlt hd)).2 hsame
    obtain ⟨a, ha, k, hk, rfl⟩ := mem_bytesOf.1 hx
    simp only [accessOf, getElem?_reverse_split, Option.bind_some, Bool.false_eq_true, if_false] at ha
    simp only [ha, Option.any_some, Bool.and_eq_true, beq_iff_eq] at hload
    obtain ⟨haddr, hsize⟩ := hload
    obtain ⟨st, hst, j, hj, heq⟩ := mem_bytesOf.1 (List.contains_iff_mem.1 hox)
    simp only [accessOf, hd, Option.bind_some, hstore, if_true] at hst
    have hyes := Event.storesInto_of_byte hg hr (hsize ▸ hk) hst hj (haddr ▸ heq)
    simp [hno] at hyes

section Exec

variable {m : Memory} {i : Instr} {s t : State} {e : Event} (hm : s.cfg.memoryModel = .scInterleaving)
  (hexec : exec i s = .next t) (hhist : t.history = e :: s.history)

include hm hexec hhist

/-- The loads of a completed instruction read what the history leaves (20_memory R58). -/
theorem exec_loadValueAxiom (hexp : ScExplained m s) :
    loadValueAxiom m (s.history.reverse ++ [e]) (opsOf (s.history.reverse ++ [e])) = true := by
  obtain ⟨hax, hmem⟩ := hexp
  obtain ⟨e', he', hload, -⟩ := exec_memory hm hexec
  obtain rfl : e' = e := (List.cons.inj (he'.symm.trans hhist)).1
  refine loadValueAxiom_append (explains_opsOf.1 hax).1 fun a ha k hk => ?_
  rw [hload a ha, memRead_byte _ hk, hmem]

/-- No other hart stores between the halves of a pair a completed instruction makes (20_memory R58). -/
theorem exec_atomicityAxiom (hg : s.cfg.wfGranule = true) (hwf : s.wf = true) (hinv : LrScInv s)
    (hexp : ScExplained m s) :
    atomicityAxiom (s.history.reverse ++ [e]) (opsOf (s.history.reverse ++ [e])) = true := by
  obtain ⟨e', he', hhart, -, -, hsc⟩ := exec_event hm hexec
  obtain rfl : e' = e := (List.cons.inj (he'.symm.trans hhist)).1
  refine atomicityAxiom_append (explains_opsOf.1 hexp.1).2 fun j hkind hstore hlatest o ho hlt hos x hx hox => ?_
  obtain ⟨st, hst⟩ := Option.isSome_iff_exists.1 hstore
  obtain ⟨r, hr, -⟩ := hsc hkind st hst
  obtain ⟨-, hharts, -⟩ := State.wf_iff.1 hwf
  obtain ⟨-, -, hres, -⟩ := Hart.wf_iff.1 (hharts s.hart (State.mem_harts.2 (.inr (.inl rfl))))
  obtain ⟨-, hheld⟩ := hinv
  have hsince := hheld s.hartId s.hart r (State.hartAt_hartId s) hr
  exact sameHart_of_reservedSince hg (hres r hr) (hhart ▸ hsince) hlatest ho hlt hos hx hox

/-- Memory after a completed instruction is what the history with its event leaves. -/
theorem exec_finalByte (hwf : Memory.wf s.mem = true) (hexp : ScExplained m s) (x : Nat) :
    memByte t.mem x = finalByte m (s.history.reverse ++ [e]) (opsOf (s.history.reverse ++ [e])) x := by
  obtain ⟨e', he', -, hstore⟩ := exec_memory hm hexec
  obtain rfl : e' = e := (List.cons.inj (he'.symm.trans hhist)).1
  rw [finalByte_append]
  rcases hstore with ⟨hst, hmem⟩ | ⟨a, w, v, hst, hmem⟩
  · rw [hst, hmem]
    exact hexp.2 x
  · simp only [hst, hmem]
    split
    · rename_i hout
      rw [memByte_memWrite_outside hwf _ _ _ _ hout]
      exact hexp.2 x
    · rename_i hin
      obtain ⟨j, rfl⟩ := Nat.exists_eq_add_of_le (by omega : a.toNat ≤ x)
      have hj : j < w.bytes := by omega
      rw [memByte_memWrite_inside hwf _ _ hj, Nat.add_sub_cancel_left, extractByte_setWidth _ hj]

end Exec

theorem exec_scExplained {m : Memory} {i : Instr} {s t : State} (hm : s.cfg.memoryModel = .scInterleaving)
    (hg : s.cfg.wfGranule = true) (hwf : s.wf = true) (hinv : LrScInv s) (hexp : ScExplained m s)
    (hexec : exec i s = .next t) : ScExplained m t := by
  obtain ⟨e, hhist, -⟩ := exec_event hm hexec
  obtain ⟨hmemwf, -⟩ := State.wf_iff.1 hwf
  obtain ⟨hmem, -⟩ := State.memWf_iff.1 hmemwf
  rw [ScExplained, hhist, List.reverse_cons, explains_opsOf]
  exact ⟨⟨exec_loadValueAxiom hm hexec hhist hexp, exec_atomicityAxiom hm hexec hhist hg hwf hinv hexp⟩,
    exec_finalByte hm hexec hhist hmem hexp⟩

theorem ScExplained.congr {m : Memory} {s t : State} (hh : t.history = s.history) (hm : t.mem = s.mem)
    (hexp : ScExplained m s) : ScExplained m t := by
  rwa [ScExplained, hh, hm]

theorem Config.wfGranule_of_wf {c : Config} (h : c.wf = true) : c.wfGranule = true := by
  simp only [Config.wf, Bool.and_eq_true] at h
  obtain ⟨⟨⟨⟨⟨-, hgranule⟩, -⟩, -⟩, -⟩, -⟩ := h
  exact hgranule

/-- Settles O56: only a completed instruction changes history or memory, and it keeps the history explained by its own
order (`exec_scExplained`). -/
theorem scHistoriesMeetRvwmoAxioms : Obligations.ScHistoriesMeetRvwmoAxioms := by
  intro m s t hm hc hwf hinv hexp hstep
  cases step_moves hstep with
  | ends g h => exact hexp.congr h.history h.mem
  | stops v g u foc stop =>
    exact hexp.congr (stop.frame.history.trans foc.history) (stop.frame.mem.trans foc.mem)
  | runs v g u i foc fetch run =>
    exact exec_scExplained (foc.cfg ▸ hm) (Config.wfGranule_of_wf (foc.cfg ▸ hc)) (foc.wf ▸ hwf)
      (foc.lrScInv hinv) (hexp.congr foc.history foc.mem) run

/-- Settles O57: the empty history has no operations to judge. -/
theorem resetIsExplained : Obligations.ResetIsExplained :=
  fun _ _ _ _ => ⟨rfl, fun _ => rfl⟩

end Sys2Proof.Machine

end

section

namespace Sys2Proof.Machine

/-! ### What an order that explains a history says (20_memory R56, R57, R58) -/

theorem explains_iff {m : Memory} {h : List Event} {g : List MemOp} :
    explains m h g = true ↔
      g.Perm (opsOf h) ∧ keepsProgramOrder h g = true ∧ loadValueAxiom m h g = true ∧ atomicityAxiom h g = true := by
  simp [explains, List.isPerm_iff, and_assoc]

/-- Preserved program order is kept. -/
theorem globallyBefore_of_preserved {h : List Event} {g : List MemOp} {a b : MemOp}
    (hk : keepsProgramOrder h g = true) (ha : a ∈ opsOf h) (hb : b ∈ opsOf h) (hp : preserved h g a b = true) :
    globallyBefore g a b = true := by
  simp only [keepsProgramOrder, List.all_eq_true, Bool.or_eq_true, Bool.not_eq_true'] at hk
  simpa [hp] using hk a ha b hb

/-- What precedes a release in program order is preserved before it (20_memory R57, clause (6)). -/
theorem preserved_of_releases {h : List Event} {g : List MemOp} {a b : MemOp} (hp : programBefore h a b = true)
    (hr : releases h b = true) : preserved h g a b = true := by
  simp [preserved, hp, hr]

/-- What follows an acquire in program order is preserved after it (20_memory R57, clause (5)). -/
theorem preserved_of_acquires {h : List Event} {g : List MemOp} {a b : MemOp} (hp : programBefore h a b = true)
    (ha : acquires h a = true) : preserved h g a b = true := by
  simp [preserved, hp, ha]

theorem globallyBefore_trans {g : List MemOp} {a b c : MemOp} (hab : globallyBefore g a b = true)
    (hbc : globallyBefore g b c = true) : globallyBefore g a c = true := by
  simp only [globallyBefore, decide_eq_true_eq] at *
  exact hab.trans hbc

/-- A store a load returns from is one to the byte, before the load in the global order or in program order. -/
theorem returnsFrom_some {h : List Event} {g : List MemOp} {l s : MemOp} {x : Nat}
    (hr : returnsFrom h g l x = some s) :
    s ∈ g ∧ s.isStore = true ∧ accessesByte h s x = true ∧
      (globallyBefore g s l = true ∨ programBefore h s l = true) := by
  have hmem := List.mem_filter.1 (List.mem_of_getLast? hr)
  simpa [and_assoc] using hmem

/-- The only store to a byte is what a later load returns from. -/
theorem returnsFrom_of_unique {h : List Event} {g : List MemOp} {l s : MemOp} {x : Nat} (hs : s ∈ g)
    (hst : s.isStore = true) (hx : accessesByte h s x = true)
    (hl : globallyBefore g s l = true ∨ programBefore h s l = true)
    (hu : ∀ o ∈ g, o.isStore = true → accessesByte h o x = true → o = s) : returnsFrom h g l x = some s := by
  cases hr : returnsFrom h g l x with
  | some o =>
    obtain ⟨ho, hos, hox, -⟩ := returnsFrom_some hr
    rw [hu o ho hos hox]
  | none =>
    have hnil := List.getLast?_eq_none_iff.1 hr
    have hmem : s ∈ g.filter fun s =>
        s.isStore && accessesByte h s x && (globallyBefore g s l || programBefore h s l) :=
      List.mem_filter.2 ⟨hs, by simp [hst, hx, hl]⟩
    rw [hnil] at hmem
    cases hmem

/-- What a load reads at a byte: the value of the store it returns from, or the initial byte. -/
theorem byteValue_of_load {m : Memory} {h : List Event} {g : List MemOp} {l : MemOp} {x : Nat}
    (hv : loadValueAxiom m h g = true) (hl : l ∈ opsOf h) (hload : l.isStore = false) (hx : x ∈ bytesOf h l) :
    byteValue h l x = match returnsFrom h g l x with
      | some s => byteValue h s x
      | none => memByte m x := by
  simp only [loadValueAxiom, List.all_eq_true, Bool.or_eq_true, beq_iff_eq] at hv
  rcases hv l hl with hs | hv
  · simp [hload] at hs
  · exact hv x hx

/-- Byte `i` of an operation's value. -/
theorem byteValue_eq {h : List Event} {o : MemOp} {a : Word} {w : Width} {v : BitVec w.bits}
    (ho : accessOf h o = some ⟨a, w, v.setWidth 64⟩) {i : Nat} (hi : i < w.bytes) :
    byteValue h o (a.toNat + i) = v.extractLsb' (8 * i) 8 := by
  rw [byteValue, ho]
  simp only [Nat.add_sub_cancel_left]
  exact extractByte_setWidth v hi

/-- Values with the same bytes are the same. -/
theorem eq_of_extractByte {w : Width} {u v : BitVec w.bits}
    (h : ∀ i < w.bytes, u.extractLsb' (8 * i) 8 = v.extractLsb' (8 * i) 8) : u = v := by
  refine BitVec.eq_of_getLsbD_eq fun j hj => ?_
  have hbytes : j / 8 < w.bytes := by
    have : w.bits = 8 * w.bytes := by cases w <;> rfl
    omega
  have hbit := congrArg (fun b => b.getLsbD (j % 8)) (h (j / 8) hbytes)
  have hlt : j % 8 < 8 := Nat.mod_lt _ (by decide)
  simpa [BitVec.getLsbD_extractLsb', hlt, Nat.div_add_mod] using hbit

/-! ### Message passing (20_memory R55) -/

/-- What varies in the history of message passing. -/
structure MessagePassing where
  writer : Nat
  reader : Nat
  data : Word
  flag : Word
  oldData : BitVec 32
  newData : BitVec 32
  oldFlag : BitVec 32
  newFlag : BitVec 32
  seenFlag : BitVec 32
  seenData : BitVec 32
  rd : Nat → Reg
  rs1 : Nat → Reg
  rs2 : Nat → Reg
  aq : Nat → Bool
  rl : Nat → Bool

namespace MessagePassing

variable (p : MessagePassing)

/-- The writer stores the data and then, with `rl`, the flag; the reader loads the flag, with `aq`, and then the
data. -/
def history : List Event :=
  [⟨p.writer, .amo, p.rd 0, p.rs1 0, some (p.rs2 0), p.aq 0, p.rl 0, some ⟨p.data, .word, p.oldData.setWidth 64⟩,
      some ⟨p.data, .word, p.newData.setWidth 64⟩⟩,
    ⟨p.writer, .amo, p.rd 1, p.rs1 1, some (p.rs2 1), p.aq 1, true, some ⟨p.flag, .word, p.oldFlag.setWidth 64⟩,
      some ⟨p.flag, .word, p.newFlag.setWidth 64⟩⟩,
    ⟨p.reader, .loadReserved, p.rd 2, p.rs1 2, none, true, p.rl 2, some ⟨p.flag, .word, p.seenFlag.setWidth 64⟩, none⟩,
    ⟨p.reader, .loadReserved, p.rd 3, p.rs1 3, none, p.aq 3, p.rl 3, some ⟨p.data, .word, p.seenData.setWidth 64⟩,
      none⟩]

/-- The writer's store of the data. -/
def dataStore : MemOp := ⟨0, true⟩

/-- The writer's store of the flag. -/
def flagStore : MemOp := ⟨1, true⟩

/-- The reader's load of the flag. -/
def flagLoad : MemOp := ⟨2, false⟩

/-- The reader's load of the data. -/
def dataLoad : MemOp := ⟨3, false⟩

theorem opsOf_history :
    opsOf p.history = [⟨0, false⟩, dataStore, ⟨1, false⟩, flagStore, flagLoad, dataLoad] := rfl

theorem stores {o : MemOp} (ho : o ∈ opsOf p.history) (hs : o.isStore = true) : o = dataStore ∨ o = flagStore := by
  rw [opsOf_history] at ho
  simp only [List.mem_cons, List.not_mem_nil, or_false] at ho
  rcases ho with rfl | rfl | rfl | rfl | rfl | rfl
  · cases hs
  · exact .inl rfl
  · cases hs
  · exact .inr rfl
  · cases hs
  · cases hs

/-- A byte of a word is one of its four. -/
theorem mem_bytesOf_word {o : MemOp} {a : Word} {v : BitVec 64}
    (ho : accessOf p.history o = some ⟨a, .word, v⟩) {x : Nat} :
    x ∈ bytesOf p.history o ↔ ∃ i < 4, a.toNat + i = x := by
  rw [mem_bytesOf, ho]
  simp [Width.bytes]

theorem mem_bytesOf_flagLoad {x : Nat} :
    x ∈ bytesOf p.history flagLoad ↔ ∃ i < 4, p.flag.toNat + i = x :=
  p.mem_bytesOf_word (v := p.seenFlag.setWidth 64) rfl

theorem mem_bytesOf_dataLoad {x : Nat} :
    x ∈ bytesOf p.history dataLoad ↔ ∃ i < 4, p.data.toNat + i = x :=
  p.mem_bytesOf_word (v := p.seenData.setWidth 64) rfl

theorem accessesByte_dataStore {x : Nat} :
    accessesByte p.history dataStore x = true ↔ ∃ i < 4, p.data.toNat + i = x :=
  List.contains_iff_mem.trans (p.mem_bytesOf_word (v := p.newData.setWidth 64) rfl)

theorem accessesByte_flagStore {x : Nat} :
    accessesByte p.history flagStore x = true ↔ ∃ i < 4, p.flag.toNat + i = x :=
  List.contains_iff_mem.trans (p.mem_bytesOf_word (v := p.newFlag.setWidth 64) rfl)

theorem byteValue_flagLoad {i : Nat} (hi : i < 4) :
    byteValue p.history flagLoad (p.flag.toNat + i) = p.seenFlag.extractLsb' (8 * i) 8 :=
  byteValue_eq (w := .word) rfl hi

theorem byteValue_dataLoad {i : Nat} (hi : i < 4) :
    byteValue p.history dataLoad (p.data.toNat + i) = p.seenData.extractLsb' (8 * i) 8 :=
  byteValue_eq (w := .word) rfl hi

theorem byteValue_dataStore {i : Nat} (hi : i < 4) :
    byteValue p.history dataStore (p.data.toNat + i) = p.newData.extractLsb' (8 * i) 8 :=
  byteValue_eq (w := .word) rfl hi

/-- The flag stands elsewhere than the data. -/
def Apart : Prop :=
  p.data.toNat + 4 ≤ p.flag.toNat ∨ p.flag.toNat + 4 ≤ p.data.toNat

variable {p}

/-- The only store to a byte of the data is the writer's. -/
theorem eq_dataStore (hapart : p.Apart) {o : MemOp} (ho : o ∈ opsOf p.history) (hs : o.isStore = true) {i : Nat}
    (hi : i < 4) (hx : accessesByte p.history o (p.data.toNat + i) = true) : o = dataStore := by
  rcases p.stores ho hs with rfl | rfl
  · rfl
  · obtain ⟨j, hj, heq⟩ := p.accessesByte_flagStore.1 hx
    rw [Apart] at hapart
    omega

/-- The only store to a byte of the flag is the writer's. -/
theorem eq_flagStore (hapart : p.Apart) {o : MemOp} (ho : o ∈ opsOf p.history) (hs : o.isStore = true) {i : Nat}
    (hi : i < 4) (hx : accessesByte p.history o (p.flag.toNat + i) = true) : o = flagStore := by
  rcases p.stores ho hs with rfl | rfl
  · obtain ⟨j, hj, heq⟩ := p.accessesByte_dataStore.1 hx
    rw [Apart] at hapart
    omega
  · rfl

/-- A flag that is not the initial one comes, at some byte, from the writer's store. -/
theorem flag_returnsFrom {m : Memory} {g : List MemOp} (hapart : p.Apart) (hg : g.Perm (opsOf p.history))
    (hv : loadValueAxiom m p.history g = true) (hne : p.seenFlag ≠ memRead m p.flag.toNat .word) :
    ∃ x, returnsFrom p.history g flagLoad x = some flagStore := by
  by_contra hno
  refine hne (eq_of_extractByte (w := .word) fun i hi => ?_)
  have hmem : flagLoad ∈ opsOf p.history := by simp [opsOf_history]
  have hbyte := byteValue_of_load hv hmem rfl (p.mem_bytesOf_flagLoad.2 ⟨i, hi, rfl⟩)
  rw [p.byteValue_flagLoad hi] at hbyte
  rw [hbyte, ← extractByte_setWidth (memRead m p.flag.toNat .word) hi, memRead_byte .word hi]
  cases hr : returnsFrom p.history g flagLoad (p.flag.toNat + i) with
  | none => rfl
  | some s =>
    obtain ⟨hs, hst, hx, -⟩ := returnsFrom_some hr
    obtain rfl := eq_flagStore hapart (hg.mem_iff.1 hs) hst hi hx
    exact absurd ⟨_, hr⟩ hno

theorem programBefore_stores : programBefore p.history dataStore flagStore = true := by
  simp [programBefore, eventBefore, sameHart, history, dataStore, flagStore]

theorem programBefore_loads : programBefore p.history flagLoad dataLoad = true := by
  simp [programBefore, eventBefore, sameHart, history, flagLoad, dataLoad]

/-- Where writer and reader are one hart, program order goes from the one's operations to the other's. -/
theorem programBefore_data_of_flag (h : programBefore p.history flagStore flagLoad = true) :
    programBefore p.history dataStore dataLoad = true := by
  simpa [programBefore, eventBefore, sameHart, history, dataStore, flagStore, flagLoad, dataLoad] using h

/-- With the flag seen, the data store precedes the data load: through the release, the flag and the acquire in the
global memory order, or in program order. -/
theorem dataStore_before_dataLoad {g : List MemOp} (hk : keepsProgramOrder p.history g = true)
    (hflag : globallyBefore g flagStore flagLoad = true ∨ programBefore p.history flagStore flagLoad = true) :
    globallyBefore g dataStore dataLoad = true ∨ programBefore p.history dataStore dataLoad = true := by
  refine hflag.imp (fun h => ?_) programBefore_data_of_flag
  have hrelease : globallyBefore g dataStore flagStore = true :=
    globallyBefore_of_preserved hk (by simp [opsOf_history]) (by simp [opsOf_history])
      (preserved_of_releases programBefore_stores rfl)
  have hacquire : globallyBefore g flagLoad dataLoad = true :=
    globallyBefore_of_preserved hk (by simp [opsOf_history]) (by simp [opsOf_history])
      (preserved_of_acquires programBefore_loads rfl)
  exact globallyBefore_trans (globallyBefore_trans hrelease h) hacquire

/-- A data load after the data store returns the data stored. -/
theorem seenData_eq_newData {m : Memory} {g : List MemOp} (hapart : p.Apart) (hg : g.Perm (opsOf p.history))
    (hv : loadValueAxiom m p.history g = true)
    (hdata : globallyBefore g dataStore dataLoad = true ∨ programBefore p.history dataStore dataLoad = true) :
    p.seenData = p.newData := by
  refine eq_of_extractByte (w := .word) fun i hi => ?_
  have hfrom : returnsFrom p.history g dataLoad (p.data.toNat + i) = some dataStore :=
    returnsFrom_of_unique (hg.mem_iff.2 (by simp [opsOf_history])) rfl (p.accessesByte_dataStore.2 ⟨i, hi, rfl⟩)
      hdata fun o ho hs hx => eq_dataStore hapart (hg.mem_iff.1 ho) hs hi hx
  have hbyte := byteValue_of_load hv (by simp [opsOf_history]) rfl (p.mem_bytesOf_dataLoad.2 ⟨i, hi, rfl⟩)
  rw [hfrom, p.byteValue_dataLoad hi] at hbyte
  exact hbyte.trans (p.byteValue_dataStore hi)

end MessagePassing

open MessagePassing in
/-- Settles O48: a new flag comes from the writer's store (`flag_returnsFrom`), so that the data store precedes the
data load (`dataStore_before_dataLoad`), which returns it (`seenData_eq_newData`). -/
theorem releaseAcquireMessagePassing : Obligations.ReleaseAcquireMessagePassing := by
  rintro m g k data flag oldData newData oldFlag newFlag seenFlag seenData rd rs1 rs2 aq rl hapart ⟨order, hexp⟩ hne
  let p : MessagePassing :=
    ⟨g, k, data, flag, oldData, newData, oldFlag, newFlag, seenFlag, seenData, rd, rs1, rs2, aq, rl⟩
  obtain ⟨hperm, hkeeps, hload, -⟩ := (explains_iff (h := p.history)).1 hexp
  obtain ⟨x, hx⟩ := flag_returnsFrom (p := p) hapart hperm hload hne
  obtain ⟨-, -, -, hflag⟩ := returnsFrom_some hx
  exact seenData_eq_newData (p := p) hapart hperm hload (dataStore_before_dataLoad hkeeps hflag)

end Sys2Proof.Machine

end

section

namespace Sys2Proof.Machine

/-! ### Every run ends (60_exceptions R158, 70_reset R178)

A hart that completes an instruction comes nearer to an address outside PROGRAM; one that stops takes no further step;
and between two steps of harts the environment can end only the reservations held. -/

/-- The program text lists what it yields. -/
theorem mem_of_programWord {p : List (Nat × InstrWord)} {a : Nat} {w : InstrWord} (h : programWord p a = some w) :
    (a, w) ∈ p := by
  induction p with
  | nil => cases h
  | cons q rest ih =>
    obtain ⟨b, v⟩ := q
    rw [programWord] at h
    split at h
    · rename_i hab
      obtain rfl := Option.some.inj h
      exact hab ▸ List.mem_cons_self
    · exact List.mem_cons_of_mem _ (ih h)

/-- An aligned address of the address space which, unless MEM is empty, is outside PROGRAM. -/
structure Hole (c : Config) (a : Nat) : Prop where
  aligned : a % 4 = 0
  lt : a < 2 ^ c.xlen.bits
  outside : ∀ b, c.inMem b = true → programWord c.program a = none

/-- MEM lies inside the address space. -/
theorem Config.lt_of_inMem {c : Config} (hc : c.wfRegions = true) {b : Nat} (hb : c.inMem b = true) :
    b < 2 ^ c.xlen.bits := by
  simp only [Config.inMem, List.any_eq_true, Region.holds, Bool.and_eq_true, decide_eq_true_eq] at hb
  obtain ⟨r, hr, -, hlt⟩ := hb
  simp only [Config.wfRegions, List.all_eq_true, decide_eq_true_eq] at hc
  exact hlt.trans_le (hc r hr)

/-- A word of PROGRAM has no byte in MEM (20_memory R64), so an aligned word with one is outside PROGRAM. -/
theorem Config.programWord_of_inMem {c : Config} (hc : c.wfProgram = true) {b : Nat} (hb : c.inMem b = true) :
    programWord c.program (b - b % 4) = none := by
  by_contra hne
  obtain ⟨w, hw⟩ := Option.ne_none_iff_exists'.1 hne
  simp only [Config.wfProgram, Config.wfProgramAddress, Bool.and_eq_true, List.all_eq_true, List.mem_range,
    Bool.not_eq_true'] at hc
  obtain ⟨hplaced, -⟩ := hc
  obtain ⟨-, hbytes⟩ := hplaced _ (mem_of_programWord hw)
  have hout := hbytes (b % 4) (Nat.mod_lt _ (by decide))
  rw [Nat.sub_add_cancel (Nat.mod_le b 4), hb] at hout
  cases hout

theorem Config.exists_hole {c : Config} (hc : c.wf = true) : ∃ a, Hole c a := by
  simp only [Config.wf, Bool.and_eq_true] at hc
  obtain ⟨⟨-, hregions⟩, hprogram⟩ := hc
  by_cases hb : ∃ b, c.inMem b = true
  · obtain ⟨b, hb⟩ := hb
    exact ⟨b - b % 4, by omega, (Nat.sub_le _ _).trans_lt (Config.lt_of_inMem hregions hb),
      fun _ _ => Config.programWord_of_inMem hprogram hb⟩
  · exact ⟨0, rfl, Nat.two_pow_pos _, fun b h => absurd ⟨b, h⟩ hb⟩

/-- How far `a` is ahead of `p` among the first `n` numbers, counting round. -/
def ahead (n a p : Nat) : Nat :=
  if p ≤ a then a - p else a + n - p

/-- Four steps on, a multiple of 4 is nearer. -/
theorem ahead_lt {n a p : Nat} (hn : n % 4 = 0) (ha : a < n) (hp : p < n) (ha4 : a % 4 = 0) (hp4 : p % 4 = 0)
    (hne : p ≠ a) : ahead n a ((p + 4) % n) < ahead n a p := by
  have hmod : (p + 4) % n = if p + 4 = n then 0 else p + 4 := by
    split
    · rename_i h
      rw [h, Nat.mod_self]
    · exact Nat.mod_eq_of_lt (by omega)
  rw [hmod]
  unfold ahead
  split <;> split <;> split <;> omega

/-- How long a hart may still step: nothing where it cannot, else its distance to the hole and the step there. -/
def Hart.distance (c : Config) (hole : Nat) (h : Hart) : Nat :=
  if h.canStep c then ahead (2 ^ c.xlen.bits) hole h.pc.toNat + 1 else 0

/-- How long the harts may still step. -/
def State.distance (s : State) (hole : Nat) : Nat :=
  (s.harts.map (Hart.distance s.cfg hole)).sum

/-- How many harts hold a reservation. -/
def State.held (s : State) : Nat :=
  s.harts.countP fun h => h.res.isSome

theorem Hart.MayLose.distance {h h' : Hart} (hl : h.MayLose h') (c : Config) (hole : Nat) :
    h'.distance c hole = h.distance c hole := by
  have hcan : h'.canStep c = h.canStep c := by
    simp only [Hart.canStep, Hart.ended, hl.pc, hl.fault, hl.refusal]
  rw [Hart.distance, Hart.distance, hcan, hl.pc]

/-- Where the other harts keep their distance and the one that steps comes nearer, the harts do. -/
theorem State.distance_lt {s t : State} {f : Hart → Hart} {hole : Nat} (hf : ∀ h : Hart, h.MayLose (f h))
    (hc : t.cfg = s.cfg) (hl : t.lower = s.lower.map f) (hu : t.upper = s.upper.map f)
    (hlt : t.hart.distance s.cfg hole < s.hart.distance s.cfg hole) : t.distance hole < s.distance hole := by
  have hcomp : Hart.distance s.cfg hole ∘ f = Hart.distance s.cfg hole := funext fun h => (hf h).distance _ _
  simp only [State.distance, State.harts, hc, hl, hu, List.map_append, List.map_cons, List.map_map, hcomp,
    List.sum_append, List.sum_cons]
  omega

theorem Hart.distance_of_not_canStep {c : Config} {h : Hart} (hc : h.canStep c = false) (hole : Nat) :
    h.distance c hole = 0 := by
  simp [Hart.distance, hc]

theorem Hart.distance_of_canStep {c : Config} {h : Hart} (hc : h.canStep c = true) (hole : Nat) :
    h.distance c hole = ahead (2 ^ c.xlen.bits) hole h.pc.toNat + 1 :=
  if_pos hc

theorem Hart.distance_le (c : Config) (hole : Nat) (h : Hart) :
    h.distance c hole ≤ ahead (2 ^ c.xlen.bits) hole h.pc.toNat + 1 := by
  unfold Hart.distance
  split <;> omega

/-- A hart that stops has no step left. -/
theorem Stops.distance_lt {u t : State} {hole : Nat} (h : Stops u t) (hcan : u.hart.canStep u.cfg = true) :
    t.distance hole < u.distance hole := by
  have hfr := h.frame
  refine State.distance_lt (f := id) Hart.MayLose.refl hfr.cfg (by rw [hfr.lower, List.map_id])
    (by rw [hfr.upper, List.map_id]) ?_
  rw [Hart.distance_of_not_canStep (hfr.stopped u.cfg), Hart.distance_of_canStep hcan]
  exact Nat.succ_pos _

theorem programWord_of_fetch {s : State} {i : Instr} (h : s.fetch = .ok i) :
    ∃ w, programWord s.cfg.program s.hart.pc.toNat = some w := by
  unfold State.fetch at h
  split at h
  · cases h
  · exact ⟨_, ‹_›⟩

/-- A hart that completes an instruction had its pc in PROGRAM and its address in MEM, so it was not at the hole, and
comes nearer to it. -/
theorem exec_distance_lt {i : Instr} {s t : State} {hole : Nat} (hhole : Hole s.cfg hole)
    (hwf : s.hart.wf s.cfg = true) (hcan : s.hart.canStep s.cfg = true) (hfetch : s.fetch = .ok i)
    (h : exec i s = .next t) : t.distance hole < s.distance hole := by
  obtain ⟨f, hf, hl, hu⟩ := exec_others h
  obtain ⟨-, hc, rfl⟩ := exec_next_commit h
  refine State.distance_lt hf (State.commit_cfg ..) hl hu ?_
  have hbyte : s.cfg.inMem ((s.readX i.rs1).toNat + 0) = true :=
    Config.admits_iff.1 (checkAccess_eq_none_iff.1 hc).2 0 (by cases i.width <;> decide)
  have hne : s.hart.pc.toNat ≠ hole := by
    rintro rfl
    obtain ⟨w, hw⟩ := programWord_of_fetch hfetch
    simp [hhole.outside _ hbyte] at hw
  obtain ⟨hpc, -⟩ := Hart.wf_iff.1 hwf
  simp only [Hart.pcWf, Xlen.fits, Bool.and_eq_true, decide_eq_true_eq, beq_iff_eq] at hpc
  have hbits : 2 ^ s.cfg.xlen.bits % 4 = 0 := by cases s.cfg.xlen <;> decide
  have hnear := ahead_lt hbits hhole.lt hpc.1 hhole.aligned hpc.2 hne
  have hle := (s.commit i.operands (i.completion s)).hart.distance_le s.cfg hole
  rw [State.commit_hart_pc, nextPc_toNat] at hle
  rw [Hart.distance_of_canStep hcan]
  omega

/-- The environment's step leaves the distances and one reservation fewer. -/
theorem EndsReservation.measure_lt {s t : State} {g hole : Nat} (h : EndsReservation s g t) :
    t.distance hole = s.distance hole ∧ t.held < s.held := by
  obtain ⟨l₁, x, l₂, hs, ht, hres⟩ := h.split
  have hkeep := x.mayLose_clear.distance s.cfg hole
  constructor
  · simp only [State.distance, h.cfg, hs, ht, List.map_append, List.map_cons, hkeep]
  · simp [State.held, hs, ht, List.countP_append, hres]

/-- Each step comes nearer to the end: the harts to the hole, or as near and fewer reservations held. -/
theorem step_measure_lt {s t : State} {hole : Nat} (hhole : Hole s.cfg hole) (hwf : s.wf = true)
    (hstep : step s = .next t) : toLex (t.distance hole, t.held) < toLex (s.distance hole, s.held) := by
  rw [Prod.Lex.toLex_lt_toLex]
  cases step_moves hstep with
  | ends g h =>
    obtain ⟨heq, hlt⟩ := h.measure_lt (hole := hole)
    exact .inr ⟨heq, hlt⟩
  | stops v g u foc stop =>
    have hdist : u.distance hole = s.distance hole := by simp only [State.distance, foc.cfg, foc.harts]
    exact .inl (hdist ▸ stop.distance_lt (foc.cfg ▸ foc.canStep))
  | runs v g u i foc fetch run =>
    have hdist : u.distance hole = s.distance hole := by simp only [State.distance, foc.cfg, foc.harts]
    obtain ⟨-, hharts, -⟩ := State.wf_iff.1 (foc.wf.trans hwf)
    have hhart := hharts u.hart (State.mem_harts.2 (.inr (.inl rfl)))
    exact .inl (hdist ▸ exec_distance_lt (foc.cfg ▸ hhole) hhart (foc.cfg ▸ foc.canStep) fetch run)

/-- A run keeps its parameters and stays well formed. -/
theorem IsRun.invariant {run : Nat → State} (hrun : IsRun run) (hwf : (run 0).wf = true) (n : Nat) :
    (run n).cfg = (run 0).cfg ∧ (run n).wf = true := by
  induction n with
  | zero => exact ⟨rfl, hwf⟩
  | succ n ih =>
    obtain ⟨hcfg, -⟩ := parametersNeverChange _ _ (hrun n)
    exact ⟨hcfg.trans ih.1, stepKeepsStateWellFormed _ _ ih.2 (hrun n)⟩

/-- Settles O60: the distances of the harts and the reservations held decrease in lexicographic order with every step
(`step_measure_lt`). -/
theorem everyRunEnds : Obligations.EveryRunEnds := by
  intro run hc hwf hrun
  obtain ⟨hole, hhole⟩ := Config.exists_hole hc
  obtain ⟨n, hn⟩ := WellFounded.not_rel_apply_succ (r := (· < ·)) fun n => toLex ((run n).distance hole, (run n).held)
  obtain ⟨hcfg, hwfn⟩ := hrun.invariant hwf n
  exact hn (step_measure_lt (hcfg ▸ hhole) hwfn (hrun n))

end Sys2Proof.Machine

end
